-- ==== Sys2Proof/Word.lean ====
section
/-! DEFINITION. The words the block handles (00_scope.md R8, R12): unsigned, of fixed width, bit 0 least significant. -/

namespace Sys2Proof

/-- A 32-bit unsigned word: a mask, a duration in µs, a frequency in Hz, an index, a repeat count (R8). -/
abbrev Word := BitVec 32

/-- One data byte of a payload (R8, R83). -/
abbrev Byte := BitVec 8

/-- One 8-bit token code of a logical bit string (R84). -/
abbrev Token := BitVec 8

/-- A line id, 0 to 31 (R8, R25). -/
abbrev LineId := BitVec 5

end Sys2Proof
end

