-- ==== Sys2Proof/Config.lean ====
section
/-! DEFINITION. What is fixed for the machine: the buffer capacity (00_scope.md R7) and the spec's OPEN parameters
(R9, R10). POLL_INTERVAL (R11) is timing only and has no counterpart here (notes/assumptions/15.md). -/

namespace Sys2Proof

/-- `BUF_CAP = 12000`, the pulse buffer's fixed maximum number of entries (R7). -/
abbrev bufCap : Nat := 12000

/-- The model's argument for the open parameter `HANDLE` (R10): which codes, besides 0, are handles. It has no body, so nothing
can be proved of it, and what is proved holds for every choice of it: a type of handles of any finite size, or countably
infinite (DESIGN CHOICE, notes/assumptions/9.md). -/
opaque Config.isHandle : Nat → Bool

/-- `HANDLE`, the open type of the backend's playback handle (R10): what it holds is settled by `Config.isHandle` alone. The
block stores a handle and passes it back; no definition of the model looks at its code. -/
structure Handle where
  code : Nat
  ok   : code = 0 ∨ Config.isHandle code = true
deriving DecidableEq, Repr

/-- The one handle every choice of `HANDLE` has; it is named only to give `CTRL.HANDLE` a reset value
(notes/assumptions/10.md). -/
def Handle.first : Handle := ⟨0, .inl rfl⟩

/-- The open bounds of R9. `none` is the spec's "unbounded". They are arguments of the model: they stand beside the
state, no step changes them, and a statement about every state is a statement about every bound
(DESIGN CHOICE, notes/assumptions/8.md). -/
structure Params where
  /-- `MAX_TOKENS`: the longest token sequence the encoder accepts. -/
  maxTokens : Option Nat
  /-- `MAX_DATA_BYTES`: the longest byte payload the BitPacker accepts. -/
  maxDataBytes : Option Nat
deriving DecidableEq, Repr

end Sys2Proof
end

