-- ==== Sys2Proof/Syntax.lean ====
section
/-! DEFINITION. The commands of 30_encoding.md: the eleven instructions with their operands (R82, R83), and the form in
which the host sends them, a 32-bit word and an argument record (R80). -/

namespace Sys2Proof

/-- Eight 32-bit durations in µs: the operand `D[0..7]` of CONFIGURE (R83) and the register `CFG.DUR[0..7]` (R28). -/
structure Durs where
  d0 : Word
  d1 : Word
  d2 : Word
  d3 : Word
  d4 : Word
  d5 : Word
  d6 : Word
  d7 : Word
deriving DecidableEq, Repr

/-- CONFIGURE's argument record (R83). `ovr` is the override mask of R88. -/
structure ConfigArgs where
  variant : BitVec 2
  lineId  : LineId
  ovr     : BitVec 10
  freq    : Word
  dutyNum : BitVec 16
  dutyDen : BitVec 16
  d       : Durs
deriving DecidableEq, Repr

/-- The instructions: one constructor per row of the opcode map (R82), with the row's argument fields (R83). Every field
has its stated width by its type, so every term is well formed; an operand value the spec refuses (`VARIANT = 3`,
`REPEAT = 0`, …) is refused by the instruction's meaning, with the status the spec names. `inv` is `INV = 1`. -/
inductive Instr where
  | bufReset
  | bufAppend (mark space dur : Word)
  | bufLen
  | bufRead (index : Word)
  | emitSpace (dur : Word)
  | emitMark (dur : Word)
  | configure (a : ConfigArgs)
  | encode (toks : List Token)
  | pack (data : List Byte) (bwm : Word) (inv : Bool)
  | transmit (toks : List Token) (rep : Word)
  | transmitBytes (data : List Byte) (bwm : Word) (inv : Bool) (rep : Word)
deriving DecidableEq, Repr

/-- The assigned opcodes, by the mnemonics of R82. -/
inductive Opcode where
  | bufReset | bufAppend | bufLen | bufRead
  | emitSpace | emitMark
  | configure | encode
  | pack
  | transmit | transmitBytes
deriving DecidableEq, Repr

/-- The argument record `ARGS` (R80), as its named fields (R83). The opcode selects which fields it reads; the others are
not looked at. The spec gives the record no layout in bits (R68, D25), so it stays a record
(DESIGN CHOICE, notes/assumptions/16.md). -/
structure Args where
  mark   : Word
  space  : Word
  dur    : Word
  index  : Word
  config : ConfigArgs
  toks   : List Token
  data   : List Byte
  bwm    : Word
  inv    : Bool
  rep    : Word
deriving DecidableEq, Repr

/-- A command as the host sends it: the pair `(WORD, ARGS)` (R80). -/
structure Command where
  word : Word
  args : Args
deriving DecidableEq, Repr

/-- Eight durations of 0. -/
def Durs.zero : Durs := ⟨0, 0, 0, 0, 0, 0, 0, 0⟩

/-- A CONFIGURE record of zeros. -/
def ConfigArgs.zero : ConfigArgs := ⟨0, 0, 0, 0, 0, 0, Durs.zero⟩

/-- The argument record of zeros and empty sequences. -/
def Args.zero : Args := ⟨0, 0, 0, 0, ConfigArgs.zero, [], [], 0, false, 0⟩

end Sys2Proof
end

