-- ==== Sys2Proof/Decode.lean ====
section
/-! DEFINITION. The decoder of 30_encoding.md (R80 to R94), total on every command, rejecting by name; after it the encoder
(the words of an instruction), the host's numbering of a table word, and the assembler's operands of CONFIGURE (R95). -/

namespace Sys2Proof

/-- Why a command word is illegal (R92). -/
inductive DecodeError where
  /-- `WORD[31:8] != 0` (R81). -/
  | reservedNonZero
  /-- `OPC` is in no row of R82's table. -/
  | unassignedOpcode
deriving DecidableEq, Repr

/-- The opcode map, column `OPC` of R82. -/
def Opcode.code : Opcode → BitVec 8
  | .bufReset      => 0x01
  | .bufAppend     => 0x02
  | .bufLen        => 0x03
  | .bufRead       => 0x04
  | .emitSpace     => 0x10
  | .emitMark      => 0x11
  | .configure     => 0x20
  | .encode        => 0x21
  | .pack          => 0x30
  | .transmit      => 0x40
  | .transmitBytes => 0x41

/-- The rows of R82's table, in its order. -/
def Opcode.all : List Opcode :=
  [.bufReset, .bufAppend, .bufLen, .bufRead, .emitSpace, .emitMark, .configure, .encode, .pack, .transmit, .transmitBytes]

/-- The row an `OPC` value selects; `none` for an unassigned value (R82, R92). -/
def Opcode.ofCode (c : BitVec 8) : Option Opcode :=
  Opcode.all.find? (fun o => o.code == c)

/-- `OPC = WORD[7:0]` (R81). -/
def opcField (w : Word) : BitVec 8 := w.extractLsb' 0 8

/-- `RSV = WORD[31:8]` (R81). -/
def rsvField (w : Word) : BitVec 24 := w.extractLsb' 8 24

/-- The instruction an opcode makes of the argument record: it reads the fields of its row in R83. -/
def instrOf (o : Opcode) (a : Args) : Instr :=
  match o with
  | .bufReset      => .bufReset
  | .bufAppend     => .bufAppend a.mark a.space a.dur
  | .bufLen        => .bufLen
  | .bufRead       => .bufRead a.index
  | .emitSpace     => .emitSpace a.dur
  | .emitMark      => .emitMark a.dur
  | .configure     => .configure a.config
  | .encode        => .encode a.toks
  | .pack          => .pack a.data a.bwm a.inv
  | .transmit      => .transmit a.toks a.rep
  | .transmitBytes => .transmitBytes a.data a.bwm a.inv a.rep

/-- The decoder: it checks `RSV` and reads `OPC`; the opcode alone selects the argument fields (R81, R94). -/
def decode (c : Command) : Except DecodeError Instr :=
  if rsvField c.word = 0 then
    match Opcode.ofCode (opcField c.word) with
    | some o => .ok (instrOf o c.args)
    | none   => .error .unassignedOpcode
  else .error .reservedNonZero

/-- The command word of an opcode: `OPC` below a zero `RSV` (R81). -/
def Opcode.word (o : Opcode) : Word := o.code.setWidth 32

/-- The opcode of an instruction (R82). -/
def Instr.opcode : Instr → Opcode
  | .bufReset              => .bufReset
  | .bufAppend _ _ _       => .bufAppend
  | .bufLen                => .bufLen
  | .bufRead _             => .bufRead
  | .emitSpace _           => .emitSpace
  | .emitMark _            => .emitMark
  | .configure _           => .configure
  | .encode _              => .encode
  | .pack _ _ _            => .pack
  | .transmit _ _          => .transmit
  | .transmitBytes _ _ _ _ => .transmitBytes

/-- The argument record of an instruction: its operands in their fields, zeros in the fields its opcode does not read. -/
def Instr.args : Instr → Args
  | .bufReset                  => Args.zero
  | .bufAppend m s d           => { Args.zero with mark := m, space := s, dur := d }
  | .bufLen                    => Args.zero
  | .bufRead i                 => { Args.zero with index := i }
  | .emitSpace d               => { Args.zero with dur := d }
  | .emitMark d                => { Args.zero with dur := d }
  | .configure a               => { Args.zero with config := a }
  | .encode ts                 => { Args.zero with toks := ts }
  | .pack bs w v               => { Args.zero with data := bs, bwm := w, inv := v }
  | .transmit ts r             => { Args.zero with toks := ts, rep := r }
  | .transmitBytes bs w v r    => { Args.zero with data := bs, bwm := w, inv := v, rep := r }

/-- The encoder: the command the host sends for an instruction (R80). -/
def encode (i : Instr) : Command := ⟨i.opcode.word, i.args⟩

/-- The command whose table bits are `w`, numbered as spec/opcode_table.json numbers them: the table gives every row its
32-bit `WORD` and the argument record no bits, so every argument field is 0 or empty. -/
def tableCommand (w : Nat) : Command := ⟨BitVec.ofNat 32 w, Args.zero⟩

/-- What the decoder reads from an instruction whose table bits are `w`: `none` where it refuses, and where `nbits` or
`w` is no 32-bit word (every command word has 32 bits, R94). -/
def decodeTableWord (nbits w : Nat) : Option Instr :=
  if nbits = 32 ∧ w < 4294967296 then (decode (tableCommand w)).toOption else none

/-! ### CONFIGURE's assembler operands (R95) -/

/-- The optional operands of the assembler's CONFIGURE line (R95): `FREQ=<hz>`, `DUTY=<num>/<den>` and
`<DURNAME>=<us>`, the name given by its index in `CFG.DUR` (R28). -/
inductive ConfigOperand where
  | freq (hz : Word)
  | duty (num den : BitVec 16)
  | dur (k : Fin 8) (us : Word)
deriving DecidableEq, Repr

/-- `D[k] <- v`. -/
def Durs.set (d : Durs) (k : Fin 8) (v : Word) : Durs :=
  match k with
  | 0 => { d with d0 := v }
  | 1 => { d with d1 := v }
  | 2 => { d with d2 := v }
  | 3 => { d with d3 := v }
  | 4 => { d with d4 := v }
  | 5 => { d with d5 := v }
  | 6 => { d with d6 := v }
  | 7 => { d with d7 := v }

/-- One operand of the CONFIGURE line sets its `OVR` bit and its argument field (R88, R95). -/
def ConfigOperand.apply (a : ConfigArgs) : ConfigOperand → ConfigArgs
  | .freq hz    => { a with ovr := a.ovr ||| 1#10, freq := hz }
  | .duty n d   => { a with ovr := a.ovr ||| 2#10, dutyNum := n, dutyDen := d }
  | .dur k us   => { a with ovr := a.ovr ||| (1#10 <<< (2 + k.val)), d := a.d.set k us }

/-- The CONFIGURE command of an assembler line: the variant's number (R87), the line, and the operands in order; an operand
the line omits leaves its `OVR` bit 0 (R95). -/
def assembleConfigure (variant : BitVec 2) (line : LineId) (ops : List ConfigOperand) : Instr :=
  .configure (ops.foldl ConfigOperand.apply { ConfigArgs.zero with variant := variant, lineId := line })

end Sys2Proof
end

