-- ==== Sys2Proof/Machine/State.lean ====
section
/-! DEFINITION. The state of the block (10_state.md R22, `Block` below, "Nothing else is state") and, beside it, the model's
own fields: the open parameters (R9) and the block's surroundings (events still to arrive, outputs so far). Plain data. -/

namespace Sys2Proof.Machine

/-- The protocol variant, `CFG.VARIANT` (R24). The register never holds the code 3, so no constructor stands for it
(notes/assumptions/14.md); the codes are `Variant.code`. -/
inductive Variant where
  | nec
  | rc5
  | raw
deriving DecidableEq, Repr

/-- The status codes of R260 by name; the numbers are `Status.code`. -/
inductive Status where
  | ok
  | invalidBitError
  | capacityExceeded
  | backendInitError
  | backendTransmitError
  | invalidEntry
  | configError
  | notConfigured
  | invalidArgument
  | busy
  | illegalCommand
deriving DecidableEq, Repr

/-- The controller phases of R34 by name; the numbers are `Phase.code`. -/
inductive Phase where
  | idle
  | tInit
  | tLine
  | tEncode
  | tClear
  | tStage
  | tCreate
  | tStart
  | tPoll
  | tDelete
  | tTerm
deriving DecidableEq, Repr

/-- One pulse entry `{MARK, SPACE, DUR}` (R31, R86). -/
structure Entry where
  mark  : Word
  space : Word
  dur   : Word
deriving DecidableEq, Repr

/-- What an entry that nothing has written holds. DESIGN CHOICE (notes/assumptions/11.md): R31 leaves it unspecified and
unobservable. Its duration is 0, so no append ever writes it (R120). -/
def Entry.unwritten : Entry := ⟨0, 0, 0⟩

/-- The pulse buffer `BUF` (R30, R31). `len` is `BUF.LEN`, 0 to `BUF_CAP`. `cells` holds `BUF.E`: the pairs of an index and
its entry, indices strictly rising, only entries that differ from `Entry.unwritten`. -/
structure Buffer where
  len   : Fin (bufCap + 1)
  cells : List (Nat × Entry)
deriving DecidableEq, Repr

/-- The configuration registers `CFG` (R24 to R28). -/
structure Cfg where
  variant : Variant
  lineId  : LineId
  freq    : Word
  dutyNum : BitVec 16
  dutyDen : BitVec 16
  dur     : Durs
deriving DecidableEq, Repr

/-- The controller registers `CTRL` (R34 to R37). -/
structure Ctrl where
  phase       : Phase
  tokens      : List Token
  repeatCount : Word
  pend        : Status
  session     : Bool
  handleHeld  : Bool
  handle      : Handle
deriving DecidableEq, Repr

/-- The complete state of the block, the record `IRENC` of R22. -/
structure Block where
  cfgValid : Bool
  cfg      : Cfg
  buf      : Buffer
  ctrl     : Ctrl
deriving DecidableEq, Repr

/-- A request to the backend (R220). `initBackend` is `initialize()`; the second field of `configureLine` is
`asOutput`. -/
inductive Request where
  | initBackend
  | configureLine (line : LineId) (asOutput : Bool)
  | clearStaged
  | stage (entries : List Entry)
  | createHandle
  | start (h : Handle)
  | isBusy (h : Handle)
  | deleteHandle (h : Handle)
  | terminate
deriving DecidableEq, Repr

/-- A backend answer, in the shapes of R220: `Ok`, `Err`, `Ok(count)`, `Ok(h)`, `true`/`false`, `Done`. -/
inductive Answer where
  | ok
  | err
  | okCount (n : Nat)
  | okHandle (h : Handle)
  | busy (b : Bool)
  | done
deriving DecidableEq, Repr

/-- One draw of the backend (R221): what it would answer to any request. The pending request takes the parts its shape has
(`ok` chooses `Ok` or `Err`; `count` for `stage`; `handle` for `createHandle`; `busy` for `isBusy`), so every draw answers
every request and nothing constrains it (notes/assumptions/3.md). -/
structure Draw where
  ok     : Bool
  count  : Nat
  handle : Handle
  busy   : Bool
deriving DecidableEq, Repr

/-- The value of a response (R83, R90): none, BUF_LEN's word, BUF_READ's entry, PACK's tokens. -/
inductive Value where
  | none
  | word (w : Word)
  | entry (e : Entry)
  | tokens (ts : List Token)
deriving DecidableEq, Repr

/-- What the block puts out, seen from outside: a response (R90), a backend request with the answer it got (R220, R240),
or a request a reset abandoned unanswered (R291). -/
inductive Output where
  | response (st : Status) (v : Value)
  | call (r : Request) (a : Answer)
  | abandoned (r : Request)
deriving DecidableEq, Repr

/-- What can reach the block between two steps (R6, R221, R225, R291): a command of the host, the reset event, the
backend's answer to the pending request, an answer to a request a reset abandoned, or a turn of the block's own
internal step (notes/assumptions/1.md, 5.md, 7.md). -/
inductive Event where
  | command (c : Command)
  | reset
  | answer (d : Draw)
  | lateAnswer (d : Draw)
  | turn
deriving DecidableEq, Repr

/-- The model's own fields for the block's surroundings. `inbox` holds the events still to arrive, next first;
`standing` the draw the backend goes on giving when the inbox is empty, if it gives one (notes/assumptions/4.md); `log`
what the block has put out, oldest first (notes/assumptions/2.md). -/
structure Env where
  inbox    : List Event
  standing : Option Draw
  log      : List Output
deriving DecidableEq, Repr

/-- The machine's state: the block's registers and buffer (R22), the open parameters (R9), the surroundings. -/
structure State where
  block  : Block
  params : Params
  env    : Env
deriving DecidableEq, Repr

/-- The reasons the machine could stop with a fault. There are none: the spec models no behaviour as a fault
(93_implementation_defined.md, after U22), and every error is a status in a response (R260). Safe and unsafe do not
arise, since no step raises one. -/
inductive Fault where
deriving DecidableEq, Repr

/-- The reasons a step can be refused. -/
inductive Refusal where
  /-- Raised by an arm of `exec` whose instruction has no meaning yet; safe, since the run stops. Every instruction has its
  meaning, so no arm raises it. -/
  | notModelled (mnemonic : String)
deriving DecidableEq, Repr

/-- The configuration registers at reset: R24 to R28 leave them unspecified and unobservable; zeros, and NEC, whose code is 0
(DESIGN CHOICE, notes/assumptions/10.md). -/
def Cfg.reset : Cfg := ⟨.nec, 0, 0, 0, 0, Durs.zero⟩

/-- The controller at reset (R34 to R37): IDLE, `PEND = OK`, nothing held; the token, repeat and handle registers, which the
spec leaves unspecified, empty, 0 and the first handle (DESIGN CHOICE, notes/assumptions/10.md). -/
def Ctrl.reset : Ctrl := ⟨.idle, [], 0, .ok, false, false, Handle.first⟩

/-- The block at reset (R290): not configured, an empty buffer, IDLE. -/
def Block.reset : Block := ⟨false, Cfg.reset, ⟨0, []⟩, Ctrl.reset⟩

/-- The machine right after reset (R290, R292): the block at its reset values, waiting for a first command; the open bounds
unbounded (R9 allows it), no event under way, nothing put out yet (DESIGN CHOICE, notes/assumptions/1.md, 8.md). -/
def State.reset : State := ⟨Block.reset, ⟨none, none⟩, ⟨[], none, []⟩⟩

end Sys2Proof.Machine
end

