-- ==== Sys2Proof/Machine/Flags.lean ====
section
/-! DEFINITION. The block has no flag register (10_state.md R38): its only condition is the status of a response. This file
gives the numbers of the named codes (R24, R34, R260), the packed word of an entry (R64) and the token classes (R84). -/

namespace Sys2Proof.Machine

/-- The 4-bit status codes of R260. -/
def Status.code : Status → BitVec 4
  | .ok                   => 0
  | .invalidBitError      => 1
  | .capacityExceeded     => 2
  | .backendInitError     => 3
  | .backendTransmitError => 4
  | .invalidEntry         => 5
  | .configError          => 6
  | .notConfigured        => 7
  | .invalidArgument      => 8
  | .busy                 => 9
  | .illegalCommand       => 10

/-- The 4-bit phase numbers of R34. -/
def Phase.code : Phase → BitVec 4
  | .idle    => 0
  | .tInit   => 1
  | .tLine   => 2
  | .tEncode => 3
  | .tClear  => 4
  | .tStage  => 5
  | .tCreate => 6
  | .tStart  => 7
  | .tPoll   => 8
  | .tDelete => 9
  | .tTerm   => 10

/-- The 2-bit variant codes of R24 and R87. -/
def Variant.code : Variant → BitVec 2
  | .nec => 0
  | .rc5 => 1
  | .raw => 2

/-- The variant a `VARIANT` operand names; `none` for the reserved code 3 (R87). -/
def Variant.ofCode (v : BitVec 2) : Option Variant :=
  if v = 0 then some .nec else if v = 1 then some .rc5 else if v = 2 then some .raw else none

/-- The packed 96-bit form of an entry (R64): `[31:0] = MARK`, `[63:32] = SPACE`, `[95:64] = DUR`. -/
def Entry.packed (e : Entry) : BitVec 96 := e.dur ++ e.space ++ e.mark

/-- The class of a token (R84, R162). -/
inductive TokenClass where
  | zero
  | one
  | invalid
deriving DecidableEq, Repr

/-- `cls(t)` (R162): 0x30 is Zero, 0x31 is One, every other code Invalid. -/
def cls (t : Token) : TokenClass :=
  if t = 0x30 then .zero else if t = 0x31 then .one else .invalid

end Sys2Proof.Machine
end

