-- ==== Sys2Proof/Machine/Ops.lean ====
section
/-! DEFINITION. The named operations over the buffer, over responses and over the controller's errors: everything that reads or
writes memory or reports an error goes through them. -/

namespace Sys2Proof.Machine

/-! ### The entries of the buffer -/

/-- The entry stored under index `i`, or `Entry.unwritten` when none is listed. -/
def readCell : List (Nat × Entry) → Nat → Entry
  | [], _ => Entry.unwritten
  | (j, e) :: rest, i =>
    if i < j then Entry.unwritten else if i = j then e else readCell rest i

/-- The pairs of indices `i`, `i + 1`, … with the entries of a list, leaving out what an unlisted index reads as. -/
def indexed : Nat → List Entry → List (Nat × Entry)
  | _, [] => []
  | i, e :: es => if e = Entry.unwritten then indexed (i + 1) es else (i, e) :: indexed (i + 1) es

/-- Store the entries `es` at the indices `i`, `i + 1`, …: what is listed below them and above them stays. -/
def storeFrom (cells : List (Nat × Entry)) (i : Nat) (es : List Entry) : List (Nat × Entry) :=
  cells.takeWhile (fun p => p.1 < i) ++ indexed i es ++ cells.dropWhile (fun p => p.1 < i + es.length)

/-- The canonical form of the buffer's memory: indices strictly rising and below `BUF_CAP` (R60), no entry equal to what an
unlisted index reads as. -/
abbrev Buffer.wf (b : Buffer) : Prop :=
  (b.cells.map Prod.fst).Pairwise (· < ·) ∧ ∀ p ∈ b.cells, p.1 < bufCap ∧ p.2 ≠ Entry.unwritten

/-- `BUF.E[i]` (R31). -/
def Buffer.entry (b : Buffer) (i : Nat) : Entry := readCell b.cells i

/-- The entries `BUF.E[0]` to `BUF.E[BUF.LEN-1]`, in index order: what T_STAGE reads (R227) and `entries()` views (R124). -/
def Buffer.entries (b : Buffer) : List Entry := (List.range b.len.val).map b.entry

/-- `BUF.LEN <- 0` (R30, R121): no entry is erased. -/
def Buffer.clear (b : Buffer) : Buffer := { b with len := 0 }

/-- The buffer as an operation on it goes along: `BUF.LEN`, and the entries appended since the operation began, newest
first. Every command and T_ENCODE is one atomic step (R40, R66), so what it appended is stored when it ends
(`Buffer.store`); `store_append` in Laws/Buffer.lean shows that this is R120's write of `BUF.E[BUF.LEN]`, append by append
(notes/assumptions/13.md). -/
structure Tail where
  len   : Fin (bufCap + 1)
  added : List Entry
deriving DecidableEq, Repr

/-- The buffer's tail when an operation begins. -/
def Buffer.tail (b : Buffer) : Tail := ⟨b.len, []⟩

/-- The buffer when an operation has ended at tail `t`: the new length, and the added entries at the indices from the old
length on. -/
def Buffer.store (b : Buffer) (t : Tail) : Buffer :=
  ⟨t.len, storeFrom b.cells b.len.val t.added.reverse⟩

/-- How an operation on the buffer ends: `done`, or stopped by `raise e` with every earlier write kept (R16, R272). -/
inductive Attempt where
  | done (t : Tail)
  | raised (e : Status) (t : Tail)
deriving DecidableEq, Repr

/-- The tail an attempt leaves. -/
def Attempt.tail : Attempt → Tail
  | .done t => t
  | .raised _ t => t

/-- The status an attempt answers with: `OK`, or what it raised. -/
def Attempt.status : Attempt → Status
  | .done _ => .ok
  | .raised e _ => e

/-- Go on with `k` unless a raise has ended the operation (R16). -/
def Attempt.andThen (a : Attempt) (k : Tail → Attempt) : Attempt :=
  match a with
  | .done t => k t
  | .raised e t => .raised e t

/-- `Append(m, s, d)` (R120), the only write to the buffer. The length never exceeds `BUF_CAP`, so the rule's test
`BUF.LEN == BUF_CAP` is "not below `BUF_CAP`" (notes/assumptions/12.md). -/
def append (m s d : Word) (t : Tail) : Attempt :=
  if d == 0 || ((m == 0) == (s == 0)) then .raised .invalidEntry t
  else if h : t.len.val < bufCap then .done ⟨⟨t.len.val + 1, Nat.succ_lt_succ h⟩, ⟨m, s, d⟩ :: t.added⟩
  else .raised .capacityExceeded t

/-! ### Outputs and errors of commands -/

/-- The state after an action that leaves the block at `b` and puts out `out`. -/
def State.emit (s : State) (b : Block) (out : List Output) : State :=
  { s with block := b, env := { s.env with log := s.env.log ++ out } }

/-- `respond(st, v)` (R16, R90): end a command with this response and no other effect. Every error of a command that changes
no state is this operation. -/
def State.respond (s : State) (st : Status) (v : Value) : State :=
  s.emit s.block [.response st v]

/-- Carry out `op` on the buffer and respond with its status; what `op` wrote before a raise stays (R272). -/
def State.runOnBuffer (s : State) (op : Tail → Attempt) : State :=
  s.emit { s.block with buf := s.block.buf.store (op s.block.buf.tail).tail }
    [.response (op s.block.buf.tail).status .none]

/-- The check every command starts with: `Busy`, with no effect, unless `CTRL.PHASE = IDLE` (R269, R271). -/
def whenIdle (s : State) (act : State → State) : Host.Outcome State Fault Refusal :=
  .next (if s.block.ctrl.phase = .idle then act s else s.respond .busy .none)

/-- The check of the five commands that need a configuration: `NotConfigured`, with no effect, while `CFG_VALID = 0`
(R267). -/
def whenConfigured (s : State) (act : State → State) : State :=
  if s.block.cfgValid then act s else s.respond .notConfigured .none

/-! ### Errors and the end of a transmission -/

/-- A failing phase: `CTRL.PEND <- e` and on to the release phase `p` (R36, R224 to R229). -/
def Block.failTo (b : Block) (e : Status) (p : Phase) : Block :=
  { b with ctrl := { b.ctrl with pend := e, phase := p } }

/-- `CTRL.PHASE <- p`. -/
def Block.goTo (b : Block) (p : Phase) : Block :=
  { b with ctrl := { b.ctrl with phase := p } }

/-- `Finish` (R233): back to IDLE, responding with `CTRL.PEND`. The buffer is not cleared. -/
def Block.finish (b : Block) : Block × List Output :=
  (b.goTo .idle, [.response b.ctrl.pend .none])

/-! ### Reset -/

/-- The request the block is waiting on in its phase (R223 to R232); none in IDLE, nor in T_ENCODE, which sends none
(R225). -/
def Block.pendingRequest (b : Block) : Option Request :=
  match b.ctrl.phase with
  | .idle    => none
  | .tInit   => some .initBackend
  | .tLine   => some (.configureLine b.cfg.lineId true)
  | .tEncode => none
  | .tClear  => some .clearStaged
  | .tStage  => some (.stage b.buf.entries)
  | .tCreate => some .createHandle
  | .tStart  => some (.start b.ctrl.handle)
  | .tPoll   => some (.isBusy b.ctrl.handle)
  | .tDelete => some (.deleteHandle b.ctrl.handle)
  | .tTerm   => some .terminate

/-- The reset event (R290, R291): every piece of the block's state takes its reset value, nothing is sent and nothing is
answered; a request the block was waiting on is recorded as abandoned (notes/assumptions/7.md). The open parameters
and the surroundings are no state of the block and stay. -/
def State.applyReset (s : State) : State :=
  s.emit Block.reset (s.block.pendingRequest.toList.map Output.abandoned)

/-- The surroundings with their next event taken. -/
def State.withInbox (s : State) (rest : List Event) : State :=
  { s with env := { s.env with inbox := rest } }

end Sys2Proof.Machine
end

