-- ==== Sys2Proof/Machine/Operands.lean ====
section
/-! DEFINITION. Operand computations: rounding (00_scope.md R17, 41_carrier_primitives.md R140 to R142), the line mask (R25), length
bounds (R9), the override mask of CONFIGURE (R88), the variant defaults (R160), and the bit width of the packer (R200). -/

namespace Sys2Proof.Machine

/-- `rhu(n, d)` (R17, R140): `n/d` rounded to the nearest natural, ties up. -/
def rhu (n d : Nat) : Nat := (2 * n + d) / (2 * d)

/-- `LINE_MASK = 1 << CFG.LINE_ID` (R25). -/
def Cfg.lineMask (c : Cfg) : Word := 1#32 <<< c.lineId.toNat

/-- The carrier's mark sub-pulse `on`, in µs (R141). -/
def Cfg.onTime (c : Cfg) : Nat := rhu (1000000 * c.dutyNum.toNat) (c.freq.toNat * c.dutyDen.toNat)

/-- The carrier's space sub-pulse `off`, in µs (R141). -/
def Cfg.offTime (c : Cfg) : Nat :=
  rhu (1000000 * (c.dutyDen.toNat - c.dutyNum.toNat)) (c.freq.toNat * c.dutyDen.toNat)

/-- `N(d)`, the number of carrier periods of a mark of `d` µs (R142). -/
def Cfg.periods (c : Cfg) (d : Word) : Nat := rhu (d.toNat * c.freq.toNat) 1000000

/-- Is a length beyond an open bound (R9)? Never, when the bound is "unbounded". -/
def exceeds (bound : Option Nat) (n : Nat) : Bool :=
  match bound with
  | none => false
  | some k => k < n

/-- Bit `k` of the override mask `OVR` (R88). -/
def ovrBit (a : ConfigArgs) (k : Nat) : Bool := a.ovr.getLsbD k

/-- `Defaults(v)` (R160), with the line id left at 0 for CONFIGURE to set. -/
def defaults : Variant → Cfg
  | .nec => ⟨.nec, 0, 38000, 33, 100, ⟨9000, 4500, 562, 1686, 562, 562, 562, 0⟩⟩
  | .rc5 => ⟨.rc5, 0, 36000, 33, 100, ⟨889, 889, 0, 0, 0, 0, 0, 0⟩⟩
  | .raw => ⟨.raw, 0, 36000, 33, 100, ⟨520, 520, 0, 0, 0, 0, 0, 0⟩⟩

/-- `c.DUR[k] <- D[k]` for every `k` with `OVR[2+k] = 1` (R88, R161). -/
def overrideDurs (a : ConfigArgs) (c : Durs) : Durs where
  d0 := if ovrBit a 2 then a.d.d0 else c.d0
  d1 := if ovrBit a 3 then a.d.d1 else c.d1
  d2 := if ovrBit a 4 then a.d.d2 else c.d2
  d3 := if ovrBit a 5 then a.d.d3 else c.d3
  d4 := if ovrBit a 6 then a.d.d4 else c.d4
  d5 := if ovrBit a 7 then a.d.d5 else c.d5
  d6 := if ovrBit a 8 then a.d.d6 else c.d6
  d7 := if ovrBit a 9 then a.d.d7 else c.d7

/-- `OVR[9:4] != 0`: the mask names a duration that RC5 and RAW lack (R88). -/
def ovrForeign (a : ConfigArgs) : Bool := a.ovr.extractLsb' 4 6 != 0

/-- The defaults of a variant with the overrides of the mask applied, on the given line (R161). -/
def overridden (v : Variant) (a : ConfigArgs) : Cfg where
  variant := v
  lineId  := a.lineId
  freq    := if ovrBit a 0 then a.freq else (defaults v).freq
  dutyNum := if ovrBit a 1 then a.dutyNum else (defaults v).dutyNum
  dutyDen := if ovrBit a 1 then a.dutyDen else (defaults v).dutyDen
  dur     := overrideDurs a (defaults v).dur

/-- The frequency and duty cycle CONFIGURE accepts: `FREQ >= 1` and `1 <= DUTY_NUM <= DUTY_DEN` (R26, R27, R161). -/
def Cfg.carrierLegal (c : Cfg) : Bool :=
  c.freq != 0 && c.dutyNum != 0 && decide (c.dutyNum.toNat ≤ c.dutyDen.toNat)

/-- `W(BWM)` (R200): how many of the masks 1, 2, 4, … lie below `BWM`; a 32-bit `BWM` leaves the exponents 0 to 31. -/
def bitsPerByte (bwm : Word) : Nat := (List.range 32).countP (fun k => 2 ^ k < bwm.toNat)

end Sys2Proof.Machine
end

