-- ==== Sys2Proof/Machine/Buffer.lean ====
section
/-! DEFINITION. The pulse buffer commands (40_pulse_buffer.md R121 to R124). -/

namespace Sys2Proof.Machine

/-- BUF_RESET (R121): `BUF.LEN <- 0`. -/
def execBufReset (s : State) : Host.Outcome State Fault Refusal :=
  whenIdle s fun s => s.emit { s.block with buf := s.block.buf.clear } [.response .ok .none]

/-- BUF_APPEND (R122): one `Append` of the operands. -/
def execBufAppend (mark space dur : Word) (s : State) : Host.Outcome State Fault Refusal :=
  whenIdle s fun s => s.runOnBuffer (append mark space dur)

/-- BUF_LEN (R123): answers `zext_32(BUF.LEN)`. -/
def execBufLen (s : State) : Host.Outcome State Fault Refusal :=
  whenIdle s fun s => s.respond .ok (.word (BitVec.ofNat 32 s.block.buf.len.val))

/-- BUF_READ (R124): answers `BUF.E[INDEX]`, or `InvalidArgument` when `INDEX >= BUF.LEN`. -/
def execBufRead (index : Word) (s : State) : Host.Outcome State Fault Refusal :=
  whenIdle s fun s =>
    if index.toNat < s.block.buf.len.val then s.respond .ok (.entry (s.block.buf.entry index.toNat))
    else s.respond .invalidArgument .none

end Sys2Proof.Machine
end

