-- ==== Sys2Proof/Machine/Carrier.lean ====
section
/-! DEFINITION. The carrier and space primitives and their commands (41_carrier_primitives.md R143 to R146). -/

namespace Sys2Proof.Machine

/-- `EmitSpace(d)` (R143): one space entry. -/
def emitSpace (c : Cfg) (d : Word) (t : Tail) : Attempt := append 0 c.lineMask d t

/-- Sub-pulse `i` of a burst (R144): a mark of `on` µs when `i` is even, a space of `off` µs when it is odd. -/
def subPulse (c : Cfg) (i : Nat) (t : Tail) : Attempt :=
  if i % 2 = 0 then append c.lineMask 0 (BitVec.ofNat 32 c.onTime) t
  else append 0 c.lineMask (BitVec.ofNat 32 c.offTime) t

/-- The sub-pulses `i`, `i + 1`, … of a burst, `k` of them, up to the first raise (R144). -/
def subPulses (c : Cfg) : Nat → Nat → Tail → Attempt
  | 0, _, t => .done t
  | k + 1, i, t => (subPulse c i t).andThen (subPulses c k (i + 1))

/-- `EmitMark(d)` (R144): a burst of `2*N(d)` sub-pulses. -/
def emitMark (c : Cfg) (d : Word) (t : Tail) : Attempt := subPulses c (2 * c.periods d) 0 t

/-- EMIT_SPACE (R145). -/
def execEmitSpace (dur : Word) (s : State) : Host.Outcome State Fault Refusal :=
  whenIdle s fun s => whenConfigured s fun s => s.runOnBuffer (emitSpace s.block.cfg dur)

/-- EMIT_MARK (R146). -/
def execEmitMark (dur : Word) (s : State) : Host.Outcome State Fault Refusal :=
  whenIdle s fun s => whenConfigured s fun s => s.runOnBuffer (emitMark s.block.cfg dur)

end Sys2Proof.Machine
end

