-- ==== Sys2Proof/Machine/Encoder.lean ====
section
/-! DEFINITION. The protocol encoders (42_protocol_encoders.md): CONFIGURE (R161), the token loop and its three variants (R163 to
R166), ENCODE (R167). -/

namespace Sys2Proof.Machine

/-- The configuration a CONFIGURE record asks for, or `none` where R161 answers `ConfigError`: the reserved variant, an
override of a duration the variant lacks, frequency 0, a duty cycle outside (0, 1]. -/
def configured (a : ConfigArgs) : Option Cfg :=
  match Variant.ofCode a.variant with
  | none => none
  | some v =>
    if v ≠ .nec ∧ ovrForeign a then none
    else if (overridden v a).carrierLegal then some (overridden v a) else none

/-- CONFIGURE (R161): one atomic write of the whole set, or `ConfigError` with nothing changed. -/
def execConfigure (a : ConfigArgs) (s : State) : Host.Outcome State Fault Refusal :=
  whenIdle s fun s =>
    match configured a with
    | none => s.respond .configError .none
    | some c => s.emit { s.block with cfg := c, cfgValid := true } [.response .ok .none]

/-- The token loop of the encoders: `one` for a One, `zero` for a Zero, `InvalidBitError` at the first Invalid token
reached; no token is looked at before its turn (R162, R164 to R166). -/
def encodeTokens (one zero : Tail → Attempt) : List Token → Tail → Attempt
  | [], t => .done t
  | x :: xs, t =>
    match cls x with
    | .one     => (one t).andThen (encodeTokens one zero xs)
    | .zero    => (zero t).andThen (encodeTokens one zero xs)
    | .invalid => .raised .invalidBitError t

/-- `EmitMark(m); EmitSpace(s)`. -/
def markThenSpace (c : Cfg) (m s : Word) (t : Tail) : Attempt := (emitMark c m t).andThen (emitSpace c s)

/-- `EmitSpace(s); EmitMark(m)`. -/
def spaceThenMark (c : Cfg) (s m : Word) (t : Tail) : Attempt := (emitSpace c s t).andThen (emitMark c m)

/-- Step 1 of the NEC encoder (R164): the AGC burst, unless both its durations are 0. -/
def necLeader (c : Cfg) (t : Tail) : Attempt :=
  if c.dur.d0 ≠ 0 ∨ c.dur.d1 ≠ 0 then markThenSpace c c.dur.d0 c.dur.d1 t else .done t

/-- The trailing space of step 3 (R164): none when its duration is 0. -/
def necTrailingSpace (c : Cfg) (t : Tail) : Attempt :=
  if c.dur.d7 ≠ 0 then emitSpace c c.dur.d7 t else .done t

/-- Step 3 of the NEC encoder (R164): the trailing mark and its space; nothing when the mark's duration is 0. -/
def necTrailer (c : Cfg) (t : Tail) : Attempt :=
  if c.dur.d6 ≠ 0 then (emitMark c c.dur.d6 t).andThen (necTrailingSpace c) else .done t

/-- Step 2 of the NEC encoder (R164). -/
def necTokens (c : Cfg) : List Token → Tail → Attempt :=
  encodeTokens (markThenSpace c c.dur.d2 c.dur.d3) (markThenSpace c c.dur.d4 c.dur.d5)

/-- `EncodeNEC(T)` (R164). -/
def encodeNec (c : Cfg) (ts : List Token) (t : Tail) : Attempt :=
  ((necLeader c t).andThen (necTokens c ts)).andThen (necTrailer c)

/-- `EncodeRC5(T)` (R165). -/
def encodeRc5 (c : Cfg) (ts : List Token) (t : Tail) : Attempt :=
  encodeTokens (spaceThenMark c c.dur.d0 c.dur.d0) (markThenSpace c c.dur.d1 c.dur.d1) ts t

/-- `EncodeRAW(T)` (R166). -/
def encodeRaw (c : Cfg) (ts : List Token) (t : Tail) : Attempt :=
  encodeTokens (emitMark c c.dur.d0) (emitSpace c c.dur.d1) ts t

/-- `EncodeBody(T)` (R163): the one encode operation, dispatched on `CFG.VARIANT`; it appends to the buffer as it
stands. -/
def encodeBody (c : Cfg) (ts : List Token) (t : Tail) : Attempt :=
  match c.variant with
  | .nec => encodeNec c ts t
  | .rc5 => encodeRc5 c ts t
  | .raw => encodeRaw c ts t

/-- ENCODE (R167). -/
def execEncode (toks : List Token) (s : State) : Host.Outcome State Fault Refusal :=
  whenIdle s fun s => whenConfigured s fun s =>
    if exceeds s.params.maxTokens toks.length then s.respond .invalidArgument .none
    else s.runOnBuffer (encodeBody s.block.cfg toks)

end Sys2Proof.Machine
end

