-- ==== Sys2Proof/Machine/Packer.lean ====
section
/-! DEFINITION. The bit packer (43_bit_packer.md R200 to R206) and its command PACK. -/

namespace Sys2Proof.Machine

/-- The token of byte `b` under `mask` (R201): 0x31 when `b AND mask` is not 0, else 0x30. -/
def packToken (b : Byte) (mask : Nat) : Token := if b.toNat &&& mask ≠ 0 then 0x31 else 0x30

/-- The inner loop of R202: while `mask < BWM`, put the token at the end (`INV = 1`) or at the front (`INV = 0`) of the
accumulated sequence and double the mask. The masks below a 32-bit `BWM` number at most 32, the first argument's
start. -/
def packByte (bwm : Word) (inv : Bool) (b : Byte) : Nat → Nat → List Token → List Token
  | 0, _, acc => acc
  | n + 1, mask, acc =>
    if mask < bwm.toNat then
      packByte bwm inv b n (2 * mask) (if inv then acc ++ [packToken b mask] else packToken b mask :: acc)
    else acc

/-- `PackBody(DATA, BWM, INV)` (R202): bytes visited first to last when `INV = 1`, last to first when `INV = 0`. -/
def packBody (data : List Byte) (bwm : Word) (inv : Bool) : List Token :=
  (if inv then data else data.reverse).foldl (fun acc b => packByte bwm inv b 32 1 acc) []

/-- The bounds of the packer (R206, R234): the payload beyond `MAX_DATA_BYTES`, or its tokens beyond `MAX_TOKENS`. -/
def packTooLong (p : Params) (data : List Byte) (bwm : Word) : Bool :=
  exceeds p.maxDataBytes data.length || exceeds p.maxTokens (data.length * bitsPerByte bwm)

/-- PACK (R206): answers the tokens; no state is written. -/
def execPack (data : List Byte) (bwm : Word) (inv : Bool) (s : State) : Host.Outcome State Fault Refusal :=
  whenIdle s fun s =>
    if packTooLong s.params data bwm then s.respond .invalidArgument .none
    else s.respond .ok (.tokens (packBody data bwm inv))

end Sys2Proof.Machine
end

