-- ==== Sys2Proof/Machine/Transmission.lean ====
section
/-! DEFINITION. The transmission controller (44_transmission.md): TRANSMIT and TRANSMIT_BYTES up to their acceptance (R222, R234), and
one definition per controller phase (R223 to R232). A phase consumes one draw of the backend (R221). -/

namespace Sys2Proof.Machine

/-- The acceptance step's writes (R222, R234): clear the buffer, latch the arguments, `PEND <- OK`, `PHASE <- T_INIT`. -/
def Block.accept (b : Block) (toks : List Token) (rep : Word) : Block :=
  { b with
    buf := b.buf.clear
    ctrl := { b.ctrl with tokens := toks, repeatCount := rep, pend := .ok, phase := .tInit } }

/-- TRANSMIT (R222), up to its acceptance; the response is given by `Finish`. -/
def execTransmit (toks : List Token) (rep : Word) (s : State) : Host.Outcome State Fault Refusal :=
  whenIdle s fun s => whenConfigured s fun s =>
    if rep = 0 ∨ exceeds s.params.maxTokens toks.length then s.respond .invalidArgument .none
    else s.emit (s.block.accept toks rep) []

/-- TRANSMIT_BYTES (R234), up to its acceptance: pack, then as TRANSMIT. -/
def execTransmitBytes (data : List Byte) (bwm : Word) (inv : Bool) (rep : Word) (s : State) :
    Host.Outcome State Fault Refusal :=
  whenIdle s fun s => whenConfigured s fun s =>
    if rep = 0 ∨ packTooLong s.params data bwm then s.respond .invalidArgument .none
    else s.emit (s.block.accept (packBody data bwm inv) rep) []

/-! ### The phases -/

/-- `Ok` or `Err`, as drawn. -/
def Draw.result (d : Draw) : Answer := if d.ok then .ok else .err

/-- T_INIT (R223): `initialize`; an `Err` finishes with `BackendInitError` and nothing to release. -/
def phaseInit (d : Draw) (b : Block) : Block × List Output :=
  if d.ok then ({ b with ctrl := { b.ctrl with session := true, phase := .tLine } }, [.call .initBackend .ok])
  else
    ((b.failTo .backendInitError .tInit).finish.1,
      .call .initBackend .err :: (b.failTo .backendInitError .tInit).finish.2)

/-- T_LINE (R224): `configureLine(CFG.LINE_ID, true)`. -/
def phaseLine (d : Draw) (b : Block) : Block × List Output :=
  (if d.ok then b.goTo .tEncode else b.failTo .backendInitError .tTerm,
    [.call (.configureLine b.cfg.lineId true) d.result])

/-- The repeats of T_ENCODE (R225): `k` times `EncodeBody`, against the same buffer, up to the first raise. -/
def encodeRepeats (c : Cfg) (toks : List Token) : Nat → Tail → Attempt
  | 0, t => .done t
  | k + 1, t => (encodeBody c toks t).andThen (encodeRepeats c toks k)

/-- What T_ENCODE's loop comes to from the block's registers (R225). -/
def Block.encodeAll (b : Block) : Attempt :=
  encodeRepeats b.cfg b.ctrl.tokens b.ctrl.repeatCount.toNat b.buf.tail

/-- T_ENCODE (R225): internal, one atomic step; an encode error goes to the release, not to the hand-off. -/
def phaseEncode (b : Block) : Block :=
  match b.encodeAll with
  | .done t => { b with buf := b.buf.store t }.goTo .tClear
  | .raised e t => { b with buf := b.buf.store t }.failTo e .tTerm

/-- T_CLEAR (R226): `clearStaged`. -/
def phaseClear (d : Draw) (b : Block) : Block × List Output :=
  (if d.ok then b.goTo .tStage else b.failTo .backendTransmitError .tTerm, [.call .clearStaged d.result])

/-- T_STAGE (R227): `stage` of the entries in index order; the count it answers is not compared with anything. -/
def phaseStage (d : Draw) (b : Block) : Block × List Output :=
  (if d.ok then b.goTo .tCreate else b.failTo .backendTransmitError .tTerm,
    [.call (.stage b.buf.entries) (if d.ok then .okCount d.count else .err)])

/-- T_CREATE (R228): `createHandle`; there is no handle to delete on `Err`. -/
def phaseCreate (d : Draw) (b : Block) : Block × List Output :=
  (if d.ok then { b with ctrl := { b.ctrl with handle := d.handle, handleHeld := true, phase := .tStart } }
    else b.failTo .backendTransmitError .tTerm,
    [.call .createHandle (if d.ok then .okHandle d.handle else .err)])

/-- T_START (R229): `start`; on `Err` the handle is still released. -/
def phaseStart (d : Draw) (b : Block) : Block × List Output :=
  (if d.ok then b.goTo .tPoll else b.failTo .backendTransmitError .tDelete,
    [.call (.start b.ctrl.handle) d.result])

/-- T_POLL (R230): `isBusy`; poll again while the backend is busy, without bound (R236). -/
def phasePoll (d : Draw) (b : Block) : Block × List Output :=
  (if d.busy then b.goTo .tPoll else b.goTo .tDelete, [.call (.isBusy b.ctrl.handle) (.busy d.busy)])

/-- T_DELETE (R231): `deleteHandle`, which cannot fail. -/
def phaseDelete (b : Block) : Block × List Output :=
  ({ b with ctrl := { b.ctrl with handleHeld := false, phase := .tTerm } },
    [.call (.deleteHandle b.ctrl.handle) .done])

/-- T_TERM (R232): `terminate`, which cannot fail, and `Finish`. -/
def phaseTerm (b : Block) : Block × List Output :=
  (({ b with ctrl := { b.ctrl with session := false } } : Block).finish.1,
    .call .terminate .done :: ({ b with ctrl := { b.ctrl with session := false } } : Block).finish.2)

/-- The block's step on a draw of the backend, by phase. In IDLE no request is pending and the draw is ignored (R291);
T_ENCODE needs no draw. -/
def phaseStep (d : Draw) (b : Block) : Block × List Output :=
  match b.ctrl.phase with
  | .idle    => (b, [])
  | .tInit   => phaseInit d b
  | .tLine   => phaseLine d b
  | .tEncode => (phaseEncode b, [])
  | .tClear  => phaseClear d b
  | .tStage  => phaseStage d b
  | .tCreate => phaseCreate d b
  | .tStart  => phaseStart d b
  | .tPoll   => phasePoll d b
  | .tDelete => phaseDelete b
  | .tTerm   => phaseTerm b

end Sys2Proof.Machine
end

