-- ==== Sys2Proof/Machine/Dispatch.lean ====
section
/-! DEFINITION. One arm per instruction, each one call of its meaning. -/

namespace Sys2Proof.Machine

def exec (i : Instr) (s : State) : Host.Outcome State Fault Refusal :=
  match i with
  | .bufReset => Sys2Proof.Machine.execBufReset s
  | .bufAppend mark space dur => Sys2Proof.Machine.execBufAppend mark space dur s
  | .bufLen => Sys2Proof.Machine.execBufLen s
  | .bufRead index => Sys2Proof.Machine.execBufRead index s
  | .emitSpace dur => Sys2Proof.Machine.execEmitSpace dur s
  | .emitMark dur => Sys2Proof.Machine.execEmitMark dur s
  | .configure a => Sys2Proof.Machine.execConfigure a s
  | .encode toks => Sys2Proof.Machine.execEncode toks s
  | .pack data bwm inv => Sys2Proof.Machine.execPack data bwm inv s
  | .transmit toks rep => Sys2Proof.Machine.execTransmit toks rep s
  | .transmitBytes data bwm inv rep => Sys2Proof.Machine.execTransmitBytes data bwm inv rep s

end Sys2Proof.Machine
end

