-- ==== Sys2Proof/Machine/Events.lean ====
section
/-! DEFINITION. How the block takes its next event: it serves a command (30_encoding.md R81, 60_exceptions.md R270), takes a reset
(R290), a backend answer (R221), or its own internal step (R225). -/

namespace Sys2Proof.Machine

/-- Serve one command: decode it and carry it out; an illegal one is answered `IllegalCommand`, in every phase and with no
state change (R92, R270, R271). -/
def serveCommand (c : Command) (s : State) : Host.Outcome State Fault Refusal :=
  match decode c with
  | .ok i => exec i s
  | .error _ => .next (s.respond .illegalCommand .none)

/-- The internal step T_ENCODE (R225). -/
def State.encodeStep (s : State) : State := s.emit (phaseEncode s.block) []

/-- The step that consumes a backend draw (R221). -/
def State.answerStep (d : Draw) (s : State) : State :=
  s.emit (phaseStep d s.block).1 (phaseStep d s.block).2

/-- Nothing arrives any more: T_ENCODE is enabled all the same (R225); a pending request is answered by the backend's
standing draw, if there is one; otherwise the block waits as it is (R221, R292; notes/assumptions/4.md, 6.md). -/
def State.quietStep (s : State) : State :=
  if s.block.ctrl.phase = .tEncode then s.encodeStep
  else
    match s.env.standing with
    | some d => s.answerStep d
    | none => s

/-- The next event (notes/assumptions/1.md, 5.md). An answer that stands first while the block is in T_ENCODE belongs to the request after it, so
the internal step comes first; an answer to an abandoned request is ignored (R291). -/
def nextEvent (s : State) : Host.Outcome State Fault Refusal :=
  match s.env.inbox with
  | [] => .next s.quietStep
  | .command c :: rest => serveCommand c (s.withInbox rest)
  | .reset :: rest => .next (s.withInbox rest).applyReset
  | .answer d :: rest =>
    .next (if s.block.ctrl.phase = .tEncode then s.encodeStep else (s.withInbox rest).answerStep d)
  | .lateAnswer _ :: rest => .next (s.withInbox rest)
  | .turn :: rest =>
    .next (if s.block.ctrl.phase = .tEncode then (s.withInbox rest).encodeStep else s.withInbox rest)

/-- The state with a command put first among the events. -/
def State.offer (s : State) (c : Command) : State := s.withInbox (.command c :: s.env.inbox)

end Sys2Proof.Machine
end

