-- ==== Sys2Proof/Machine/Step.lean ====
section
/-! DEFINITION. One step of the machine, and where it takes its next instruction from. -/

namespace Sys2Proof.Machine

/-- One step: the next event is taken (`nextEvent`). The block has no program counter (10_state.md R21); a command is the next
instruction when it stands first in `env.inbox`. -/
def step (s : State) : Host.Outcome State Fault Refusal := nextEvent s

/-- `s` with the command whose table bits are `w` placed where the next step takes it: first in `env.inbox`. It stands for
the host sending that command (notes/assumptions/1.md). -/
def State.withFetchWord (s : State) (_nbits w : Nat) : State := s.offer (tableCommand w)

end Sys2Proof.Machine
end

