-- ==== Sys2Proof/Machine/Assembler.lean ====
section
/-! DEFINITION. The assembler's syntax (30_encoding.md R85, R95): one line of text to the command it writes. It is notation for
commands and no part of the block: no step uses it. What the spec leaves open of it is in notes/assumptions/18.md. -/

namespace Sys2Proof.Machine

/-! ### Lexemes -/

/-- The pieces of a line: a name or a number, a quoted token sequence, and the punctuation of R95. -/
inductive Lexeme where
  | word (cs : List Char)
  | quoted (ts : List Token)
  | comma
  | openList
  | closeList
  | equals
  | slash
deriving DecidableEq, Repr

/-- Where the scan of a line stands. Inside quotation marks, an escape `\xHH` is read in three steps (R85). -/
inductive Scan where
  | between
  | inWord (rev : List Char)
  | inQuotes (rev : List Token)
  | afterBackslash (rev : List Token)
  | afterX (rev : List Token)
  | afterHigh (rev : List Token) (hi : Nat)
deriving DecidableEq, Repr

/-- The value of a hexadecimal digit, either case. -/
def hexDigit (c : Char) : Option Nat :=
  if 48 ≤ c.toNat ∧ c.toNat ≤ 57 then some (c.toNat - 48)
  else if 65 ≤ c.toNat ∧ c.toNat ≤ 70 then some (c.toNat - 55)
  else if 97 ≤ c.toNat ∧ c.toNat ≤ 102 then some (c.toNat - 87)
  else none

/-- The value of a decimal digit. -/
def decDigit (c : Char) : Option Nat :=
  if 48 ≤ c.toNat ∧ c.toNat ≤ 57 then some (c.toNat - 48) else none

/-- Letters, digits and the underscore make up names and numbers. -/
def isWordChar (c : Char) : Bool := c.isAlphanum || c == '_'

/-- The character of code 34, the quotation mark, and of code 92, the backslash. -/
def quoteMark : Char := Char.ofNat 34
def backslash : Char := Char.ofNat 92

/-- What a character does outside words and quotation marks: end the line (a comment), or emit lexemes and go on. -/
inductive Move where
  | stop
  | go (emit : List Lexeme) (next : Scan)

/-- The move of a character that starts something new; `none` for a character the syntax does not have. -/
def startMove (c : Char) : Option Move :=
  if c = ';' then some .stop
  else if c = ' ' ∨ c.toNat = 9 then some (.go [] .between)
  else if c = quoteMark then some (.go [] (.inQuotes []))
  else if c = ',' then some (.go [.comma] .between)
  else if c = '[' then some (.go [.openList] .between)
  else if c = ']' then some (.go [.closeList] .between)
  else if c = '=' then some (.go [.equals] .between)
  else if c = '/' then some (.go [.slash] .between)
  else if isWordChar c then some (.go [] (.inWord [c]))
  else none

/-- Put lexemes in front of the lexemes that follow, if those could be read. -/
def withFront (front : List Lexeme) (rest : Option (List Lexeme)) : Option (List Lexeme) := rest.map (front ++ ·)

/-- The lexemes of a line from a scan position on. A comment starts with `;` and runs to the end of the line (R95). Inside
quotation marks each character but the quotation mark and the backslash is one token of its code, and `\xHH` writes the code
0xHH (R85). R85 gives a backslash no other use: one that `x` and two hexadecimal digits do not follow makes the line assemble to
nothing (DESIGN CHOICE, notes/assumptions/18.md). -/
def lexemes : Scan → List Char → Option (List Lexeme)
  | .between, [] => some []
  | .inWord acc, [] => some [.word acc.reverse]
  | .inQuotes _, [] => none
  | .afterBackslash _, [] => none
  | .afterX _, [] => none
  | .afterHigh _ _, [] => none
  | .between, c :: cs =>
    match startMove c with
    | none => none
    | some .stop => some []
    | some (.go es s) => withFront es (lexemes s cs)
  | .inWord acc, c :: cs =>
    if isWordChar c then lexemes (.inWord (c :: acc)) cs
    else
      match startMove c with
      | none => none
      | some .stop => some [.word acc.reverse]
      | some (.go es s) => withFront (.word acc.reverse :: es) (lexemes s cs)
  | .inQuotes acc, c :: cs =>
    if c = quoteMark then withFront [.quoted acc.reverse] (lexemes .between cs)
    else if c = backslash then lexemes (.afterBackslash acc) cs
    else if c.toNat < 256 then lexemes (.inQuotes (BitVec.ofNat 8 c.toNat :: acc)) cs
    else none
  | .afterBackslash acc, c :: cs => if c = 'x' then lexemes (.afterX acc) cs else none
  | .afterX acc, c :: cs =>
    match hexDigit c with
    | some h => lexemes (.afterHigh acc h) cs
    | none => none
  | .afterHigh acc h, c :: cs =>
    match hexDigit c with
    | some l => lexemes (.inQuotes (BitVec.ofNat 8 (16 * h + l) :: acc)) cs
    | none => none

/-! ### Operands -/

/-- The digits of a number in a base, most significant first. -/
def digits (base : Nat) (digit : Char → Option Nat) : Nat → List Char → Option Nat
  | acc, [] => some acc
  | acc, c :: cs =>
    match digit c with
    | some d => digits base digit (base * acc + d) cs
    | none => none

/-- A number: decimal, or hexadecimal with `0x` (R95). -/
def number (cs : List Char) : Option Nat :=
  match cs with
  | [] => none
  | ['0', 'x'] => none
  | '0' :: 'x' :: hs => digits 16 hexDigit 0 hs
  | ds => digits 10 decDigit 0 ds

/-- A number that fits its field (R83): every field is an unsigned natural of the stated width. -/
def field (w : Nat) (cs : List Char) : Option (BitVec w) :=
  match number cs with
  | some n => if n < 2 ^ w then some (BitVec.ofNat w n) else none
  | none => none

/-- The bytes of a list after its first, up to the closing bracket, and the lexemes after it. -/
def bytesTail : List Lexeme → Option (List Byte × List Lexeme)
  | .closeList :: rest => some ([], rest)
  | .comma :: .word b :: rest => do
    let x ← field 8 b
    let (xs, after) ← bytesTail rest
    return (x :: xs, after)
  | _ => none

/-- A byte list `[<b0>, <b1>, ...]`, which may be empty, and the lexemes after it. -/
def byteList : List Lexeme → Option (List Byte × List Lexeme)
  | .openList :: .closeList :: rest => some ([], rest)
  | .openList :: .word b :: rest => do
    let x ← field 8 b
    let (xs, after) ← bytesTail rest
    return (x :: xs, after)
  | _ => none

/-- The variant's name on a CONFIGURE line. -/
def variantNamed (n : List Char) : Option Variant :=
  if n = "NEC".toList then some .nec
  else if n = "RC5".toList then some .rc5
  else if n = "RAW".toList then some .raw
  else none

/-- The index in `CFG.DUR` of a `<DURNAME>` under a variant (R28, R95); a name the variant lacks has none. -/
def durNamed (v : Variant) (n : List Char) : Option (Fin 8) :=
  match v with
  | .nec =>
    if n = "LEADING_MARK".toList then some 0
    else if n = "LEADING_SPACE".toList then some 1
    else if n = "ONE_MARK".toList then some 2
    else if n = "ONE_SPACE".toList then some 3
    else if n = "ZERO_MARK".toList then some 4
    else if n = "ZERO_SPACE".toList then some 5
    else if n = "TRAILING_MARK".toList then some 6
    else if n = "TRAILING_SPACE".toList then some 7
    else none
  | .rc5 | .raw =>
    if n = "ONE_DURATION".toList then some 0
    else if n = "ZERO_DURATION".toList then some 1
    else none

/-- The optional operands of a CONFIGURE line (R95), to the end of the line. R95 writes them in the order FREQ, DUTY,
DURNAMEs and does not say whether another order may stand: any order is accepted (DESIGN CHOICE, notes/assumptions/18.md). -/
def configOperands (v : Variant) : List Lexeme → Option (List ConfigOperand)
  | [] => some []
  | .comma :: .word n :: .equals :: .word x :: .slash :: .word y :: rest =>
    if n = "DUTY".toList then do
      let num ← field 16 x
      let den ← field 16 y
      let ops ← configOperands v rest
      return .duty num den :: ops
    else none
  | .comma :: .word n :: .equals :: .word x :: rest => do
    let val ← field 32 x
    let ops ← configOperands v rest
    if n = "FREQ".toList then return .freq val :: ops
    else
      let k ← durNamed v n
      return .dur k val :: ops
  | _ => none

/-! ### Lines -/

/-- The operands of a mnemonic (R95). -/
def operandsOf (o : Opcode) (ls : List Lexeme) : Option Instr :=
  match o, ls with
  | .bufReset, [] => some .bufReset
  | .bufAppend, [.word m, .comma, .word s, .comma, .word d] => do
    return .bufAppend (← field 32 m) (← field 32 s) (← field 32 d)
  | .bufLen, [] => some .bufLen
  | .bufRead, [.word k] => do return .bufRead (← field 32 k)
  | .emitSpace, [.word d] => do return .emitSpace (← field 32 d)
  | .emitMark, [.word d] => do return .emitMark (← field 32 d)
  | .configure, .word v :: .comma :: .word l :: rest => do
    let var ← variantNamed v
    return assembleConfigure var.code (← field 5 l) (← configOperands var rest)
  | .encode, [.quoted ts] => some (.encode ts)
  | .pack, ls => do
    match ← byteList ls with
    | (bs, [.comma, .word w, .comma, .word v]) => return .pack bs (← field 32 w) ((← field 1 v) == 1)
    | _ => none
  | .transmit, [.quoted ts, .comma, .word r] => do return .transmit ts (← field 32 r)
  | .transmitBytes, ls => do
    match ← byteList ls with
    | (bs, [.comma, .word w, .comma, .word v, .comma, .word r]) =>
      return .transmitBytes bs (← field 32 w) ((← field 1 v) == 1) (← field 32 r)
    | _ => none
  | _, _ => none

/-- The opcode of a mnemonic (R82). -/
def opcodeNamed (n : List Char) : Option Opcode :=
  if n = "BUF_RESET".toList then some .bufReset
  else if n = "BUF_APPEND".toList then some .bufAppend
  else if n = "BUF_LEN".toList then some .bufLen
  else if n = "BUF_READ".toList then some .bufRead
  else if n = "EMIT_SPACE".toList then some .emitSpace
  else if n = "EMIT_MARK".toList then some .emitMark
  else if n = "CONFIGURE".toList then some .configure
  else if n = "ENCODE".toList then some .encode
  else if n = "PACK".toList then some .pack
  else if n = "TRANSMIT".toList then some .transmit
  else if n = "TRANSMIT_BYTES".toList then some .transmitBytes
  else none

/-- The command a line writes (R95): the mnemonic, then its operands. `none` where the line is not one command. -/
def assembleLine (line : String) : Option Instr :=
  match lexemes .between line.toList with
  | some (.word m :: rest) => (opcodeNamed m).bind fun o => operandsOf o rest
  | _ => none

end Sys2Proof.Machine
end

