-- ==== Sys2Proof/WellFormed.lean ====
section
/-! DEFINITION. Well-formed commands: what the assembler and the encoder write (30_encoding.md R81, R82, R83, R95). The decoder
looks at no field the opcode does not select, so a command outside this set still decodes (or is illegal) by R81; the
well-formed ones are those for which encoding is the inverse of decoding. Operand widths are kept by the types. -/

namespace Sys2Proof

/-- `RSV = 0` (R81). -/
def Command.rsvOk (c : Command) : Bool := rsvField c.word == 0

/-- `OPC` is in R82's table. -/
def Command.opcOk (c : Command) : Bool := (Opcode.ofCode (opcField c.word)).isSome

/-- The fields the opcode does not select are 0 or empty. -/
def Command.argsOk (c : Command) : Bool :=
  match Opcode.ofCode (opcField c.word) with
  | some o => (instrOf o c.args).args == c.args
  | none   => false

/-- A well-formed command. -/
def Command.wf (c : Command) : Bool := c.rsvOk && c.opcOk && c.argsOk

end Sys2Proof
end

