-- ==== Sys2Proof/Safety.lean ====
section
/-! DEFINITION. The terms claims are stated in: what a step leaves in the buffer, the waveform a token sequence asks for, the
invariant of the block, what an observer can tell apart, and the backend's ledger. Nothing here is part of the
machine. -/

namespace Sys2Proof.Machine

/-! ### Situations -/

/-- The block is in IDLE: a legal command is carried out (R271). -/
abbrev State.isIdle (s : State) : Prop := s.block.ctrl.phase = .idle

/-- The block is in IDLE and configured (R23). -/
abbrev State.isReady (s : State) : Prop := s.isIdle ∧ s.block.cfgValid = true

/-- The state after a command that leaves the buffer at `b`, changes no other state of the block, and responds. -/
def State.withBuffer (s : State) (b : Buffer) (st : Status) : State :=
  s.emit { s.block with buf := b } [.response st .none]

/-- `b'` is `b` with exactly the entries `es` appended: the length grew by their number, they stand at the indices from the
old length on, and EVERY other index reads as before. -/
def Appended (b b' : Buffer) (es : List Entry) : Prop :=
  b'.len.val = b.len.val + es.length ∧
  (∀ k, ∀ h : k < es.length, b'.entry (b.len.val + k) = es[k]) ∧
  ∀ i, i < b.len.val ∨ b.len.val + es.length ≤ i → b'.entry i = b.entry i

/-- An entry `Append` accepts: a duration of at least 1 and exactly one mask not 0 (R32, R120). -/
abbrev Entry.valid (e : Entry) : Prop := e.dur ≠ 0 ∧ ((e.mark ≠ 0 ∧ e.space = 0) ∨ (e.mark = 0 ∧ e.space ≠ 0))

/-- The sum of the durations of a list of entries, in µs: its realized duration (R147). -/
def realized (es : List Entry) : Nat := (es.map fun e => e.dur.toNat).sum

/-- Carry out commands one after another, as long as each answers a next state. -/
def execAll : List Instr → State → Host.Outcome State Fault Refusal
  | [], s => .next s
  | i :: is, s =>
    match exec i s with
    | .next t => execAll is t
    | .fault r => .fault r
    | .refused r => .refused r

/-- `n` steps, stopping at the first fault or refusal. -/
def runSteps : Nat → State → Host.Outcome State Fault Refusal
  | 0, s => .next s
  | n + 1, s =>
    match step s with
    | .next t => runSteps n t
    | .fault r => .fault r
    | .refused r => .refused r

/-- The block runs its internal step next: it is in T_ENCODE, and no command, reset or late answer stands before it. -/
def State.encodesNext (s : State) : Prop :=
  s.block.ctrl.phase = .tEncode ∧ (s.env.inbox = [] ∨ (∃ d rest, s.env.inbox = .answer d :: rest) ∨
    ∃ rest, s.env.inbox = .turn :: rest)

/-- The step is T_ENCODE stopped by the error `e` with the entries `es` appended (R225): `PEND` is `e`, the phase T_TERM, nothing
is sent, nothing else of the block changes, and `CapacityExceeded` leaves the buffer full. -/
def State.encodeAborts (s : State) (e : Status) (es : List Entry) : Prop :=
  ∃ b t, step s = .next t ∧ t.env.log = s.env.log ∧
    t.block = { s.block with buf := b, ctrl := { s.block.ctrl with pend := e, phase := .tTerm } } ∧
    Appended s.block.buf b es ∧ (e = .capacityExceeded → b.len.val = 12000)

/-! ### Waveforms -/

/-- A mark entry and a space entry on the configured line (R86). -/
def Cfg.markEntry (c : Cfg) (d : Word) : Entry := ⟨c.lineMask, 0, d⟩
def Cfg.spaceEntry (c : Cfg) (d : Word) : Entry := ⟨0, c.lineMask, d⟩

/-- One carrier period: a mark of `on` µs, then a space of `off` µs (R144). -/
def Cfg.period (c : Cfg) : List Entry :=
  [c.markEntry (BitVec.ofNat 32 c.onTime), c.spaceEntry (BitVec.ofNat 32 c.offTime)]

/-- `n` carrier periods. -/
def Cfg.burst (c : Cfg) (n : Nat) : List Entry := (List.replicate n c.period).flatten

/-- One primitive call of a variant rule, as its EMIT command (R97). -/
inductive Prim where
  | mark (d : Word)
  | space (d : Word)
deriving DecidableEq, Repr

/-- The EMIT command of a primitive. -/
def Prim.instr : Prim → Instr
  | .mark d  => .emitMark d
  | .space d => .emitSpace d

/-- The entries a primitive asks for (R143, R144). -/
def Prim.entries (c : Cfg) : Prim → List Entry
  | .mark d  => c.burst (c.periods d)
  | .space d => [c.spaceEntry d]

/-- A primitive asks for no entry of 0 µs: a space is not 0, and a mark of at least one period has both its sub-pulses at
least 1 µs (R143, R144). -/
def Prim.emittable (c : Cfg) : Prim → Prop
  | .mark d  => c.periods d = 0 ∨ (1 ≤ c.onTime ∧ 1 ≤ c.offTime)
  | .space d => d ≠ 0

/-- Every token is `0` or `1` (R84). -/
abbrev validTokens (ts : List Token) : Prop := ∀ t ∈ ts, t = 0x30 ∨ t = 0x31

/-- The primitives of one valid token (R164 to R166); 0x31 is a One, any other counted as a Zero. -/
def tokenPrims (c : Cfg) (t : Token) : List Prim :=
  match c.variant with
  | .nec => if t = 0x31 then [.mark c.dur.d2, .space c.dur.d3] else [.mark c.dur.d4, .space c.dur.d5]
  | .rc5 => if t = 0x31 then [.space c.dur.d0, .mark c.dur.d0] else [.mark c.dur.d1, .space c.dur.d1]
  | .raw => if t = 0x31 then [.mark c.dur.d0] else [.space c.dur.d1]

/-- The primitives before the tokens: NEC's AGC burst (R164 step 1); none under RC5 and RAW. -/
def leaderPrims (c : Cfg) : List Prim :=
  if c.variant = .nec ∧ (c.dur.d0 ≠ 0 ∨ c.dur.d1 ≠ 0) then [.mark c.dur.d0, .space c.dur.d1] else []

/-- The primitives after the tokens: NEC's trailing mark and space (R164 step 3); none under RC5 and RAW. -/
def trailerPrims (c : Cfg) : List Prim :=
  if c.variant = .nec ∧ c.dur.d6 ≠ 0 then .mark c.dur.d6 :: (if c.dur.d7 ≠ 0 then [.space c.dur.d7] else []) else []

/-- The primitives up to the end of the tokens: what an encode that meets an Invalid token after `ts` has called (R168). -/
def headPrims (c : Cfg) (ts : List Token) : List Prim := leaderPrims c ++ ts.flatMap (tokenPrims c)

/-- The primitives of a whole encode of valid tokens (R97). -/
def allPrims (c : Cfg) (ts : List Token) : List Prim := headPrims c ts ++ trailerPrims c

/-- The primitives an encode of `ts` calls, if none of them fails: all of them for valid tokens (R97), and those up to the first
Invalid token where there is one (R168). -/
def Calls (c : Cfg) (ts : List Token) (ps : List Prim) : Prop :=
  (validTokens ts ∧ ps = allPrims c ts) ∨
  ∃ (vs xs : List Token) (x : Token), ts = vs ++ x :: xs ∧ validTokens vs ∧ x ≠ 0x30 ∧ x ≠ 0x31 ∧
    ps = headPrims c vs

/-- The first entry a primitive asks for has 0 µs: a space of 0 µs, or a mark of at least one period whose sub-pulse `on` is
0 µs (R143, R144). -/
def Prim.startsWithZero (c : Cfg) (p : Prim) : Prop :=
  p = .space 0 ∨ ∃ d, p = .mark d ∧ 1 ≤ c.periods d ∧ c.onTime = 0

/-- The second entry a primitive asks for, and not its first, has 0 µs: a mark of at least one period whose sub-pulse `off`
is 0 µs (R144). -/
def Prim.continuesWithZero (c : Cfg) (p : Prim) : Prop :=
  ∃ d, p = .mark d ∧ 1 ≤ c.periods d ∧ 1 ≤ c.onTime ∧ c.offTime = 0

/-- The entries a list of primitives asks for, in order. -/
def wave (c : Cfg) (ps : List Prim) : List Entry := ps.flatMap (Prim.entries c)

/-- What R161 refuses with `ConfigError` (R266): the reserved variant, an override of a duration the variant lacks, a
frequency of 0, a duty cycle outside `1 <= DUTY_NUM <= DUTY_DEN`. -/
def configRefused (a : ConfigArgs) : Prop :=
  a.variant = 3 ∨
  ((a.variant = 1 ∨ a.variant = 2) ∧ a.ovr.extractLsb' 4 6 ≠ 0) ∨
  (a.ovr.getLsbD 0 = true ∧ a.freq = 0) ∨
  (a.ovr.getLsbD 1 = true ∧ (a.dutyNum = 0 ∨ a.dutyDen.toNat < a.dutyNum.toNat))

/-- `if b` is set then the override `x`, else the default `y` (R88). -/
def override {α : Type} (b : Bool) (x y : α) : α := if b then x else y

/-- The number of entries a mark of `d` µs takes, and that and a space (R171). -/
def markCount (c : Cfg) (d : Word) : Nat := 2 * c.periods d
def pairCount (c : Cfg) (d : Word) : Nat := 2 * c.periods d + 1

/-- R171's count of the entries an encode of `n1` ones and `n0` zeros appends. -/
def encodeCount (c : Cfg) (n1 n0 : Nat) : Nat :=
  match c.variant with
  | .nec =>
    (if c.dur.d0 ≠ 0 ∨ c.dur.d1 ≠ 0 then pairCount c c.dur.d0 else 0) +
      n1 * pairCount c c.dur.d2 + n0 * pairCount c c.dur.d4 +
      (if c.dur.d6 ≠ 0 then markCount c c.dur.d6 + (if c.dur.d7 ≠ 0 then 1 else 0) else 0)
  | .rc5 => n1 * pairCount c c.dur.d0 + n0 * pairCount c c.dur.d1
  | .raw => n1 * markCount c c.dur.d0 + n0

/-! ### Packed tokens -/

/-- `tok(b, k)` (R203): the token of bit `k` of byte `b`; a byte has no bits from 8 up (R201). -/
def bitToken (b : Byte) (k : Nat) : Token := if b.getLsbD k then 0x31 else 0x30

/-- `LSBF(b)` (R204): the tokens of bits 0 to `w - 1`. -/
def lsbFirst (w : Nat) (b : Byte) : List Token := (List.range w).map (bitToken b)

/-- `MSBF(b)` (R203): the tokens of bits `w - 1` down to 0. -/
def msbFirst (w : Nat) (b : Byte) : List Token := (lsbFirst w b).reverse

/-! ### Text -/

/-- The hexadecimal digit of a number below 16. -/
def hexChar (n : Nat) : Char := Char.ofNat (if n < 10 then 48 + n else 55 + n)

/-- A token as R85 writes it: `0` and `1` as they are, any other code as `\xHH`. -/
def tokenText (t : Token) : List Char :=
  if t = 0x30 then ['0'] else if t = 0x31 then ['1']
  else [backslash, 'x', hexChar (t.toNat / 16), hexChar (t.toNat % 16)]

/-- A token sequence in quotation marks (R85). -/
def quotedText (ts : List Token) : List Char := quoteMark :: ts.flatMap tokenText ++ [quoteMark]

/-! ### The invariant -/

/-- The configuration CONFIGURE can leave (R26, R27, R28): a legal carrier, and 0 in the durations RC5 and RAW do not use. -/
def Cfg.legal (c : Cfg) : Prop :=
  c.carrierLegal = true ∧
  (c.variant ≠ .nec → c.dur.d2 = 0 ∧ c.dur.d3 = 0 ∧ c.dur.d4 = 0 ∧ c.dur.d5 = 0 ∧ c.dur.d6 = 0 ∧ c.dur.d7 = 0)

/-- The phases in which a backend session is held (R37): after `initialize` answered `Ok`, up to `terminate`. -/
def Phase.holdsSession : Phase → Bool
  | .idle | .tInit => false
  | .tLine | .tEncode | .tClear | .tStage | .tCreate | .tStart | .tPoll | .tDelete | .tTerm => true

/-- The phases in which a playback handle is held (R37): after `createHandle` answered `Ok`, up to `deleteHandle`. -/
def Phase.holdsHandle : Phase → Bool
  | .tStart | .tPoll | .tDelete => true
  | .idle | .tInit | .tLine | .tEncode | .tClear | .tStage | .tCreate | .tTerm => false

/-- The statuses `CTRL.PEND` can hold in a phase (R36, R223 to R232). -/
def pendFits (p : Phase) (st : Status) : Prop :=
  match p with
  | .idle => st = .ok ∨ st = .invalidBitError ∨ st = .invalidEntry ∨ st = .capacityExceeded ∨ st = .backendInitError ∨
      st = .backendTransmitError
  | .tTerm => st = .ok ∨ st = .invalidBitError ∨ st = .invalidEntry ∨ st = .capacityExceeded ∨ st = .backendInitError ∨
      st = .backendTransmitError
  | .tDelete => st = .ok ∨ st = .backendTransmitError
  | .tInit | .tLine | .tEncode | .tClear | .tStage | .tCreate | .tStart | .tPoll => st = .ok

/-- The block's invariant: the buffer's memory is canonical; every entry below `BUF.LEN` is valid (R32); a valid
configuration is legal (R24 to R28); outside IDLE the block is configured (R29, R222) and latched at least one repeat of
at most `MAX_TOKENS` tokens (R35); the session and the handle are held in exactly their phases (R37); `CTRL.PEND` fits
the phase (R36). -/
def State.Inv (s : State) : Prop :=
  s.block.buf.wf ∧
  (∀ i, i < s.block.buf.len.val → (s.block.buf.entry i).valid) ∧
  (s.block.cfgValid = true → s.block.cfg.legal) ∧
  (s.block.ctrl.phase ≠ .idle →
    s.block.cfgValid = true ∧ s.block.ctrl.repeatCount ≠ 0 ∧
    exceeds s.params.maxTokens s.block.ctrl.tokens.length = false) ∧
  s.block.ctrl.session = s.block.ctrl.phase.holdsSession ∧
  s.block.ctrl.handleHeld = s.block.ctrl.phase.holdsHandle ∧
  pendFits s.block.ctrl.phase s.block.ctrl.pend

/-! ### What can be told apart -/

/-- Two states no command can tell apart: they agree on everything but the values the spec leaves unobservable (R290):
`CFG` while the block is not configured, the entries at and above `BUF.LEN`, the latched arguments once T_ENCODE is
over, and the handle while none is in use. They agree on the outputs so far and on everything still to arrive. -/
def Indistinguishable (s t : State) : Prop :=
  s.params = t.params ∧ s.env = t.env ∧
  s.block.cfgValid = t.block.cfgValid ∧
  (s.block.cfgValid = true ∨ s.block.ctrl.phase ≠ .idle → s.block.cfg = t.block.cfg) ∧
  s.block.buf.len = t.block.buf.len ∧
  (∀ i, i < s.block.buf.len.val → s.block.buf.entry i = t.block.buf.entry i) ∧
  s.block.ctrl.phase = t.block.ctrl.phase ∧
  (s.block.ctrl.phase = .tInit ∨ s.block.ctrl.phase = .tLine ∨ s.block.ctrl.phase = .tEncode →
    s.block.ctrl.tokens = t.block.ctrl.tokens ∧ s.block.ctrl.repeatCount = t.block.ctrl.repeatCount) ∧
  s.block.ctrl.pend = t.block.ctrl.pend ∧
  s.block.ctrl.session = t.block.ctrl.session ∧
  s.block.ctrl.handleHeld = t.block.ctrl.handleHeld ∧
  (s.block.ctrl.phase.holdsHandle = true → s.block.ctrl.handle = t.block.ctrl.handle)

/-! ### Renaming handles -/

/-- The same draw, with its handle renamed by `f`. -/
def Draw.mapHandles (f : Handle → Handle) (d : Draw) : Draw := { d with handle := f d.handle }

/-- The same request, with its handle renamed. -/
def Request.mapHandles (f : Handle → Handle) : Request → Request
  | .initBackend       => .initBackend
  | .configureLine l o => .configureLine l o
  | .clearStaged       => .clearStaged
  | .stage es          => .stage es
  | .createHandle      => .createHandle
  | .start h           => .start (f h)
  | .isBusy h          => .isBusy (f h)
  | .deleteHandle h    => .deleteHandle (f h)
  | .terminate         => .terminate

/-- The same answer, with its handle renamed. -/
def Answer.mapHandles (f : Handle → Handle) : Answer → Answer
  | .ok         => .ok
  | .err        => .err
  | .okCount n  => .okCount n
  | .okHandle h => .okHandle (f h)
  | .busy b     => .busy b
  | .done       => .done

/-- The same output, with its handles renamed. -/
def Output.mapHandles (f : Handle → Handle) : Output → Output
  | .response st v => .response st v
  | .call r a      => .call (r.mapHandles f) (a.mapHandles f)
  | .abandoned r   => .abandoned (r.mapHandles f)

/-- The same event, with its handle renamed. -/
def Event.mapHandles (f : Handle → Handle) : Event → Event
  | .command c    => .command c
  | .reset        => .reset
  | .answer d     => .answer (d.mapHandles f)
  | .lateAnswer d => .lateAnswer (d.mapHandles f)
  | .turn         => .turn

/-- The same block, with the handle it stores renamed. -/
def Block.mapHandles (f : Handle → Handle) (b : Block) : Block :=
  { b with ctrl := { b.ctrl with handle := f b.ctrl.handle } }

/-- The same state, with every handle in it renamed: the one stored, those still to come and those put out. -/
def State.mapHandles (f : Handle → Handle) (s : State) : State where
  block  := s.block.mapHandles f
  params := s.params
  env    :=
    { inbox    := s.env.inbox.map (Event.mapHandles f)
      standing := s.env.standing.map (Draw.mapHandles f)
      log      := s.env.log.map (Output.mapHandles f) }

/-! ### The backend's ledger -/

/-- `initialize` answered `Ok`. -/
def Output.opensSession : Output → Bool
  | .call .initBackend .ok => true
  | _ => false

/-- `terminate` was sent. -/
def Output.closesSession : Output → Bool
  | .call .terminate _ => true
  | _ => false

/-- `createHandle` answered `Ok(h)`. -/
def Output.opensHandle : Output → Bool
  | .call .createHandle (.okHandle _) => true
  | _ => false

/-- `deleteHandle` was sent. -/
def Output.closesHandle : Output → Bool
  | .call (.deleteHandle _) _ => true
  | _ => false

/-- Is this output a response? -/
def Output.isResponse : Output → Bool
  | .response _ _ => true
  | _ => false

/-- What was opened and not yet released is exactly what the block holds (R237). -/
def State.LedgerBalanced (s : State) : Prop :=
  s.env.log.countP Output.opensSession = s.env.log.countP Output.closesSession + s.block.ctrl.session.toNat ∧
  s.env.log.countP Output.opensHandle = s.env.log.countP Output.closesHandle + s.block.ctrl.handleHeld.toNat

/-- The next event is not a reset: R237 is stated "only for runs without a reset" (R291). -/
def State.noReset (s : State) : Prop := s.env.inbox.head? ≠ some .reset

end Sys2Proof.Machine
end

