-- ==== Sys2Proof/Certificates/Slice0/Obligations.lean ====
section
/-! DEFINITION. The statements for the provers, from the numbered rules of spec/. Each docstring names the rule it formalises.
Commands are stated from `exec`; controller phases and events from `step`. `s.emit b out` is `s` with the block at `b` and
the outputs `out` added to the log, everything else as in `s`; so an equation with it is a whole frame. -/

open Sys2Proof Sys2Proof.Machine

/-! ### Encoding -/

/-- R82, R83: each assigned word, with any argument record, decodes to its command with the fields of its row. -/
def Obligations.OpcodeWordsDecode : Prop :=
  ∀ a : Args,
    decode ⟨0x00000001, a⟩ = .ok .bufReset ∧
    decode ⟨0x00000002, a⟩ = .ok (.bufAppend a.mark a.space a.dur) ∧
    decode ⟨0x00000003, a⟩ = .ok .bufLen ∧
    decode ⟨0x00000004, a⟩ = .ok (.bufRead a.index) ∧
    decode ⟨0x00000010, a⟩ = .ok (.emitSpace a.dur) ∧
    decode ⟨0x00000011, a⟩ = .ok (.emitMark a.dur) ∧
    decode ⟨0x00000020, a⟩ = .ok (.configure a.config) ∧
    decode ⟨0x00000021, a⟩ = .ok (.encode a.toks) ∧
    decode ⟨0x00000030, a⟩ = .ok (.pack a.data a.bwm a.inv) ∧
    decode ⟨0x00000040, a⟩ = .ok (.transmit a.toks a.rep) ∧
    decode ⟨0x00000041, a⟩ = .ok (.transmitBytes a.data a.bwm a.inv a.rep)

/-- R81: a word is legal exactly when its reserved field is 0 and its opcode is one of R82's eleven. -/
def Obligations.LegalWordsAreTheElevenOpcodes : Prop :=
  ∀ c : Command,
    (∃ i, decode c = .ok i) ↔
      c.word.extractLsb' 8 24 = 0 ∧
      c.word.extractLsb' 0 8 ∈
        ([0x01, 0x02, 0x03, 0x04, 0x10, 0x11, 0x20, 0x21, 0x30, 0x40, 0x41] : List (BitVec 8))

/-- Decoding and encoding are inverse: an encoded instruction decodes to itself with every operand at every value, and a
well-formed command that decodes is the encoding of what it decodes to. -/
def Obligations.DecodeEncodeInverse : Prop :=
  (∀ i : Instr, decode (encode i) = .ok i) ∧
  ∀ (c : Command) (i : Instr), c.wf = true → decode c = .ok i → encode i = c

/-- R95: an operand of the assembler's CONFIGURE line sets exactly its OVR bit; an operand omitted leaves its bit 0. -/
def Obligations.AssemblerOperandsSetTheirOverrideBits : Prop :=
  ∀ (v : BitVec 2) (l : LineId) (ops : List ConfigOperand),
    ∃ a : ConfigArgs, assembleConfigure v l ops = .configure a ∧ a.variant = v ∧ a.lineId = l ∧
      (a.ovr.getLsbD 0 = true ↔ ∃ hz, ConfigOperand.freq hz ∈ ops) ∧
      (a.ovr.getLsbD 1 = true ↔ ∃ n d, ConfigOperand.duty n d ∈ ops) ∧
      ∀ k : Fin 8, a.ovr.getLsbD (2 + k.val) = true ↔ ∃ us, ConfigOperand.dur k us ∈ ops

/-- R85, R95: an ENCODE line with any token sequence, written in quotation marks, assembles to ENCODE of it. -/
def Obligations.QuotedTokensAssemble : Prop :=
  ∀ ts : List Token,
    assembleLine (String.ofList ("ENCODE ".toList ++ quotedText ts)) = some (.encode ts)

/-- R260: the status codes by number; 11 to 15 are never produced. -/
def Obligations.StatusCodesAsNumbered : Prop :=
  Status.ok.code = 0 ∧ Status.invalidBitError.code = 1 ∧ Status.capacityExceeded.code = 2 ∧
  Status.backendInitError.code = 3 ∧ Status.backendTransmitError.code = 4 ∧ Status.invalidEntry.code = 5 ∧
  Status.configError.code = 6 ∧ Status.notConfigured.code = 7 ∧ Status.invalidArgument.code = 8 ∧
  Status.busy.code = 9 ∧ Status.illegalCommand.code = 10 ∧ ∀ st : Status, st.code.toNat ≤ 10

/-- R64: the packed 96-bit form of an entry. -/
def Obligations.PackedEntryLayout : Prop :=
  ∀ e : Entry, e.packed.extractLsb' 0 32 = e.mark ∧ e.packed.extractLsb' 32 32 = e.space ∧
    e.packed.extractLsb' 64 32 = e.dur

/-! ### Serving commands -/

/-- R70, R271: a command that stands first and decodes is carried out: the step is `exec` of it, after the event is
taken. The same for the word the host places with `withFetchWord`. -/
def Obligations.StepRunsTheDecodedCommand : Prop :=
  (∀ (s : State) (c : Command) (rest : List Event) (i : Instr),
    s.env.inbox = .command c :: rest → decode c = .ok i → step s = exec i (s.withInbox rest)) ∧
  ∀ (s : State) (w : Nat) (i : Instr), decodeTableWord 32 w = some i → step (s.withFetchWord 32 w) = exec i s

/-- R270: an illegal command is answered IllegalCommand in every phase, and nothing changes. -/
def Obligations.IllegalCommandsAreAnswered : Prop :=
  ∀ (s : State) (c : Command) (rest : List Event), s.env.inbox = .command c :: rest →
    (c.word.extractLsb' 8 24 ≠ 0 ∨
      c.word.extractLsb' 0 8 ∉
        ([0x01, 0x02, 0x03, 0x04, 0x10, 0x11, 0x20, 0x21, 0x30, 0x40, 0x41] : List (BitVec 8))) →
    step s = .next ((s.withInbox rest).emit s.block [.response .illegalCommand .none])

/-- R269: every legal command outside IDLE is answered Busy, and nothing changes. -/
def Obligations.LegalCommandsOutsideIdleAreBusy : Prop :=
  ∀ (i : Instr) (s : State), ¬ s.isIdle → exec i s = .next (s.emit s.block [.response .busy .none])

/-- R267: in IDLE but not configured, the five commands of the rule are answered NotConfigured, and nothing changes. -/
def Obligations.UnconfiguredCommandsAreRefused : Prop :=
  ∀ (s : State), s.isIdle → s.block.cfgValid = false →
    ∀ i : Instr, ((∃ d, i = .emitSpace d) ∨ (∃ d, i = .emitMark d) ∨ (∃ ts, i = .encode ts) ∨
      (∃ ts r, i = .transmit ts r) ∨ (∃ bs w v r, i = .transmitBytes bs w v r)) →
    exec i s = .next (s.emit s.block [.response .notConfigured .none])

/-- R268: the cases answered InvalidArgument, with no state change. -/
def Obligations.BadArgumentsAreRefused : Prop :=
  ∀ s : State, s.isIdle →
    (∀ k : Word, s.block.buf.len.val ≤ k.toNat →
      exec (.bufRead k) s = .next (s.emit s.block [.response .invalidArgument .none])) ∧
    (∀ (bs : List Byte) (w : Word) (v : Bool),
      (∃ n, (s.params.maxDataBytes = some n ∧ n < bs.length) ∨
        (s.params.maxTokens = some n ∧ n < bs.length * bitsPerByte w)) →
      exec (.pack bs w v) s = .next (s.emit s.block [.response .invalidArgument .none])) ∧
    (s.block.cfgValid = true →
      (∀ (ts : List Token) (n : Nat), s.params.maxTokens = some n → n < ts.length →
        exec (.encode ts) s = .next (s.emit s.block [.response .invalidArgument .none])) ∧
      (∀ (ts : List Token) (r : Word), (r = 0 ∨ ∃ n, s.params.maxTokens = some n ∧ n < ts.length) →
        exec (.transmit ts r) s = .next (s.emit s.block [.response .invalidArgument .none])) ∧
      ∀ (bs : List Byte) (w : Word) (v : Bool) (r : Word),
        (r = 0 ∨ ∃ n, (s.params.maxDataBytes = some n ∧ n < bs.length) ∨
          (s.params.maxTokens = some n ∧ n < bs.length * bitsPerByte w)) →
        exec (.transmitBytes bs w v r) s = .next (s.emit s.block [.response .invalidArgument .none]))

/-- R6, R90: every command gives exactly one response, and a value only with OK; TRANSMIT and TRANSMIT_BYTES give theirs later when
they are accepted. -/
def Obligations.OneResponsePerCommand : Prop :=
  ∀ (i : Instr) (s t : State), exec i s = .next t →
    (∃ st v, t.env.log = s.env.log ++ [.response st v] ∧ (st ≠ .ok → v = .none)) ∨
    (t.env.log = s.env.log ∧ s.isReady ∧ t.block.ctrl.phase = .tInit ∧
      ((∃ ts r, i = .transmit ts r) ∨ ∃ bs w v r, i = .transmitBytes bs w v r))

/-! ### The pulse buffer -/

/-- R121: BUF_RESET clears the length and nothing else: no entry is erased, CFG and CTRL are not touched. -/
def Obligations.BufResetClearsTheLength : Prop :=
  ∀ s : State,
    (¬ s.isIdle → exec .bufReset s = .next (s.emit s.block [.response .busy .none])) ∧
    (s.isIdle → exec .bufReset s = .next (s.withBuffer { s.block.buf with len := 0 } .ok))

/-- R120, R122: BUF_APPEND's three outcomes: InvalidEntry (checked first), CapacityExceeded, or the one entry appended at
index BUF.LEN, with every other entry and register unchanged. -/
def Obligations.BufAppendOutcomes : Prop :=
  ∀ (m sp d : Word) (s : State),
    (¬ s.isIdle → exec (.bufAppend m sp d) s = .next (s.emit s.block [.response .busy .none])) ∧
    (s.isIdle → (d = 0 ∨ (m = 0 ∧ sp = 0) ∨ (m ≠ 0 ∧ sp ≠ 0)) →
      exec (.bufAppend m sp d) s = .next (s.emit s.block [.response .invalidEntry .none])) ∧
    (s.isIdle → d ≠ 0 → (m ≠ 0 ∧ sp = 0 ∨ m = 0 ∧ sp ≠ 0) → s.block.buf.len.val = 12000 →
      exec (.bufAppend m sp d) s = .next (s.emit s.block [.response .capacityExceeded .none])) ∧
    (s.isIdle → d ≠ 0 → (m ≠ 0 ∧ sp = 0 ∨ m = 0 ∧ sp ≠ 0) → s.block.buf.len.val < 12000 →
      ∃ b, exec (.bufAppend m sp d) s = .next (s.withBuffer b .ok) ∧ Appended s.block.buf b [⟨m, sp, d⟩])

/-- R123: BUF_LEN answers the length as a 32-bit word and changes nothing. -/
def Obligations.BufLenAnswersTheLength : Prop :=
  ∀ s : State,
    (¬ s.isIdle → exec .bufLen s = .next (s.emit s.block [.response .busy .none])) ∧
    (s.isIdle → ∃ w : Word, w.toNat = s.block.buf.len.val ∧ w.toNat ≤ 12000 ∧
      exec .bufLen s = .next (s.emit s.block [.response .ok (.word w)]))

/-- R124: BUF_READ answers the entry below the length, refuses any other index, and changes nothing. -/
def Obligations.BufReadAnswersTheEntry : Prop :=
  ∀ (k : Word) (s : State),
    (¬ s.isIdle → exec (.bufRead k) s = .next (s.emit s.block [.response .busy .none])) ∧
    (s.isIdle → k.toNat < s.block.buf.len.val →
      exec (.bufRead k) s = .next (s.emit s.block [.response .ok (.entry (s.block.buf.entry k.toNat))])) ∧
    (s.isIdle → s.block.buf.len.val ≤ k.toNat →
      exec (.bufRead k) s = .next (s.emit s.block [.response .invalidArgument .none]))

/-- R33: entries are immutable and the buffer only grows, except where its length is set to 0: over every step, whatever
the event. -/
def Obligations.EntriesAreImmutable : Prop :=
  ∀ s t : State, step s = .next t →
    t.block.buf.len.val = 0 ∨
    (s.block.buf.len.val ≤ t.block.buf.len.val ∧
      ∀ i, i < s.block.buf.len.val → t.block.buf.entry i = s.block.buf.entry i)

/-! ### The carrier -/

/-- R140, R17: `rhu(n, d)` is `(2*n + d) div (2*d)`, which is the nearest natural to `n/d`, a tie going up. -/
def Obligations.RoundingIsNearestTiesUp : Prop :=
  ∀ n d : Nat, 0 < d →
    rhu n d = (2 * n + d) / (2 * d) ∧ d * (2 * rhu n d) ≤ 2 * n + d ∧ 2 * n + d < d * (2 * rhu n d + 2)

/-- R141: for a legal carrier both sub-pulses are at most 1000000 µs, and their sum differs from the rounded period by at
most 1. -/
def Obligations.SubPulsesStayNearThePeriod : Prop :=
  ∀ c : Cfg, c.carrierLegal = true →
    c.onTime ≤ 1000000 ∧ c.offTime ≤ 1000000 ∧
    c.onTime + c.offTime ≤ rhu 1000000 c.freq.toNat + 1 ∧ rhu 1000000 c.freq.toNat ≤ c.onTime + c.offTime + 1

/-- R89: equal duty-cycle fractions behave identically. -/
def Obligations.EqualDutyFractionsAgree : Prop :=
  ∀ c c' : Cfg, c.carrierLegal = true → c'.carrierLegal = true → c.freq = c'.freq →
    c.dutyNum.toNat * c'.dutyDen.toNat = c'.dutyNum.toNat * c.dutyDen.toNat →
    c.onTime = c'.onTime ∧ c.offTime = c'.offTime

/-- R143, R145: EMIT_SPACE's outcomes. -/
def Obligations.EmitSpaceOutcomes : Prop :=
  ∀ (d : Word) (s : State), s.isReady →
    (d = 0 → exec (.emitSpace d) s = .next (s.emit s.block [.response .invalidEntry .none])) ∧
    (d ≠ 0 → s.block.buf.len.val = 12000 →
      exec (.emitSpace d) s = .next (s.emit s.block [.response .capacityExceeded .none])) ∧
    (d ≠ 0 → s.block.buf.len.val < 12000 →
      ∃ b, exec (.emitSpace d) s = .next (s.withBuffer b .ok) ∧
        Appended s.block.buf b [⟨0, 1#32 <<< s.block.cfg.lineId.toNat, d⟩])

/-- R144, R146: EMIT_MARK appends the whole burst of `N(d)` periods when it needs no entry of 0 µs and fits, and nothing
when `N(d) = 0`. -/
def Obligations.EmitMarkAppendsTheBurst : Prop :=
  ∀ (d : Word) (s : State), s.isReady → s.block.cfg.carrierLegal = true →
    (Prim.mark d).emittable s.block.cfg → s.block.buf.len.val + 2 * s.block.cfg.periods d ≤ 12000 →
    ∃ b es, exec (.emitMark d) s = .next (s.withBuffer b .ok) ∧ Appended s.block.buf b es ∧
      es.length = 2 * s.block.cfg.periods d ∧
      ∀ k, ∀ h : k < es.length, es[k] =
        if k % 2 = 0 then ⟨1#32 <<< s.block.cfg.lineId.toNat, 0, BitVec.ofNat 32 s.block.cfg.onTime⟩
        else ⟨0, 1#32 <<< s.block.cfg.lineId.toNat, BitVec.ofNat 32 s.block.cfg.offTime⟩

/-- R144, R146: where EMIT_MARK stops: at a sub-pulse of 0 µs with InvalidEntry, at a full buffer with CapacityExceeded;
the sub-pulses before it stay, and nothing else changes. -/
def Obligations.EmitMarkStops : Prop :=
  ∀ (d : Word) (s : State), s.isReady → s.block.cfg.carrierLegal = true → 1 ≤ s.block.cfg.periods d →
    (s.block.cfg.onTime = 0 →
      exec (.emitMark d) s = .next (s.emit s.block [.response .invalidEntry .none])) ∧
    (1 ≤ s.block.cfg.onTime → s.block.buf.len.val = 12000 →
      exec (.emitMark d) s = .next (s.emit s.block [.response .capacityExceeded .none])) ∧
    (1 ≤ s.block.cfg.onTime → s.block.cfg.offTime = 0 → s.block.buf.len.val < 12000 →
      ∃ b, exec (.emitMark d) s = .next (s.withBuffer b .invalidEntry) ∧
        Appended s.block.buf b [s.block.cfg.markEntry (BitVec.ofNat 32 s.block.cfg.onTime)]) ∧
    (1 ≤ s.block.cfg.onTime → 1 ≤ s.block.cfg.offTime → s.block.buf.len.val < 12000 →
      12000 < s.block.buf.len.val + 2 * s.block.cfg.periods d →
      ∃ b, exec (.emitMark d) s = .next (s.withBuffer b .capacityExceeded) ∧ b.len.val = 12000 ∧
        Appended s.block.buf b
          ((s.block.cfg.burst (s.block.cfg.periods d)).take (12000 - s.block.buf.len.val)))

/-- R147: the realized duration of a mark that EMIT_MARK completes is `N(d) * (on + off)` µs, of a space exactly `d`. -/
def Obligations.RealizedDurations : Prop :=
  ∀ (d : Word) (s t : State), s.isReady → s.block.cfg.carrierLegal = true →
    (exec (.emitMark d) s = .next t → t.env.log = s.env.log ++ [.response .ok .none] →
      ∃ es, Appended s.block.buf t.block.buf es ∧ es.length = 2 * s.block.cfg.periods d ∧
        realized es = s.block.cfg.periods d * (s.block.cfg.onTime + s.block.cfg.offTime)) ∧
    (exec (.emitSpace d) s = .next t → t.env.log = s.env.log ++ [.response .ok .none] →
      ∃ es, Appended s.block.buf t.block.buf es ∧ realized es = d.toNat)

/-! ### CONFIGURE -/

/-- R161, R266: CONFIGURE refuses exactly the cases of R266, changing nothing; otherwise it writes the whole set, the
defaults with the named overrides, and nothing else. -/
def Obligations.ConfigureOutcomes : Prop :=
  ∀ (a : ConfigArgs) (s : State),
    (¬ s.isIdle → exec (.configure a) s = .next (s.emit s.block [.response .busy .none])) ∧
    (s.isIdle → configRefused a → exec (.configure a) s = .next (s.emit s.block [.response .configError .none])) ∧
    (s.isIdle → ¬ configRefused a →
      ∃ c : Cfg,
        exec (.configure a) s = .next (s.emit { s.block with cfg := c, cfgValid := true } [.response .ok .none]) ∧
        c.variant.code = a.variant ∧ c.lineId = a.lineId ∧
        c.freq = override (a.ovr.getLsbD 0) a.freq (defaults c.variant).freq ∧
        c.dutyNum = override (a.ovr.getLsbD 1) a.dutyNum (defaults c.variant).dutyNum ∧
        c.dutyDen = override (a.ovr.getLsbD 1) a.dutyDen (defaults c.variant).dutyDen ∧
        c.dur.d0 = override (a.ovr.getLsbD 2) a.d.d0 (defaults c.variant).dur.d0 ∧
        c.dur.d1 = override (a.ovr.getLsbD 3) a.d.d1 (defaults c.variant).dur.d1 ∧
        c.dur.d2 = override (a.ovr.getLsbD 4) a.d.d2 (defaults c.variant).dur.d2 ∧
        c.dur.d3 = override (a.ovr.getLsbD 5) a.d.d3 (defaults c.variant).dur.d3 ∧
        c.dur.d4 = override (a.ovr.getLsbD 6) a.d.d4 (defaults c.variant).dur.d4 ∧
        c.dur.d5 = override (a.ovr.getLsbD 7) a.d.d5 (defaults c.variant).dur.d5 ∧
        c.dur.d6 = override (a.ovr.getLsbD 8) a.d.d6 (defaults c.variant).dur.d6 ∧
        c.dur.d7 = override (a.ovr.getLsbD 9) a.d.d7 (defaults c.variant).dur.d7)

/-- R160: with no override, CONFIGURE leaves the variant's defaults, number by number. -/
def Obligations.DefaultsOfEachVariant : Prop :=
  ∀ (a : ConfigArgs) (s : State), s.isIdle → a.ovr = 0 →
    (a.variant = 0 → exec (.configure a) s = .next (s.emit
      { s.block with cfg := ⟨.nec, a.lineId, 38000, 33, 100, ⟨9000, 4500, 562, 1686, 562, 562, 562, 0⟩⟩, cfgValid := true }
      [.response .ok .none])) ∧
    (a.variant = 1 → exec (.configure a) s = .next (s.emit
      { s.block with cfg := ⟨.rc5, a.lineId, 36000, 33, 100, ⟨889, 889, 0, 0, 0, 0, 0, 0⟩⟩, cfgValid := true }
      [.response .ok .none])) ∧
    (a.variant = 2 → exec (.configure a) s = .next (s.emit
      { s.block with cfg := ⟨.raw, a.lineId, 36000, 33, 100, ⟨520, 520, 0, 0, 0, 0, 0, 0⟩⟩, cfgValid := true }
      [.response .ok .none]))

/-- R29, R23: only CONFIGURE writes CFG and CFG_VALID, over every step that is no reset. -/
def Obligations.OnlyConfigureWritesCfg : Prop :=
  ∀ s t : State, step s = .next t → s.noReset →
    (t.block.cfg = s.block.cfg ∧ t.block.cfgValid = s.block.cfgValid) ∨
    (s.isIdle ∧ t.block.cfgValid = true ∧
      ∃ c rest a, s.env.inbox = .command c :: rest ∧ decode c = .ok (.configure a))

/-! ### ENCODE -/

/-- R163 to R167: an ENCODE of valid tokens whose primitives need no entry of 0 µs and fit appends exactly the entries those
primitives ask for, in order, and changes nothing else. -/
def Obligations.EncodeAppendsTheWaveform : Prop :=
  ∀ (ts : List Token) (s : State), s.isReady → s.block.cfg.carrierLegal = true →
    exceeds s.params.maxTokens ts.length = false → validTokens ts →
    (∀ p ∈ allPrims s.block.cfg ts, p.emittable s.block.cfg) →
    s.block.buf.len.val + (wave s.block.cfg (allPrims s.block.cfg ts)).length ≤ 12000 →
    ∃ b, exec (.encode ts) s = .next (s.withBuffer b .ok) ∧
      Appended s.block.buf b (wave s.block.cfg (allPrims s.block.cfg ts))

/-- R97: an ENCODE that answers OK leaves the same block as the EMIT commands its variant rule calls, each of which
answers OK. -/
def Obligations.EncodeEqualsItsEmitCommands : Prop :=
  ∀ (ts : List Token) (s t : State), s.isReady → validTokens ts → exec (.encode ts) s = .next t →
    t.env.log = s.env.log ++ [.response .ok .none] →
    ∃ u, execAll ((allPrims s.block.cfg ts).map Prim.instr) s = .next u ∧ u.block = t.block ∧
      u.env.log = s.env.log ++ List.replicate (allPrims s.block.cfg ts).length (.response .ok .none)

/-- R168: at the first Invalid token the encode stops with InvalidBitError, and the buffer holds what the tokens before it
asked for (under NEC with the AGC burst, without the trailer); if an append fails for want of room before that token,
CapacityExceeded is answered instead. -/
def Obligations.EncodeAbortsAtTheInvalidToken : Prop :=
  ∀ (ts xs : List Token) (x : Token) (s : State), s.isReady → s.block.cfg.carrierLegal = true →
    exceeds s.params.maxTokens (ts ++ x :: xs).length = false → validTokens ts → x ≠ 0x30 → x ≠ 0x31 →
    (∀ p ∈ headPrims s.block.cfg ts, p.emittable s.block.cfg) →
    (s.block.buf.len.val + (wave s.block.cfg (headPrims s.block.cfg ts)).length ≤ 12000 →
      ∃ b, exec (.encode (ts ++ x :: xs)) s = .next (s.withBuffer b .invalidBitError) ∧
        Appended s.block.buf b (wave s.block.cfg (headPrims s.block.cfg ts))) ∧
    (12000 < s.block.buf.len.val + (wave s.block.cfg (headPrims s.block.cfg ts)).length →
      ∃ b, exec (.encode (ts ++ x :: xs)) s = .next (s.withBuffer b .capacityExceeded) ∧ b.len.val = 12000 ∧
        Appended s.block.buf b
          ((wave s.block.cfg (headPrims s.block.cfg ts)).take (12000 - s.block.buf.len.val)))

/-- R262, R125: an ENCODE of valid tokens that does not fit answers CapacityExceeded and leaves the buffer full, with the
entries that fitted; none lands past index 11999 and none wraps. -/
def Obligations.EncodeStopsAtCapacity : Prop :=
  ∀ (ts : List Token) (s : State), s.isReady → s.block.cfg.carrierLegal = true →
    exceeds s.params.maxTokens ts.length = false → validTokens ts →
    (∀ p ∈ allPrims s.block.cfg ts, p.emittable s.block.cfg) →
    12000 < s.block.buf.len.val + (wave s.block.cfg (allPrims s.block.cfg ts)).length →
    ∃ b, exec (.encode ts) s = .next (s.withBuffer b .capacityExceeded) ∧ b.len.val = 12000 ∧
      Appended s.block.buf b
        ((wave s.block.cfg (allPrims s.block.cfg ts)).take (12000 - s.block.buf.len.val))

/-- R265, R168, C4: an ENCODE that comes to an entry of 0 µs, before any Invalid token, answers InvalidEntry, and the entries before
it stay; a mark with `off = 0` leaves its first sub-pulse too. Where the buffer is full before the entry of 0 µs is
reached, CapacityExceeded is answered instead. -/
def Obligations.EncodeRefusesZeroDurations : Prop :=
  ∀ (ts : List Token) (ps qs : List Prim) (p : Prim) (s : State), s.isReady → s.block.cfg.carrierLegal = true →
    exceeds s.params.maxTokens ts.length = false → Calls s.block.cfg ts (ps ++ p :: qs) →
    (∀ q ∈ ps, q.emittable s.block.cfg) →
    (p.startsWithZero s.block.cfg → s.block.buf.len.val + (wave s.block.cfg ps).length ≤ 12000 →
      ∃ b, exec (.encode ts) s = .next (s.withBuffer b .invalidEntry) ∧
        Appended s.block.buf b (wave s.block.cfg ps)) ∧
    (p.continuesWithZero s.block.cfg → s.block.buf.len.val + (wave s.block.cfg ps).length < 12000 →
      ∃ b, exec (.encode ts) s = .next (s.withBuffer b .invalidEntry) ∧
        Appended s.block.buf b
          (wave s.block.cfg ps ++ [s.block.cfg.markEntry (BitVec.ofNat 32 s.block.cfg.onTime)])) ∧
    (p.continuesWithZero s.block.cfg → s.block.buf.len.val + (wave s.block.cfg ps).length = 12000 →
      ∃ b, exec (.encode ts) s = .next (s.withBuffer b .capacityExceeded) ∧ b.len.val = 12000 ∧
        Appended s.block.buf b (wave s.block.cfg ps)) ∧
    (12000 < s.block.buf.len.val + (wave s.block.cfg ps).length →
      ∃ b, exec (.encode ts) s = .next (s.withBuffer b .capacityExceeded) ∧ b.len.val = 12000 ∧
        Appended s.block.buf b ((wave s.block.cfg ps).take (12000 - s.block.buf.len.val)))

/-- R171: how many entries an ENCODE of valid tokens that answers OK appends, by its ones and zeros. -/
def Obligations.EncodeEntryCounts : Prop :=
  ∀ (ts : List Token) (s t : State), s.isReady → validTokens ts → exec (.encode ts) s = .next t →
    t.env.log = s.env.log ++ [.response .ok .none] →
    t.block.buf.len.val = s.block.buf.len.val + encodeCount s.block.cfg (ts.count 0x31) (ts.count 0x30)

/-- R170: what an ENCODE leaves in the buffer and answers depends only on CFG, the buffer before it and the tokens. -/
def Obligations.EncodeIsDeterministic : Prop :=
  ∀ (ts : List Token) (s s' t t' : State), s.isReady → s'.isReady → s.block.cfg = s'.block.cfg →
    s.block.buf.len = s'.block.buf.len → (∀ i, i < s.block.buf.len.val → s.block.buf.entry i = s'.block.buf.entry i) →
    s.params = s'.params → exec (.encode ts) s = .next t → exec (.encode ts) s' = .next t' →
    t.block.buf.entries = t'.block.buf.entries ∧
    ∃ o, t.env.log = s.env.log ++ [o] ∧ t'.env.log = s'.env.log ++ [o]

/-- R169: under RC-5 one bit of duration `d` takes `2*N(d) + 1` entries and realizes `N(d)*(on + off) + d` µs, whichever its
value. -/
def Obligations.Rc5BitsTakeEqualTime : Prop :=
  ∀ (x : Token) (d : Word) (s t : State), s.isReady → s.block.cfg.carrierLegal = true → s.block.cfg.variant = .rc5 →
    ((x = 0x31 ∧ d = s.block.cfg.dur.d0) ∨ (x = 0x30 ∧ d = s.block.cfg.dur.d1)) →
    exec (.encode [x]) s = .next t → t.env.log = s.env.log ++ [.response .ok .none] →
    ∃ es, Appended s.block.buf t.block.buf es ∧ es.length = 2 * s.block.cfg.periods d + 1 ∧
      realized es = s.block.cfg.periods d * (s.block.cfg.onTime + s.block.cfg.offTime) + d.toNat

/-! ### PACK -/

/-- R200: `W(BWM)` is 0 for `BWM <= 1`, and otherwise the least `k` with `2^k >= BWM`. -/
def Obligations.BitsPerByteIsTheLeastPower : Prop :=
  ∀ w : Word, (w.toNat ≤ 1 → bitsPerByte w = 0) ∧
    (1 < w.toNat → w.toNat ≤ 2 ^ bitsPerByte w ∧ ∀ k, k < bitsPerByte w → 2 ^ k < w.toNat)

/-- R206 with the closed forms R203 and R204: PACK answers the bytes in order, each most significant bit first, or least
significant first under INV, and changes nothing. -/
def Obligations.PackAnswersTheTokens : Prop :=
  ∀ (bs : List Byte) (w : Word) (v : Bool) (s : State),
    (¬ s.isIdle → exec (.pack bs w v) s = .next (s.emit s.block [.response .busy .none])) ∧
    (s.isIdle → exceeds s.params.maxDataBytes bs.length = false →
      exceeds s.params.maxTokens (bs.length * bitsPerByte w) = false →
      exec (.pack bs w v) s = .next (s.emit s.block
        [.response .ok (.tokens (bs.flatMap (if v then lsbFirst (bitsPerByte w) else msbFirst (bitsPerByte w))))]))

/-- R205: the packer's output has `len(DATA) * W(BWM)` tokens, all valid. -/
def Obligations.PackedTokensAreValid : Prop :=
  ∀ (bs : List Byte) (w : Word) (v : Bool),
    (packBody bs w v).length = bs.length * bitsPerByte w ∧ validTokens (packBody bs w v)

/-! ### TRANSMIT and TRANSMIT_BYTES -/

/-- R222: the acceptance of a TRANSMIT: the buffer cleared, the arguments latched, PEND OK, on to T_INIT; no response yet
and nothing else changed. -/
def Obligations.TransmitIsAccepted : Prop :=
  ∀ (ts : List Token) (r : Word) (s : State), s.isReady → r ≠ 0 → exceeds s.params.maxTokens ts.length = false →
    exec (.transmit ts r) s = .next { s with block := { s.block with
      buf := { s.block.buf with len := 0 }
      ctrl := { s.block.ctrl with tokens := ts, repeatCount := r, pend := .ok, phase := .tInit } } }

/-- R234: the acceptance of a TRANSMIT_BYTES: as TRANSMIT, with the packed tokens. -/
def Obligations.TransmitBytesIsAccepted : Prop :=
  ∀ (bs : List Byte) (w : Word) (v : Bool) (r : Word) (s : State), s.isReady → r ≠ 0 →
    exceeds s.params.maxDataBytes bs.length = false →
    exceeds s.params.maxTokens (bs.length * bitsPerByte w) = false →
    exec (.transmitBytes bs w v r) s = .next { s with block := { s.block with
      buf := { s.block.buf with len := 0 }
      ctrl := { s.block.ctrl with
        tokens := bs.flatMap (if v then lsbFirst (bitsPerByte w) else msbFirst (bitsPerByte w))
        repeatCount := r, pend := .ok, phase := .tInit } } }

/-- R96: TRANSMIT_BYTES has the effect of PACK followed by TRANSMIT of PACK's result. -/
def Obligations.TransmitBytesIsPackThenTransmit : Prop :=
  ∀ (bs : List Byte) (w : Word) (v : Bool) (r : Word) (s u : State) (ts : List Token), s.isReady →
    exec (.pack bs w v) s = .next u → u.env.log = s.env.log ++ [.response .ok (.tokens ts)] →
    ∃ t t', exec (.transmitBytes bs w v r) s = .next t ∧ exec (.transmit ts r) u = .next t' ∧ t.block = t'.block ∧
      ∃ out, t.env.log = s.env.log ++ out ∧ t'.env.log = u.env.log ++ out

/-- R223, R224: T_INIT and T_LINE, on each answer. -/
def Obligations.OpeningPhases : Prop :=
  ∀ (s : State) (d : Draw) (rest : List Event), s.env.inbox = .answer d :: rest →
    (s.block.ctrl.phase = .tInit → d.ok = true → step s = .next ((s.withInbox rest).emit
      { s.block with ctrl := { s.block.ctrl with session := true, phase := .tLine } } [.call .initBackend .ok])) ∧
    (s.block.ctrl.phase = .tInit → d.ok = false → step s = .next ((s.withInbox rest).emit
      { s.block with ctrl := { s.block.ctrl with pend := .backendInitError, phase := .idle } }
      [.call .initBackend .err, .response .backendInitError .none])) ∧
    (s.block.ctrl.phase = .tLine → d.ok = true → step s = .next ((s.withInbox rest).emit
      { s.block with ctrl := { s.block.ctrl with phase := .tEncode } }
      [.call (.configureLine s.block.cfg.lineId true) .ok])) ∧
    (s.block.ctrl.phase = .tLine → d.ok = false → step s = .next ((s.withInbox rest).emit
      { s.block with ctrl := { s.block.ctrl with pend := .backendInitError, phase := .tTerm } }
      [.call (.configureLine s.block.cfg.lineId true) .err]))

/-- R226 to R229: T_CLEAR, T_STAGE, T_CREATE and T_START, on each answer. -/
def Obligations.HandOffPhases : Prop :=
  ∀ (s : State) (d : Draw) (rest : List Event), s.env.inbox = .answer d :: rest →
    (s.block.ctrl.phase = .tClear → step s = .next ((s.withInbox rest).emit
      { s.block with ctrl := if d.ok then { s.block.ctrl with phase := .tStage }
        else { s.block.ctrl with pend := .backendTransmitError, phase := .tTerm } }
      [.call .clearStaged (if d.ok then .ok else .err)])) ∧
    (s.block.ctrl.phase = .tStage → ∃ es : List Entry, es.length = s.block.buf.len.val ∧
      (∀ k, ∀ h : k < es.length, es[k] = s.block.buf.entry k) ∧
      step s = .next ((s.withInbox rest).emit
        { s.block with ctrl := if d.ok then { s.block.ctrl with phase := .tCreate }
          else { s.block.ctrl with pend := .backendTransmitError, phase := .tTerm } }
        [.call (.stage es) (if d.ok then .okCount d.count else .err)])) ∧
    (s.block.ctrl.phase = .tCreate → step s = .next ((s.withInbox rest).emit
      { s.block with ctrl := if d.ok then
          { s.block.ctrl with handle := d.handle, handleHeld := true, phase := .tStart }
        else { s.block.ctrl with pend := .backendTransmitError, phase := .tTerm } }
      [.call .createHandle (if d.ok then .okHandle d.handle else .err)])) ∧
    (s.block.ctrl.phase = .tStart → step s = .next ((s.withInbox rest).emit
      { s.block with ctrl := if d.ok then { s.block.ctrl with phase := .tPoll }
        else { s.block.ctrl with pend := .backendTransmitError, phase := .tDelete } }
      [.call (.start s.block.ctrl.handle) (if d.ok then .ok else .err)]))

/-- R230 to R233: T_POLL, T_DELETE and T_TERM with Finish. -/
def Obligations.ClosingPhases : Prop :=
  ∀ (s : State) (d : Draw) (rest : List Event), s.env.inbox = .answer d :: rest →
    (s.block.ctrl.phase = .tPoll → step s = .next ((s.withInbox rest).emit
      { s.block with ctrl := { s.block.ctrl with phase := if d.busy then .tPoll else .tDelete } }
      [.call (.isBusy s.block.ctrl.handle) (.busy d.busy)])) ∧
    (s.block.ctrl.phase = .tDelete → step s = .next ((s.withInbox rest).emit
      { s.block with ctrl := { s.block.ctrl with handleHeld := false, phase := .tTerm } }
      [.call (.deleteHandle s.block.ctrl.handle) .done])) ∧
    (s.block.ctrl.phase = .tTerm → step s = .next ((s.withInbox rest).emit
      { s.block with ctrl := { s.block.ctrl with session := false, phase := .idle } }
      [.call .terminate .done, .response s.block.ctrl.pend .none]))

/-- R225, R239: T_ENCODE over valid tokens that fit leaves REPEAT back-to-back copies of one encode's entries, and goes on to
T_CLEAR; nothing else of the block changes and nothing is sent. When T_ENCODE runs among the events (`encodesNext`) is the
model's choice (notes/assumptions/5.md). -/
def Obligations.EncodePhaseWritesIdenticalCopies : Prop :=
  ∀ s : State, s.encodesNext → s.block.cfg.carrierLegal = true → validTokens s.block.ctrl.tokens →
    (∀ p ∈ allPrims s.block.cfg s.block.ctrl.tokens, p.emittable s.block.cfg) →
    s.block.buf.len.val + s.block.ctrl.repeatCount.toNat *
      (wave s.block.cfg (allPrims s.block.cfg s.block.ctrl.tokens)).length ≤ 12000 →
    ∃ b t, step s = .next t ∧ t.env.log = s.env.log ∧
      t.block = { s.block with buf := b, ctrl := { s.block.ctrl with phase := .tClear } } ∧
      Appended s.block.buf b (List.replicate s.block.ctrl.repeatCount.toNat
        (wave s.block.cfg (allPrims s.block.cfg s.block.ctrl.tokens))).flatten

/-- R225, R239: T_ENCODE stops at its first error, whichever it is, and goes to T_TERM with that status, sending nothing; what it
appended before the error stays. Then each first error by its cause: an Invalid token, an entry of 0 µs, a full buffer
before either (these stop the first repeat), and a full buffer in any repeat of valid tokens. When T_ENCODE runs among the
events (`encodesNext`) is the model's choice (notes/assumptions/5.md). -/
def Obligations.EncodePhaseAborts : Prop :=
  ∀ s : State, s.encodesNext →
    (∀ (e : Status) (u : Tail), s.block.encodeAll = .raised e u →
      (e = .invalidBitError ∨ e = .invalidEntry ∨ e = .capacityExceeded) ∧ s.encodeAborts e u.added.reverse) ∧
    (s.block.cfg.carrierLegal = true → s.block.ctrl.repeatCount ≠ 0 →
      (∀ (ts xs : List Token) (x : Token), s.block.ctrl.tokens = ts ++ x :: xs → validTokens ts → x ≠ 0x30 → x ≠ 0x31 →
        (∀ p ∈ headPrims s.block.cfg ts, p.emittable s.block.cfg) →
        s.block.buf.len.val + (wave s.block.cfg (headPrims s.block.cfg ts)).length ≤ 12000 →
        s.encodeAborts .invalidBitError (wave s.block.cfg (headPrims s.block.cfg ts))) ∧
      (∀ (ps qs : List Prim) (p : Prim), Calls s.block.cfg s.block.ctrl.tokens (ps ++ p :: qs) →
        (∀ q ∈ ps, q.emittable s.block.cfg) →
        (p.startsWithZero s.block.cfg → s.block.buf.len.val + (wave s.block.cfg ps).length ≤ 12000 →
          s.encodeAborts .invalidEntry (wave s.block.cfg ps)) ∧
        (p.continuesWithZero s.block.cfg → s.block.buf.len.val + (wave s.block.cfg ps).length < 12000 →
          s.encodeAborts .invalidEntry
            (wave s.block.cfg ps ++ [s.block.cfg.markEntry (BitVec.ofNat 32 s.block.cfg.onTime)])) ∧
        (p.continuesWithZero s.block.cfg → s.block.buf.len.val + (wave s.block.cfg ps).length = 12000 →
          s.encodeAborts .capacityExceeded (wave s.block.cfg ps))) ∧
      (∀ ps qs : List Prim, Calls s.block.cfg s.block.ctrl.tokens (ps ++ qs) →
        (∀ q ∈ ps, q.emittable s.block.cfg) → 12000 < s.block.buf.len.val + (wave s.block.cfg ps).length →
        s.encodeAborts .capacityExceeded ((wave s.block.cfg ps).take (12000 - s.block.buf.len.val))) ∧
      (validTokens s.block.ctrl.tokens →
        (∀ p ∈ allPrims s.block.cfg s.block.ctrl.tokens, p.emittable s.block.cfg) →
        12000 < s.block.buf.len.val + s.block.ctrl.repeatCount.toNat *
          (wave s.block.cfg (allPrims s.block.cfg s.block.ctrl.tokens)).length →
        s.encodeAborts .capacityExceeded ((List.replicate s.block.ctrl.repeatCount.toNat
          (wave s.block.cfg (allPrims s.block.cfg s.block.ctrl.tokens))).flatten.take
            (12000 - s.block.buf.len.val))))

/-- R240, R306: a TRANSMIT whose tokens are valid and fit, with a backend that answers Ok to everything, busy as often as it
likes and then idle: exactly the requests of R240's last row, in order, one response OK at the end, and the block back in
IDLE holding nothing. The events that bring command and answers are the model's form (notes/assumptions/1.md, 3.md, 5.md);
the number of steps is R306's list of them (notes/assumptions/17.md). -/
def Obligations.SuccessfulTransmission : Prop :=
  ∀ (s : State) (c : Command) (dI dL dC dS dH dP dB dD dT : Draw) (busy : List Draw) (rest : List Event),
    s.isReady → s.block.cfg.carrierLegal = true → c.word = 0x00000040 → c.args.rep ≠ 0 →
    exceeds s.params.maxTokens c.args.toks.length = false → validTokens c.args.toks →
    (∀ p ∈ allPrims s.block.cfg c.args.toks, p.emittable s.block.cfg) →
    c.args.rep.toNat * (wave s.block.cfg (allPrims s.block.cfg c.args.toks)).length ≤ 12000 →
    dI.ok = true → dL.ok = true → dC.ok = true → dS.ok = true → dH.ok = true → dP.ok = true →
    (∀ d ∈ busy, d.busy = true) → dB.busy = false →
    s.env.inbox = [.command c, .answer dI, .answer dL, .answer dC, .answer dS, .answer dH, .answer dP] ++
      busy.map Event.answer ++ [.answer dB, .answer dD, .answer dT] ++ rest →
    ∃ t : State, runSteps (11 + busy.length) s = .next t ∧
      t.isReady ∧ t.block.ctrl.session = false ∧ t.block.ctrl.handleHeld = false ∧ t.env.inbox = rest ∧
      t.block.buf.entries =
        (List.replicate c.args.rep.toNat (wave s.block.cfg (allPrims s.block.cfg c.args.toks))).flatten ∧
      t.env.log = s.env.log ++
        [.call .initBackend .ok, .call (.configureLine s.block.cfg.lineId true) .ok, .call .clearStaged .ok,
          .call (.stage t.block.buf.entries) (.okCount dS.count), .call .createHandle (.okHandle dH.handle),
          .call (.start dH.handle) .ok] ++
        List.replicate busy.length (.call (.isBusy dH.handle) (.busy true)) ++
        [.call (.isBusy dH.handle) (.busy false), .call (.deleteHandle dH.handle) .done, .call .terminate .done,
          .response .ok .none]

/-- R240, the other rows: from T_INIT, the requests each failure sends, its one response, and the block back in IDLE holding no
session (after `initialize` Err, which opens none, provided T_INIT held none, as R37 says). The events that bring the answers,
and with them the number of steps, are the model's form (notes/assumptions/1.md, 5.md). -/
def Obligations.FailedTransmissions : Prop :=
  ∀ (s : State) (dI dL dC dS dH dP dD dT : Draw), s.block.ctrl.phase = .tInit → s.block.ctrl.pend = .ok →
    (dI.ok = false → s.env.inbox = [.answer dI] →
      ∃ t : State, runSteps 1 s = .next t ∧ t.isIdle ∧ (s.block.ctrl.session = false → t.block.ctrl.session = false) ∧
        t.env.log = s.env.log ++ [.call .initBackend .err, .response .backendInitError .none]) ∧
    (dI.ok = true → dL.ok = false → s.env.inbox = [.answer dI, .answer dL, .answer dT] →
      ∃ t : State, runSteps 3 s = .next t ∧ t.isIdle ∧ t.block.ctrl.session = false ∧
        t.env.log = s.env.log ++ [.call .initBackend .ok, .call (.configureLine s.block.cfg.lineId true) .err,
          .call .terminate .done, .response .backendInitError .none]) ∧
    (dI.ok = true → dL.ok = true → s.block.encodeAll.status ≠ .ok →
      s.env.inbox = [.answer dI, .answer dL, .answer dT] →
      ∃ t : State, runSteps 4 s = .next t ∧ t.isIdle ∧ t.block.ctrl.session = false ∧
        t.env.log = s.env.log ++ [.call .initBackend .ok, .call (.configureLine s.block.cfg.lineId true) .ok,
          .call .terminate .done, .response s.block.encodeAll.status .none]) ∧
    (dI.ok = true → dL.ok = true → s.block.encodeAll.status = .ok →
      (dC.ok = false → s.env.inbox = [.answer dI, .answer dL, .answer dC, .answer dT] →
        ∃ t : State, runSteps 5 s = .next t ∧ t.isIdle ∧ t.block.ctrl.session = false ∧
          t.env.log = s.env.log ++ [.call .initBackend .ok, .call (.configureLine s.block.cfg.lineId true) .ok,
            .call .clearStaged .err, .call .terminate .done, .response .backendTransmitError .none]) ∧
      (dC.ok = true → dS.ok = false → s.env.inbox = [.answer dI, .answer dL, .answer dC, .answer dS, .answer dT] →
        ∃ t : State, runSteps 6 s = .next t ∧ t.isIdle ∧ t.block.ctrl.session = false ∧
          t.env.log = s.env.log ++ [.call .initBackend .ok, .call (.configureLine s.block.cfg.lineId true) .ok,
            .call .clearStaged .ok, .call (.stage t.block.buf.entries) .err, .call .terminate .done,
            .response .backendTransmitError .none]) ∧
      (dC.ok = true → dS.ok = true → dH.ok = false →
        s.env.inbox = [.answer dI, .answer dL, .answer dC, .answer dS, .answer dH, .answer dT] →
        ∃ t : State, runSteps 7 s = .next t ∧ t.isIdle ∧ t.block.ctrl.session = false ∧
          t.env.log = s.env.log ++ [.call .initBackend .ok, .call (.configureLine s.block.cfg.lineId true) .ok,
            .call .clearStaged .ok, .call (.stage t.block.buf.entries) (.okCount dS.count), .call .createHandle .err,
            .call .terminate .done, .response .backendTransmitError .none]) ∧
      (dC.ok = true → dS.ok = true → dH.ok = true → dP.ok = false →
        s.env.inbox = [.answer dI, .answer dL, .answer dC, .answer dS, .answer dH, .answer dP, .answer dD, .answer dT] →
        ∃ t : State, runSteps 9 s = .next t ∧ t.isIdle ∧ t.block.ctrl.session = false ∧
          t.block.ctrl.handleHeld = false ∧
          t.env.log = s.env.log ++ [.call .initBackend .ok, .call (.configureLine s.block.cfg.lineId true) .ok,
            .call .clearStaged .ok, .call (.stage t.block.buf.entries) (.okCount dS.count),
            .call .createHandle (.okHandle dH.handle), .call (.start dH.handle) .err,
            .call (.deleteHandle dH.handle) .done, .call .terminate .done, .response .backendTransmitError .none]))

/-- R236: a backend that answers busy for ever keeps the block in T_POLL for ever: a real infinite run, with no response. The
standing answer is the model's form of such a backend (notes/assumptions/4.md). -/
def Obligations.PollingHasNoBound : Prop :=
  ∀ (s : State) (d : Draw), s.block.ctrl.phase = .tPoll → s.env.inbox = [] → s.env.standing = some d →
    d.busy = true → ∀ n : Nat, ∃ t : State, runSteps n s = .next t ∧ t.block = s.block ∧
      t.env.log = s.env.log ++ List.replicate n (.call (.isBusy s.block.ctrl.handle) (.busy true))

/-- R221: with no answer of the backend the block stays as it is, in every phase that waits for one. The form of waiting
(a step that changes nothing) is the model's choice (notes/assumptions/6.md). -/
def Obligations.NoAnswerLeavesTheBlockWaiting : Prop :=
  ∀ s : State, s.block.ctrl.phase ≠ .tEncode → s.env.inbox = [] → s.env.standing = none →
    ∀ n : Nat, runSteps n s = .next s

/-- R71, R238: after T_ENCODE no step but a reset changes the buffer until Finish; the hand-off is entered only from a
T_ENCODE that met no error; and every `stage` among the outputs a step adds is sent in T_STAGE, with the buffer as it
stands. -/
def Obligations.NoPartialWaveformIsStaged : Prop :=
  ∀ s t : State, step s = .next t →
    (s.noReset → s.block.ctrl.phase ≠ .idle → s.block.ctrl.phase ≠ .tEncode → t.block.buf = s.block.buf) ∧
    (t.block.ctrl.phase = .tClear → s.block.ctrl.phase ≠ .tClear →
      s.block.ctrl.phase = .tEncode ∧ s.block.encodeAll.status = .ok) ∧
    (t.block.ctrl.phase = .tStage → s.block.ctrl.phase = .tStage ∨ s.block.ctrl.phase = .tClear) ∧
    ∀ out, t.env.log = s.env.log ++ out → ∀ es a, .call (.stage es) a ∈ out →
      s.block.ctrl.phase = .tStage ∧ es = s.block.buf.entries

/-- R237: release on every exit, over every step but a reset: sessions opened are sessions closed plus the one held, and the
same for handles. -/
def Obligations.EveryStepKeepsTheLedger : Prop :=
  ∀ s t : State, s.Inv → s.LedgerBalanced → s.noReset → step s = .next t → t.LedgerBalanced

/-! ### Frames -/

/-- R20, R38, R272: what the commands other than CONFIGURE, TRANSMIT and TRANSMIT_BYTES leave unchanged: CFG, CTRL, the entries below
the length (unless it is set to 0), the surroundings but for one response; BUF_LEN, BUF_READ and PACK leave the whole
block unchanged. -/
def Obligations.AtomicCommandFrames : Prop :=
  ∀ (i : Instr) (s t : State), (∀ a, i ≠ .configure a) → (∀ ts r, i ≠ .transmit ts r) →
    (∀ bs w v r, i ≠ .transmitBytes bs w v r) → exec i s = .next t →
    t.block.cfg = s.block.cfg ∧ t.block.cfgValid = s.block.cfgValid ∧ t.block.ctrl = s.block.ctrl ∧
    t.params = s.params ∧ t.env.inbox = s.env.inbox ∧ t.env.standing = s.env.standing ∧
    (i = .bufReset ∨ s.block.buf.len.val ≤ t.block.buf.len.val) ∧
    (∀ k, k < s.block.buf.len.val ∨ t.block.buf.len.val ≤ k → t.block.buf.entry k = s.block.buf.entry k) ∧
    ((i = .bufLen ∨ (∃ k, i = .bufRead k) ∨ ∃ bs w v, i = .pack bs w v) → t.block = s.block)

/-! ### Reset and the whole machine -/

/-- R290, R291: the reset event, in every state and phase: every piece of state at its reset value, no response, no
request. Answers that come after it are ignored. The values of the registers R290 leaves unspecified are the model's
(notes/assumptions/10.md, 11.md), and so are the record of the request it cuts off and the form of a late answer
(notes/assumptions/7.md). -/
def Obligations.ResetEventLeavesTheResetState : Prop :=
  (∀ (s : State) (rest : List Event), s.env.inbox = .reset :: rest →
    ∃ t, step s = .next t ∧ t.block = State.reset.block ∧ t.params = s.params ∧ t.env.inbox = rest ∧
      t.env.log = s.env.log ++ s.block.pendingRequest.toList.map .abandoned ∧
      t.block.cfgValid = false ∧ t.block.buf.len.val = 0 ∧ t.block.ctrl.phase = .idle ∧ t.block.ctrl.pend = .ok ∧
      t.block.ctrl.session = false ∧ t.block.ctrl.handleHeld = false) ∧
  (∀ (s : State) (d : Draw) (rest : List Event), s.env.inbox = .lateAnswer d :: rest → step s = .next (s.withInbox rest)) ∧
  (∀ (s : State) (d : Draw) (rest : List Event), s.isIdle → s.env.inbox = .answer d :: rest →
    step s = .next (s.withInbox rest))

/-- The invariant (R24 to R28, R32, R35 to R37) holds at reset. -/
def Obligations.ResetStateIsGood : Prop := State.reset.Inv

/-- The invariant (R24 to R28, R32, R35 to R37) is kept by every step from every state that meets it, whatever the event. -/
def Obligations.EveryStepKeepsTheBlockGood : Prop :=
  ∀ s t : State, s.Inv → step s = .next t → t.Inv

/-- No step faults or is refused (93: no behaviour is a fault; R92, R271: every command is answered), and the open
parameters stay as they are (R9). -/
def Obligations.EveryStepAnswersANextState : Prop :=
  ∀ s : State, ∃ t, step s = .next t ∧ t.params = s.params ∧ t.env.standing = s.env.standing ∧
    s.env.log <+: t.env.log

/-- R290: no command can tell apart two states that differ only in what the spec leaves unspecified: both step, to states
that cannot be told apart either, with the same outputs. -/
def Obligations.UnspecifiedValuesAreUnobservable : Prop :=
  ∀ s t : State, Indistinguishable s t →
    ∃ s' t', step s = .next s' ∧ step t = .next t' ∧ Indistinguishable s' t'

/-- R10: the block never computes with a handle. A step from a state with every handle renamed, the one stored and those still
to come, is the same step with every handle renamed, whatever the renaming; a reset, which puts the model's own value into
CTRL.HANDLE (notes/assumptions/10.md), needs that value kept. -/
def Obligations.HandlesAreOnlyPassedBack : Prop :=
  ∀ (f : Handle → Handle) (s t : State), (s.noReset ∨ f Handle.first = Handle.first) → step s = .next t →
    step (s.mapHandles f) = .next (t.mapHandles f)
end

