-- ==== Sys2Proof/Laws/State.lean ====
section
/-! SUPPORT. One lemma per field for each update of the state, true by `rfl`. -/

namespace Sys2Proof.Machine

variable (s : State) (b : Block) (out : List Output) (rest : List Event) (p : Phase) (e : Status) (st : Status) (v : Value)

@[simp] theorem emit_block : (s.emit b out).block = b := rfl
@[simp] theorem emit_params : (s.emit b out).params = s.params := rfl
@[simp] theorem emit_inbox : (s.emit b out).env.inbox = s.env.inbox := rfl
@[simp] theorem emit_standing : (s.emit b out).env.standing = s.env.standing := rfl
@[simp] theorem emit_log : (s.emit b out).env.log = s.env.log ++ out := rfl
@[simp] theorem respond_block : (s.respond st v).block = s.block := rfl
@[simp] theorem respond_params : (s.respond st v).params = s.params := rfl
@[simp] theorem respond_inbox : (s.respond st v).env.inbox = s.env.inbox := rfl
@[simp] theorem respond_standing : (s.respond st v).env.standing = s.env.standing := rfl
@[simp] theorem respond_log : (s.respond st v).env.log = s.env.log ++ [.response st v] := rfl
@[simp] theorem withInbox_block : (s.withInbox rest).block = s.block := rfl
@[simp] theorem withInbox_params : (s.withInbox rest).params = s.params := rfl
@[simp] theorem withInbox_inbox : (s.withInbox rest).env.inbox = rest := rfl
@[simp] theorem withInbox_standing : (s.withInbox rest).env.standing = s.env.standing := rfl
@[simp] theorem withInbox_log : (s.withInbox rest).env.log = s.env.log := rfl
@[simp] theorem goTo_cfgValid : (b.goTo p).cfgValid = b.cfgValid := rfl
@[simp] theorem goTo_cfg : (b.goTo p).cfg = b.cfg := rfl
@[simp] theorem goTo_buf : (b.goTo p).buf = b.buf := rfl
@[simp] theorem goTo_phase : (b.goTo p).ctrl.phase = p := rfl
@[simp] theorem goTo_tokens : (b.goTo p).ctrl.tokens = b.ctrl.tokens := rfl
@[simp] theorem goTo_repeatCount : (b.goTo p).ctrl.repeatCount = b.ctrl.repeatCount := rfl
@[simp] theorem goTo_pend : (b.goTo p).ctrl.pend = b.ctrl.pend := rfl
@[simp] theorem goTo_session : (b.goTo p).ctrl.session = b.ctrl.session := rfl
@[simp] theorem goTo_handleHeld : (b.goTo p).ctrl.handleHeld = b.ctrl.handleHeld := rfl
@[simp] theorem goTo_handle : (b.goTo p).ctrl.handle = b.ctrl.handle := rfl
@[simp] theorem failTo_cfgValid : (b.failTo e p).cfgValid = b.cfgValid := rfl
@[simp] theorem failTo_cfg : (b.failTo e p).cfg = b.cfg := rfl
@[simp] theorem failTo_buf : (b.failTo e p).buf = b.buf := rfl
@[simp] theorem failTo_phase : (b.failTo e p).ctrl.phase = p := rfl
@[simp] theorem failTo_tokens : (b.failTo e p).ctrl.tokens = b.ctrl.tokens := rfl
@[simp] theorem failTo_repeatCount : (b.failTo e p).ctrl.repeatCount = b.ctrl.repeatCount := rfl
@[simp] theorem failTo_pend : (b.failTo e p).ctrl.pend = e := rfl
@[simp] theorem failTo_session : (b.failTo e p).ctrl.session = b.ctrl.session := rfl
@[simp] theorem failTo_handleHeld : (b.failTo e p).ctrl.handleHeld = b.ctrl.handleHeld := rfl
@[simp] theorem failTo_handle : (b.failTo e p).ctrl.handle = b.ctrl.handle := rfl
@[simp] theorem finish_block : b.finish.1 = b.goTo .idle := rfl
@[simp] theorem finish_out : b.finish.2 = [.response b.ctrl.pend .none] := rfl

variable (a : List Token) (r : Word)

@[simp] theorem accept_cfgValid : (b.accept a r).cfgValid = b.cfgValid := rfl
@[simp] theorem accept_cfg : (b.accept a r).cfg = b.cfg := rfl
@[simp] theorem accept_len : (b.accept a r).buf.len = 0 := rfl
@[simp] theorem accept_cells : (b.accept a r).buf.cells = b.buf.cells := rfl
@[simp] theorem accept_phase : (b.accept a r).ctrl.phase = .tInit := rfl
@[simp] theorem accept_tokens : (b.accept a r).ctrl.tokens = a := rfl
@[simp] theorem accept_repeatCount : (b.accept a r).ctrl.repeatCount = r := rfl
@[simp] theorem accept_pend : (b.accept a r).ctrl.pend = .ok := rfl
@[simp] theorem accept_session : (b.accept a r).ctrl.session = b.ctrl.session := rfl
@[simp] theorem accept_handleHeld : (b.accept a r).ctrl.handleHeld = b.ctrl.handleHeld := rfl
@[simp] theorem accept_handle : (b.accept a r).ctrl.handle = b.ctrl.handle := rfl
@[simp] theorem clear_len : b.buf.clear.len = 0 := rfl
@[simp] theorem clear_cells : b.buf.clear.cells = b.buf.cells := rfl
@[simp] theorem clear_entry (i : Nat) : b.buf.clear.entry i = b.buf.entry i := rfl

/-- A response is an emission that leaves the block as it is. -/
theorem respond_eq_emit : s.respond st v = s.emit s.block [.response st v] := rfl

/-- Two emissions in a row are one. -/
theorem emit_emit (b' : Block) (out' : List Output) : (s.emit b out).emit b' out' = s.emit b' (out ++ out') := by
  simp [State.emit]

/-- A command in IDLE is carried out. -/
theorem whenIdle_idle {s : State} (h : s.block.ctrl.phase = .idle) (act : State → State) :
    whenIdle s act = .next (act s) := by simp [whenIdle, h]

/-- A command outside IDLE is answered Busy. -/
theorem whenIdle_busy {s : State} (h : s.block.ctrl.phase ≠ .idle) (act : State → State) :
    whenIdle s act = .next (s.respond .busy .none) := by simp [whenIdle, h]

/-- A configured block goes on. -/
theorem whenConfigured_valid {s : State} (h : s.block.cfgValid = true) (act : State → State) :
    whenConfigured s act = act s := by simp [whenConfigured, h]

end Sys2Proof.Machine
end

