-- ==== Sys2Proof/Laws/Buffer.lean ====
section
/-! SUPPORT. The laws of the buffer: reading after storing, the canonical form, what an append can do, and that storing an
operation's appends at its end is R120's write of `BUF.E[BUF.LEN]`, append by append. -/

namespace Sys2Proof.Machine

/-! ### Reading and storing -/

theorem readCell_indexed (es : List Entry) : ∀ (i k : Nat) (rest : List (Nat × Entry)),
    (∀ p ∈ rest.head?, i + es.length ≤ p.1) →
    readCell (indexed i es ++ rest) k =
      if k < i then Entry.unwritten
      else if h : k - i < es.length then es[k - i] else readCell rest k := by
  induction es with
  | nil =>
    intro i k rest hr
    cases rest with
    | nil => simp [indexed, readCell]
    | cons p r =>
      obtain ⟨j, e⟩ := p
      have : i ≤ j := by simpa using hr (j, e) (by simp)
      by_cases hk : k < i
      · simp [indexed, readCell, hk, show k < j by omega]
      · simp [indexed, hk]
  | cons e es ih =>
    intro i k rest hr
    have hr' : ∀ p ∈ rest.head?, i + 1 + es.length ≤ p.1 := fun p hp => by
      have := hr p hp; simp at this; omega
    have hi := ih (i + 1) k rest hr'
    by_cases he : e = Entry.unwritten
    · rw [indexed, if_pos he, hi]
      by_cases hk : k < i
      · simp [hk, show k < i + 1 by omega]
      · by_cases hk' : k = i
        · subst hk'; simp [he]
        · have h1 : ¬ k < i + 1 := by omega
          have h2 : k - i = (k - (i + 1)) + 1 := by omega
          simp [hk, h1, h2]
    · rw [indexed, if_neg he, List.cons_append, readCell]
      by_cases hk : k < i
      · simp [hk]
      · by_cases hk' : k = i
        · subst hk'; simp
        · have h1 : ¬ k < i + 1 := by omega
          have h2 : k - i = (k - (i + 1)) + 1 := by omega
          simp [hk, hk', h1, h2, hi]

theorem readCell_append_of_lt (xs rest : List (Nat × Entry)) (k : Nat) (h : ∀ p ∈ xs, p.1 < k) :
    readCell (xs ++ rest) k = readCell rest k := by
  induction xs with
  | nil => rfl
  | cons p xs ih =>
    obtain ⟨j, e⟩ := p
    have hj : j < k := h (j, e) (by simp)
    have : ¬ k < j ∧ ¬ k = j := by omega
    simp [readCell, this.1, this.2, ih (fun p hp => h p (by simp [hp]))]

/-- Below a bound, only the leading part of the list under that bound is looked at. -/
theorem readCell_takeWhile (cells rest : List (Nat × Entry)) (b k : Nat) (hk : k < b)
    (hr : ∀ p ∈ rest.head?, b ≤ p.1) :
    readCell (cells.takeWhile (fun p => p.1 < b) ++ rest) k = readCell cells k := by
  induction cells with
  | nil =>
    cases rest with
    | nil => rfl
    | cons p r =>
      obtain ⟨j, e⟩ := p
      have : b ≤ j := by simpa using hr (j, e) (by simp)
      simp [readCell, show k < j by omega]
  | cons p cells ih =>
    obtain ⟨j, e⟩ := p
    by_cases hj : j < b
    · simp [hj, readCell, ih]
    · have h1 : k < j := by omega
      cases rest with
      | nil => simp [hj, readCell, h1]
      | cons q r =>
        obtain ⟨j', e'⟩ := q
        have : b ≤ j' := by simpa using hr (j', e') (by simp)
        simp [hj, readCell, h1, show k < j' by omega]

/-- At or above a bound, the leading part of the list under that bound is not looked at. -/
theorem readCell_dropWhile (cells : List (Nat × Entry)) (b k : Nat) (hk : b ≤ k) :
    readCell (cells.dropWhile (fun p => p.1 < b)) k = readCell cells k := by
  induction cells with
  | nil => rfl
  | cons p cells ih =>
    obtain ⟨j, e⟩ := p
    by_cases hj : j < b
    · have : ¬ k < j ∧ ¬ k = j := by omega
      simp [hj, readCell, this.1, this.2, ih]
    · simp [hj]

theorem dropWhile_head (cells : List (Nat × Entry)) (b : Nat) :
    ∀ p ∈ (cells.dropWhile (fun p => p.1 < b)).head?, b ≤ p.1 := by
  induction cells with
  | nil => simp
  | cons p cells ih =>
    by_cases hj : p.1 < b
    · simpa [hj] using ih
    · simp [hj]; omega

theorem indexed_fst {i : Nat} {es : List Entry} {p : Nat × Entry} (h : p ∈ indexed i es) :
    i ≤ p.1 ∧ p.1 < i + es.length ∧ p.2 ≠ Entry.unwritten ∧ p.2 ∈ es := by
  induction es generalizing i with
  | nil => simp [indexed] at h
  | cons e es ih =>
    rw [indexed] at h
    split at h
    · have := ih h
      exact ⟨by omega, by rw [List.length_cons]; omega, this.2.2.1, List.mem_cons_of_mem _ this.2.2.2⟩
    · rename_i hne
      rcases List.mem_cons.1 h with rfl | h
      · exact ⟨Nat.le_refl _, by simp, hne, by simp⟩
      · have := ih h
        exact ⟨by omega, by rw [List.length_cons]; omega, this.2.2.1, List.mem_cons_of_mem _ this.2.2.2⟩

/-- Reading after storing: the stored entries at their indices, everything else as before. -/
theorem readCell_storeFrom (cells : List (Nat × Entry)) (i k : Nat) (es : List Entry) :
    readCell (storeFrom cells i es) k =
      if h : i ≤ k ∧ k - i < es.length then es[k - i]'h.2 else readCell cells k := by
  have hd := dropWhile_head cells (i + es.length)
  have hix := readCell_indexed es i k (cells.dropWhile (fun p => p.1 < i + es.length)) hd
  have hhead : ∀ p ∈ (indexed i es ++ cells.dropWhile (fun p => p.1 < i + es.length)).head?, i ≤ p.1 := by
    intro p hp
    cases hx : indexed i es with
    | nil => rw [hx] at hp; have := hd p (by simpa using hp); omega
    | cons q qs =>
      rw [hx] at hp
      have hq : q = p := by simpa using hp
      subst hq
      exact (indexed_fst (p := q) (by rw [hx]; simp)).1
  rw [storeFrom, List.append_assoc]
  by_cases hk : k < i
  · rw [readCell_takeWhile _ _ _ _ hk hhead, dif_neg (by omega)]
  · rw [readCell_append_of_lt _ _ _ (fun p hp => by
      have := List.mem_takeWhile_imp hp; simp at this; omega), hix]
    by_cases hl : k - i < es.length
    · simp [hk, hl, show i ≤ k by omega]
    · simp [hk, hl, readCell_dropWhile _ _ _ (show i + es.length ≤ k by omega)]

/-- Storing keeps the canonical form, as long as it stays within the address space (R60). -/
theorem storeFrom_wf {cells : List (Nat × Entry)} {i : Nat} {es : List Entry}
    (hs : (cells.map Prod.fst).Pairwise (· < ·)) (hc : ∀ p ∈ cells, p.1 < bufCap ∧ p.2 ≠ Entry.unwritten)
    (hi : i + es.length ≤ bufCap) :
    ((storeFrom cells i es).map Prod.fst).Pairwise (· < ·) ∧
      ∀ p ∈ storeFrom cells i es, p.1 < bufCap ∧ p.2 ≠ Entry.unwritten := by
  have hix : ∀ (i : Nat) (es : List Entry), ((indexed i es).map Prod.fst).Pairwise (· < ·) := by
    intro i es
    induction es generalizing i with
    | nil => simp [indexed]
    | cons e es ih =>
      rw [indexed]
      split
      · exact ih _
      · refine List.pairwise_cons.2 ⟨fun a ha => ?_, ih _⟩
        obtain ⟨p, hp, rfl⟩ := List.mem_map.1 ha
        have := (indexed_fst hp).1
        dsimp only; omega
  have hdrop : ∀ p ∈ cells.dropWhile (fun p => p.1 < i + es.length), i + es.length ≤ p.1 := by
    intro p hp
    have hsub : (cells.dropWhile (fun p => p.1 < i + es.length)).Sublist cells := List.dropWhile_sublist _
    have hsp := List.Pairwise.sublist (hsub.map Prod.fst) hs
    have hh := dropWhile_head cells (i + es.length)
    cases hx : cells.dropWhile (fun p => p.1 < i + es.length) with
    | nil => rw [hx] at hp; simp at hp
    | cons q qs =>
      rw [hx] at hp hsp hh
      have hq : i + es.length ≤ q.1 := hh q (by simp)
      rcases List.mem_cons.1 hp with rfl | hp
      · exact hq
      · have := (List.pairwise_cons.1 hsp).1 p.1 (List.mem_map.2 ⟨p, hp, rfl⟩)
        omega
  constructor
  · rw [storeFrom, List.map_append, List.map_append, List.pairwise_append, List.pairwise_append]
    refine ⟨⟨List.Pairwise.sublist ((List.takeWhile_sublist _).map _) hs, hix _ _, ?_⟩,
      List.Pairwise.sublist ((List.dropWhile_sublist _).map _) hs, ?_⟩
    · intro a ha b hb
      obtain ⟨p, hp, rfl⟩ := List.mem_map.1 ha
      obtain ⟨q, hq, rfl⟩ := List.mem_map.1 hb
      have h1 := List.mem_takeWhile_imp hp
      have h2 := (indexed_fst hq).1
      simp at h1; omega
    · intro a ha b hb
      obtain ⟨q, hq, rfl⟩ := List.mem_map.1 hb
      have h2 := hdrop q hq
      rw [← List.map_append] at ha
      obtain ⟨p, hp, rfl⟩ := List.mem_map.1 ha
      rcases List.mem_append.1 hp with hp | hp
      · have h1 := List.mem_takeWhile_imp hp
        simp at h1; omega
      · have := (indexed_fst hp).2.1
        omega
  · intro p hp
    rw [storeFrom] at hp
    rcases List.mem_append.1 hp with hp | hp
    · rcases List.mem_append.1 hp with hp | hp
      · exact hc p ((List.takeWhile_sublist _).subset hp)
      · have := indexed_fst hp
        exact ⟨by omega, this.2.2.1⟩
    · exact hc p ((List.dropWhile_sublist _).subset hp)

/-! ### Entries -/

theorem valid_ne_unwritten {e : Entry} (h : e.valid) : e ≠ Entry.unwritten := by
  rintro rfl; exact h.1 rfl

/-- R120's test, as the condition on the entry. -/
theorem append_test (m s d : Word) :
    (d == 0 || ((m == 0) == (s == 0))) = false ↔ (Entry.mk m s d).valid := by
  by_cases hd : d = 0 <;> by_cases hm : m = 0 <;> by_cases hs : s = 0 <;> simp_all [Entry.valid]

/-! ### Appends -/

/-- `t'` is `t` with the entries `es` appended, all of them valid. -/
def Tail.Extends (t t' : Tail) (es : List Entry) : Prop :=
  t'.len.val = t.len.val + es.length ∧ t'.added = es.reverse ++ t.added ∧ ∀ e ∈ es, e.valid

theorem Tail.Extends.refl (t : Tail) : t.Extends t [] := ⟨by simp, by simp, by simp⟩

theorem Tail.Extends.trans {t u v : Tail} {es fs : List Entry} (h : t.Extends u es) (k : u.Extends v fs) :
    t.Extends v (es ++ fs) := by
  refine ⟨?_, ?_, ?_⟩
  · rw [k.1, h.1, List.length_append]; omega
  · rw [k.2.1, h.2.1]; simp
  · intro e he
    rcases List.mem_append.1 he with he | he
    · exact h.2.2 e he
    · exact k.2.2 e he

/-- A valid entry is appended while there is room. -/
theorem append_room {m s d : Word} {t : Tail} (hv : (Entry.mk m s d).valid) (h : t.len.val < bufCap) :
    append m s d t = .done ⟨⟨t.len.val + 1, Nat.succ_lt_succ h⟩, ⟨m, s, d⟩ :: t.added⟩ := by
  have := (append_test m s d).2 hv
  simp only [append, this, h]; simp

/-- A valid entry is refused by a full buffer. -/
theorem append_full {m s d : Word} {t : Tail} (hv : (Entry.mk m s d).valid) (h : t.len.val = bufCap) :
    append m s d t = .raised .capacityExceeded t := by
  have := (append_test m s d).2 hv
  simp only [append, this]; simp [h]

/-- An entry that is not valid is refused, full buffer or not (R120, D10). -/
theorem append_invalid {m s d : Word} (t : Tail) (hv : ¬ (Entry.mk m s d).valid) :
    append m s d t = .raised .invalidEntry t := by
  have : (d == 0 || ((m == 0) == (s == 0))) = true := by
    by_contra h
    exact hv ((append_test m s d).1 (by simpa using h))
  simp only [append, this]; simp

/-- Everything `Append` can do (R120). -/
theorem append_cases (m s d : Word) (t : Tail) :
    (∃ t', append m s d t = .done t' ∧ t.Extends t' [⟨m, s, d⟩]) ∨
    (append m s d t = .raised .invalidEntry t ∧ ¬ (Entry.mk m s d).valid) ∨
    (append m s d t = .raised .capacityExceeded t ∧ t.len.val = bufCap) := by
  by_cases hv : (Entry.mk m s d).valid
  · by_cases h : t.len.val < bufCap
    · exact .inl ⟨_, append_room hv h, ⟨by simp, by simp, by simpa using hv⟩⟩
    · have : t.len.val = bufCap := by have := t.len.isLt; omega
      exact .inr (.inr ⟨append_full hv this, this⟩)
  · exact .inr (.inl ⟨append_invalid t hv, hv⟩)

/-! ### Storing an operation's appends -/

/-- Storing what an operation appended: its entries from the old length on, everything else as before. -/
theorem store_appended {b : Buffer} {t : Tail} {es : List Entry} (h : b.tail.Extends t es) :
    Appended b (b.store t) es := by
  have ha : t.added.reverse = es := by simp [h.2.1, Buffer.tail]
  refine ⟨by simpa [Buffer.store, Buffer.tail] using h.1, ?_, ?_⟩
  · intro k hk
    have hc : b.len.val ≤ b.len.val + k ∧ b.len.val + k - b.len.val < es.length := by omega
    simp only [Buffer.store, Buffer.entry, readCell_storeFrom, ha]
    rw [dif_pos hc]
    simp
  · intro i hi
    have hc : ¬ (b.len.val ≤ i ∧ i - b.len.val < es.length) := by omega
    simp only [Buffer.store, Buffer.entry, readCell_storeFrom, ha]
    rw [dif_neg hc]

/-- Storing keeps the buffer's canonical form. -/
theorem store_wf {b : Buffer} {t : Tail} {es : List Entry} (hb : b.wf) (h : b.tail.Extends t es) : (b.store t).wf := by
  have ha : t.added.reverse = es := by simp [h.2.1, Buffer.tail]
  have hl : b.len.val + es.length ≤ bufCap := by
    have h1 := h.1
    have h2 := t.len.isLt
    have h3 : (b.tail).len = b.len := rfl
    rw [h3] at h1
    omega
  have := storeFrom_wf (i := b.len.val) (es := es) hb.1 hb.2 hl
  rw [← ha] at this
  exact this

/-- Every entry below the new length is valid if every entry below the old one was (R32). -/
theorem store_entries_valid {b : Buffer} {t : Tail} {es : List Entry} (h : b.tail.Extends t es)
    (hb : ∀ i, i < b.len.val → (b.entry i).valid) : ∀ i, i < (b.store t).len.val → ((b.store t).entry i).valid := by
  intro i hi
  have hs := store_appended h
  rw [hs.1] at hi
  by_cases hl : i < b.len.val
  · rw [hs.2.2 i (.inl hl)]; exact hb i hl
  · have := hs.2.1 (i - b.len.val) (by omega)
    rw [show b.len.val + (i - b.len.val) = i by omega] at this
    rw [this]
    exact h.2.2 _ (List.getElem_mem _)

theorem store_tail (b : Buffer) (i : Nat) : (b.store b.tail).entry i = b.entry i :=
  (store_appended (Tail.Extends.refl b.tail)).2.2 i (by simp; omega)

/-- R120, append by append: if an operation so far leaves the buffer `b1`, one more append of `{m, s, d}` leaves `b1` with
that entry at index `BUF.LEN` and every other index as it was. -/
theorem store_append {b : Buffer} {t t' : Tail} {es : List Entry} {m s d : Word} (h : b.tail.Extends t es)
    (ha : append m s d t = .done t') : Appended (b.store t) (b.store t') [⟨m, s, d⟩] := by
  rcases append_cases m s d t with ⟨u, hu, hx⟩ | ⟨hu, -⟩ | ⟨hu, -⟩
  · rw [ha] at hu
    obtain rfl : t' = u := by simpa using hu
    have h1 := store_appended h
    have h2 := store_appended (h.trans hx)
    have hl : (b.store t).len.val = b.len.val + es.length := h1.1
    refine ⟨?_, ?_, ?_⟩
    · rw [h2.1, hl]; simp; omega
    · intro k hk
      obtain rfl : k = 0 := by simpa using hk
      have := h2.2.1 es.length (by simp)
      simpa [hl] using this
    · intro i hi
      rw [hl] at hi
      simp at hi
      by_cases h3 : i < b.len.val
      · rw [h2.2.2 i (.inl h3), h1.2.2 i (.inl h3)]
      · by_cases h4 : i < b.len.val + es.length
        · have e1 := h1.2.1 (i - b.len.val) (by omega)
          have e2 := h2.2.1 (i - b.len.val) (by simp; omega)
          rw [show b.len.val + (i - b.len.val) = i by omega] at e1 e2
          rw [e1, e2, List.getElem_append_left]
        · rw [h2.2.2 i (.inr (by simp; omega)), h1.2.2 i (.inr (by omega))]
  · rw [ha] at hu; simp at hu
  · rw [ha] at hu; simp at hu

theorem indexed_append (i : Nat) (es fs : List Entry) : indexed i (es ++ fs) = indexed i es ++ indexed (i + es.length) fs := by
  induction es generalizing i with
  | nil => rfl
  | cons e es ih =>
    simp only [List.cons_append, indexed, ih, List.length_cons]
    rw [show i + 1 + es.length = i + (es.length + 1) by omega]
    split <;> simp

theorem dropWhile_dropWhile_le (cells : List (Nat × Entry)) (a b : Nat) (h : a ≤ b) :
    (cells.dropWhile (fun p => p.1 < a)).dropWhile (fun p => p.1 < b) = cells.dropWhile (fun p => p.1 < b) := by
  induction cells with
  | nil => rfl
  | cons p cells ih =>
    by_cases ha : p.1 < a
    · have : p.1 < b := by omega
      simp [ha, this, ih]
    · simp [ha]

theorem takeWhile_dropWhile_nil (cells : List (Nat × Entry)) (a : Nat) :
    (cells.dropWhile (fun p => p.1 < a)).takeWhile (fun p => p.1 < a) = [] := by
  induction cells with
  | nil => rfl
  | cons p cells ih =>
    by_cases ha : p.1 < a
    · simp [ha, ih]
    · simp [ha]

/-- Two stores in a row, the second where the first ended, are one store. -/
theorem storeFrom_storeFrom (cells : List (Nat × Entry)) (i : Nat) (es fs : List Entry) :
    storeFrom (storeFrom cells i es) (i + es.length) fs = storeFrom cells i (es ++ fs) := by
  have hx : ∀ p ∈ cells.takeWhile (fun p => p.1 < i) ++ indexed i es, p.1 < i + es.length := by
    intro p hp
    rcases List.mem_append.1 hp with hp | hp
    · have := List.mem_takeWhile_imp hp; simp at this; omega
    · exact (indexed_fst hp).2.1
  have e1 : (storeFrom cells i es).takeWhile (fun p => p.1 < i + es.length) =
      cells.takeWhile (fun p => p.1 < i) ++ indexed i es := by
    rw [storeFrom, List.takeWhile_append_of_pos (by simpa using hx), takeWhile_dropWhile_nil, List.append_nil]
  have e2 : (storeFrom cells i es).dropWhile (fun p => p.1 < i + es.length + fs.length) =
      cells.dropWhile (fun p => p.1 < i + es.length + fs.length) := by
    rw [storeFrom, List.dropWhile_append_of_pos (by intro p hp; have := hx p hp; simp; omega),
      dropWhile_dropWhile_le _ _ _ (by omega)]
  rw [storeFrom, e1, e2, storeFrom, indexed_append, List.length_append, Nat.add_assoc]
  simp

/-- Storing an operation's appends in two parts is storing them at once. -/
theorem store_store {b : Buffer} {t u : Tail} {es fs : List Entry} (h : b.tail.Extends t es) (h2 : t.Extends u fs) :
   (b.store t).store ⟨u.len, fs.reverse⟩ = b.store u := by
  simp only [Buffer.store, h2.2.1, h.2.1, Buffer.tail]
  have : t.len.val = b.len.val + es.length := h.1
  simp [this, storeFrom_storeFrom]

end Sys2Proof.Machine
end

