-- ==== Sys2Proof/Laws/Configure.lean ====
section
/-! SUPPORT. What CONFIGURE can do: it refuses exactly `configRefused`, and what it accepts is a legal configuration; and the
one fact about the decoder that every decoding claim starts from. -/

namespace Sys2Proof.Machine

/-- A word with a zero reserved field and an assigned opcode decodes to its row's instruction (R81). -/
theorem decode_legal {w : Word} {o : Opcode} (a : Args) (h1 : rsvField w = 0) (h2 : Opcode.ofCode (opcField w) = some o) :
    decode ⟨w, a⟩ = .ok (instrOf o a) := by simp [decode, h1, h2]

/-- The four `VARIANT` operands (R87). -/
theorem variant_ofCode_cases (v : BitVec 2) :
    (v = 0 ∧ Variant.ofCode v = some .nec) ∨ (v = 1 ∧ Variant.ofCode v = some .rc5) ∨
    (v = 2 ∧ Variant.ofCode v = some .raw) ∨ (v = 3 ∧ Variant.ofCode v = none) := by
  revert v; decide

/-- The code of the variant a `VARIANT` operand names is that operand. -/
theorem variant_ofCode_code {v : BitVec 2} {w} (h : Variant.ofCode v = some w) : w.code = v := by
  revert h; revert v w; decide

/-- The carrier of the overridden defaults is legal exactly when no override makes it illegal. -/
theorem overridden_legal_iff (v : Variant) (a : ConfigArgs) :
    (overridden v a).carrierLegal = true ↔ ¬ ((a.ovr.getLsbD 0 = true ∧ a.freq = 0) ∨
      (a.ovr.getLsbD 1 = true ∧ (a.dutyNum = 0 ∨ a.dutyDen.toNat < a.dutyNum.toNat))) := by
  have hd : (defaults v).freq ≠ 0 ∧ (defaults v).dutyNum ≠ 0 ∧
      (defaults v).dutyNum.toNat ≤ (defaults v).dutyDen.toNat := by cases v <;> decide
  simp only [Cfg.carrierLegal, overridden, ovrBit, Bool.and_eq_true, bne_iff_ne, ne_eq]
  obtain ⟨x, hx⟩ : ∃ x, x = a.ovr.getLsbD 0 := ⟨_, rfl⟩
  obtain ⟨y, hy⟩ : ∃ x, x = a.ovr.getLsbD 1 := ⟨_, rfl⟩
  simp only [← hx, ← hy]
  have h1 := hd.1; have h2 := hd.2.1
  cases x <;> cases y <;> simp_all
  tauto

/-- CONFIGURE refuses exactly what R266 lists; otherwise it writes the overridden defaults. -/
theorem configured_cases (a : ConfigArgs) :
    (configRefused a ∧ configured a = none) ∨
    (¬ configRefused a ∧ ∃ v, Variant.ofCode a.variant = some v ∧ configured a = some (overridden v a)) := by
  have hf : ovrForeign a = true ↔ a.ovr.extractLsb' 4 6 ≠ 0 := by simp [ovrForeign]
  unfold configRefused configured
  rcases variant_ofCode_cases a.variant with ⟨hv, ho⟩ | ⟨hv, ho⟩ | ⟨hv, ho⟩ | ⟨hv, ho⟩ <;> rw [hv] at ho <;>
    simp only [hv, ho]
  · by_cases hl : (overridden .nec a).carrierLegal = true
    · right; rw [if_neg (by simp), if_pos hl]; rw [overridden_legal_iff] at hl; simp at hl ⊢; exact hl
    · left; rw [if_neg (by simp), if_neg hl]; rw [overridden_legal_iff] at hl; simp at hl ⊢; tauto
  · by_cases hfo : ovrForeign a = true
    · left; rw [if_pos ⟨by simp, hfo⟩]; rw [hf] at hfo; simp at hfo ⊢; tauto
    · rw [if_neg (by simp [hfo])]
      rw [hf] at hfo
      by_cases hl : (overridden .rc5 a).carrierLegal = true
      · right; rw [if_pos hl]; rw [overridden_legal_iff] at hl; simp at hl hfo ⊢; tauto
      · left; rw [if_neg hl]; rw [overridden_legal_iff] at hl; simp at hl hfo ⊢; tauto
  · by_cases hfo : ovrForeign a = true
    · left; rw [if_pos ⟨by simp, hfo⟩]; rw [hf] at hfo; simp at hfo ⊢; tauto
    · rw [if_neg (by simp [hfo])]
      rw [hf] at hfo
      by_cases hl : (overridden .raw a).carrierLegal = true
      · right; rw [if_pos hl]; rw [overridden_legal_iff] at hl; simp at hl hfo ⊢; tauto
      · left; rw [if_neg hl]; rw [overridden_legal_iff] at hl; simp at hl hfo ⊢; tauto
  · left; simp

/-- `OVR[9:4] = 0`, bit by bit. -/
theorem ovr_foreign_bits (o : BitVec 10) (h : o.extractLsb' 4 6 = 0) : ∀ k, k < 6 → o.getLsbD (4+k) = false := by
  intro k hk
  have := congrArg (fun x => x.getLsbD k) h
  simpa [hk] using this

/-- What CONFIGURE writes is a legal configuration. -/
theorem configured_legal {a : ConfigArgs} {c : Cfg} (h : configured a = some c) : c.legal := by
  unfold configured at h
  split at h
  · cases h
  · rename_i v hv
    split at h
    · cases h
    · rename_i hn
      split at h
      · rename_i hl
        cases h
        refine ⟨hl, fun hv => ?_⟩
        have hv : v ≠ .nec := hv
        have hf : ovrForeign a = false := by
          by_contra hc; exact hn ⟨hv, by simpa using hc⟩
        have hb := ovr_foreign_bits a.ovr (by simpa [ovrForeign] using hf)
        have b0 := hb 0 (by omega); have b1 := hb 1 (by omega); have b2 := hb 2 (by omega)
        have b3 := hb 3 (by omega); have b4 := hb 4 (by omega); have b5 := hb 5 (by omega)
        simp only [Nat.reduceAdd] at b0 b1 b2 b3 b4 b5
        simp only [overridden, overrideDurs, ovrBit, b0, b1, b2, b3, b4, b5]
        cases v <;> simp [defaults] at hv ⊢
      · cases h

end Sys2Proof.Machine
end

