-- ==== Sys2Proof/Laws/Encode.lean ====
section
/-! SUPPORT. The encoders as lists of requested entries: every primitive and every encoder is one run of `appendAll`, and
`appendAll` has three outcomes, said once. -/

namespace Sys2Proof.Machine

/-! ### Sequencing -/

@[simp] theorem andThen_done (t : Tail) (k : Tail → Attempt) : (Attempt.done t).andThen k = k t := rfl
@[simp] theorem andThen_raised (e : Status) (t : Tail) (k : Tail → Attempt) :
    (Attempt.raised e t).andThen k = .raised e t := rfl
@[simp] theorem tail_done (t : Tail) : (Attempt.done t).tail = t := rfl
@[simp] theorem tail_raised (e : Status) (t : Tail) : (Attempt.raised e t).tail = t := rfl
@[simp] theorem status_done (t : Tail) : (Attempt.done t).status = .ok := rfl
@[simp] theorem status_raised (e : Status) (t : Tail) : (Attempt.raised e t).status = e := rfl

@[simp] theorem andThen_done_right (a : Attempt) : a.andThen .done = a := by cases a <;> rfl

theorem andThen_assoc (a : Attempt) (j k : Tail → Attempt) :
    (a.andThen j).andThen k = a.andThen fun t => (j t).andThen k := by cases a <;> rfl

/-- Append a list of entries in order, up to the first raise. -/
def appendAll : List Entry → Tail → Attempt
  | [], t => .done t
  | e :: es, t => (append e.mark e.space e.dur t).andThen (appendAll es)

theorem appendAll_append (es fs : List Entry) (t : Tail) :
    appendAll (es ++ fs) t = (appendAll es t).andThen (appendAll fs) := by
  induction es generalizing t with
  | nil => rfl
  | cons e es ih =>
    rw [List.cons_append, appendAll, appendAll, andThen_assoc]
    congr 1
    funext u
    exact ih u

theorem appendAll_single (m s d : Word) (t : Tail) : appendAll [⟨m, s, d⟩] t = append m s d t := by
  simp [appendAll]

/-- The tail `t` with room taken by `es`, which fit. -/
def Tail.plus (t : Tail) (es : List Entry) (h : t.len.val + es.length ≤ bufCap) : Tail :=
  ⟨⟨t.len.val + es.length, Nat.lt_succ_of_le h⟩, es.reverse ++ t.added⟩

theorem Tail.plus_extends {t : Tail} {es : List Entry} (h : t.len.val + es.length ≤ bufCap) (hv : ∀ e ∈ es, e.valid) :
    t.Extends (t.plus es h) es := ⟨rfl, rfl, hv⟩

/-- Valid entries that fit are all appended. -/
theorem appendAll_fits {es : List Entry} {t : Tail} (hv : ∀ e ∈ es, e.valid) (h : t.len.val + es.length ≤ bufCap) :
    appendAll es t = .done (t.plus es h) := by
  induction es generalizing t with
  | nil => rfl
  | cons e es ih =>
    have hlen : t.len.val + es.length + 1 ≤ bufCap := by rw [List.length_cons] at h; omega
    have hroom : t.len.val < bufCap := by omega
    rw [appendAll, append_room (hv e (by simp)) hroom, andThen_done,
      ih (t := ⟨⟨t.len.val + 1, Nat.succ_lt_succ hroom⟩, _⟩) (fun x hx => hv x (by simp [hx]))
        (by dsimp only; omega)]
    simp only [Tail.plus, List.length_cons, List.reverse_cons, List.append_assoc, List.singleton_append,
      Attempt.done.injEq, Tail.mk.injEq, Fin.mk.injEq, and_true]
    omega

/-- A run of appends that ends without a raise has appended every entry, and every one was valid. -/
theorem appendAll_done {es : List Entry} {t u : Tail} (h : appendAll es t = .done u) : t.Extends u es := by
  induction es generalizing t with
  | nil => cases h; exact Tail.Extends.refl _
  | cons e es ih =>
    rw [appendAll] at h
    rcases append_cases e.mark e.space e.dur t with ⟨v, hv, hx⟩ | ⟨hv, -⟩ | ⟨hv, -⟩ <;> rw [hv] at h
    · exact hx.trans (ih h)
    · cases h
    · cases h

/-- After valid entries that fit, an entry that is not valid stops the run with `InvalidEntry`. -/
theorem appendAll_stops_invalid {es : List Entry} {e : Entry} {fs : List Entry} {t : Tail} (hv : ∀ e ∈ es, e.valid)
    (h : t.len.val + es.length ≤ bufCap) (he : ¬ e.valid) :
    appendAll (es ++ e :: fs) t = .raised .invalidEntry (t.plus es h) := by
  rw [appendAll_append, appendAll_fits hv h, andThen_done, appendAll, append_invalid _ he, andThen_raised]

/-- A run of appends that ends does not depend on what was appended before it. -/
theorem appendAll_shift {es : List Entry} {t u : Tail} (a : List Entry) (h : appendAll es t = .done u) :
    appendAll es ⟨t.len, a⟩ = .done ⟨u.len, es.reverse ++ a⟩ := by
  have hx := appendAll_done h
  have hf : t.len.val + es.length ≤ bufCap := by have := u.len.isLt; have := hx.1; omega
  rw [appendAll_fits (t := ⟨t.len, a⟩) hx.2.2 hf]
  simp only [Tail.plus]
  congr 2
  exact Fin.ext hx.1.symm

/-- After valid entries that fill the buffer, one more valid entry stops the run with `CapacityExceeded`. -/
theorem appendAll_stops_full {es : List Entry} {e : Entry} {fs : List Entry} {t : Tail} (hv : ∀ e ∈ es, e.valid)
    (h : t.len.val + es.length = bufCap) (he : e.valid) :
    appendAll (es ++ e :: fs) t = .raised .capacityExceeded (t.plus es h.le) := by
  rw [appendAll_append, appendAll_fits hv h.le, andThen_done, appendAll,
    append_full he (by simpa [Tail.plus] using h), andThen_raised]

/-- Valid entries that do not fit fill the buffer and stop with `CapacityExceeded`. -/
theorem appendAll_overflow {es : List Entry} {t : Tail} (hv : ∀ e ∈ es, e.valid) (h : bufCap < t.len.val + es.length) :
    ∃ h', appendAll es t = .raised .capacityExceeded (t.plus (es.take (bufCap - t.len.val)) h') := by
  have hl := t.len.isLt
  have hn : bufCap - t.len.val < es.length := by omega
  have hs : es = es.take (bufCap - t.len.val) ++ es[bufCap - t.len.val] :: es.drop (bufCap - t.len.val + 1) := by
    rw [← List.drop_eq_getElem_cons hn, List.take_append_drop]
  have hv1 : ∀ e ∈ es.take (bufCap - t.len.val), e.valid := fun e he => hv e (List.mem_of_mem_take he)
  have hlen : t.len.val + (es.take (bufCap - t.len.val)).length = bufCap := by
    rw [List.length_take, Nat.min_eq_left hn.le]; omega
  have := appendAll_stops_full (fs := es.drop (bufCap - t.len.val + 1)) hv1 hlen (hv _ (List.getElem_mem hn))
  exact ⟨hlen.le, by rw [← this, ← hs]⟩

/-! ### Every operation only appends valid entries -/

/-- What an attempt started at `t` leaves is `t` with some valid entries appended, and a raise is one of the execution
errors, `CapacityExceeded` at a full buffer only. -/
def Attempt.GrowsFrom (a : Attempt) (t : Tail) : Prop :=
  (∃ es, t.Extends a.tail es) ∧
  ∀ e u, a = .raised e u → e = .invalidEntry ∨ (e = .capacityExceeded ∧ u.len.val = bufCap) ∨ e = .invalidBitError

theorem growsFrom_done (t : Tail) : (Attempt.done t).GrowsFrom t :=
  ⟨⟨[], Tail.Extends.refl t⟩, fun _ _ h => nomatch h⟩

theorem growsFrom_raised {e : Status} {t : Tail}
    (he : e = .invalidEntry ∨ (e = .capacityExceeded ∧ t.len.val = bufCap) ∨ e = .invalidBitError) :
    (Attempt.raised e t).GrowsFrom t :=
  ⟨⟨[], Tail.Extends.refl t⟩, fun e' u h => by cases h; exact he⟩

theorem growsFrom_andThen {a : Attempt} {k : Tail → Attempt} {t : Tail} (ha : a.GrowsFrom t)
    (hk : ∀ u, (k u).GrowsFrom u) : (a.andThen k).GrowsFrom t := by
  cases a with
  | raised e u => exact ha
  | done u =>
    obtain ⟨⟨es, h1⟩, -⟩ := ha
    obtain ⟨⟨fs, h2⟩, h3⟩ := hk u
    exact ⟨⟨_, h1.trans h2⟩, h3⟩

theorem append_grows (m s d : Word) (t : Tail) : (append m s d t).GrowsFrom t := by
  rcases append_cases m s d t with ⟨u, hu, hx⟩ | ⟨hu, -⟩ | ⟨hu, hfull⟩ <;> rw [hu]
  · exact ⟨⟨_, hx⟩, fun _ _ h => nomatch h⟩
  · exact growsFrom_raised (.inl rfl)
  · exact growsFrom_raised (.inr (.inl ⟨rfl, hfull⟩))

theorem emitSpace_grows (c : Cfg) (d : Word) (t : Tail) : (emitSpace c d t).GrowsFrom t := append_grows _ _ _ t

theorem subPulses_grows (c : Cfg) (k i : Nat) (t : Tail) : (subPulses c k i t).GrowsFrom t := by
  induction k generalizing i t with
  | zero => exact growsFrom_done t
  | succ k ih =>
    refine growsFrom_andThen ?_ (ih (i + 1))
    unfold subPulse
    split <;> exact append_grows _ _ _ t

theorem emitMark_grows (c : Cfg) (d : Word) (t : Tail) : (emitMark c d t).GrowsFrom t := subPulses_grows c _ _ t

theorem markThenSpace_grows (c : Cfg) (m s : Word) (t : Tail) : (markThenSpace c m s t).GrowsFrom t :=
  growsFrom_andThen (emitMark_grows c m t) (emitSpace_grows c s)

theorem spaceThenMark_grows (c : Cfg) (s m : Word) (t : Tail) : (spaceThenMark c s m t).GrowsFrom t :=
  growsFrom_andThen (emitSpace_grows c s t) (emitMark_grows c m)

theorem encodeTokens_grows {one zero : Tail → Attempt} (h1 : ∀ t, (one t).GrowsFrom t) (h0 : ∀ t, (zero t).GrowsFrom t)
    (ts : List Token) (t : Tail) : (encodeTokens one zero ts t).GrowsFrom t := by
  induction ts generalizing t with
  | nil => exact growsFrom_done t
  | cons x xs ih =>
    unfold encodeTokens
    split
    · exact growsFrom_andThen (h1 t) ih
    · exact growsFrom_andThen (h0 t) ih
    · exact growsFrom_raised (.inr (.inr rfl))

theorem encodeBody_grows (c : Cfg) (ts : List Token) (t : Tail) : (encodeBody c ts t).GrowsFrom t := by
  unfold encodeBody
  split
  · refine growsFrom_andThen (growsFrom_andThen ?_ ?_) ?_
    · unfold necLeader; split
      · exact markThenSpace_grows _ _ _ t
      · exact growsFrom_done t
    · exact encodeTokens_grows (markThenSpace_grows _ _ _) (markThenSpace_grows _ _ _) ts
    · intro u
      unfold necTrailer; split
      · refine growsFrom_andThen (emitMark_grows _ _ u) fun v => ?_
        unfold necTrailingSpace; split
        · exact emitSpace_grows _ _ v
        · exact growsFrom_done v
      · exact growsFrom_done u
  · exact encodeTokens_grows (spaceThenMark_grows _ _ _) (markThenSpace_grows _ _ _) ts t
  · exact encodeTokens_grows (emitMark_grows _ _) (emitSpace_grows _ _) ts t

theorem encodeRepeats_grows (c : Cfg) (ts : List Token) (k : Nat) (t : Tail) : (encodeRepeats c ts k t).GrowsFrom t := by
  induction k generalizing t with
  | zero => exact growsFrom_done t
  | succ k ih => exact growsFrom_andThen (encodeBody_grows c ts t) ih

/-! ### Primitives and encoders as lists of entries -/

theorem emitSpace_eq (c : Cfg) (d : Word) : emitSpace c d = appendAll ((Prim.space d).entries c) := by
  funext t
  rw [Prim.entries, Cfg.spaceEntry, appendAll_single, emitSpace]

theorem subPulses_eq (c : Cfg) (n i : Nat) (hi : i % 2 = 0) : subPulses c (2 * n) i = appendAll (c.burst n) := by
  induction n generalizing i with
  | zero => rfl
  | succ n ih =>
    funext t
    have h1 : (i + 1) % 2 ≠ 0 := by omega
    rw [show 2 * (n + 1) = 2 * n + 1 + 1 by omega, subPulses, Cfg.burst, List.replicate_succ, List.flatten_cons,
      Cfg.period, List.cons_append, List.cons_append, List.nil_append, appendAll, subPulse, if_pos hi]
    congr 1
    funext u
    rw [subPulses, appendAll, subPulse, if_neg h1]
    congr 1
    exact ih (i + 1 + 1) (by omega)

theorem emitMark_eq (c : Cfg) (d : Word) : emitMark c d = appendAll ((Prim.mark d).entries c) := by
  funext t
  rw [emitMark, subPulses_eq c _ 0 rfl]; rfl

/-- A burst of `n` periods has `2*n` entries (R144). -/
theorem burst_length (c : Cfg) (n : Nat) : (c.burst n).length = 2 * n := by simp [Cfg.burst, Cfg.period, Nat.mul_comm]

theorem wave_cons (c : Cfg) (p : Prim) (ps : List Prim) : wave c (p :: ps) = p.entries c ++ wave c ps := rfl
theorem wave_append (c : Cfg) (ps qs : List Prim) : wave c (ps ++ qs) = wave c ps ++ wave c qs := by simp [wave]
theorem wave_nil (c : Cfg) : wave c [] = [] := rfl

theorem markThenSpace_eq (c : Cfg) (m s : Word) : markThenSpace c m s = appendAll (wave c [.mark m, .space s]) := by
  funext t
  rw [wave_cons, wave_cons, wave_nil, List.append_nil, appendAll_append, markThenSpace, emitMark_eq, emitSpace_eq]

theorem spaceThenMark_eq (c : Cfg) (s m : Word) : spaceThenMark c s m = appendAll (wave c [.space s, .mark m]) := by
  funext t
  rw [wave_cons, wave_cons, wave_nil, List.append_nil, appendAll_append, spaceThenMark, emitMark_eq, emitSpace_eq]

@[simp] theorem cls_one : cls 0x31 = .one := by decide
@[simp] theorem cls_zero : cls 0x30 = .zero := by decide

/-- R162: a token is Invalid exactly when it is neither 0x30 nor 0x31. -/
theorem cls_invalid {t : Token} : cls t = .invalid ↔ ¬ (t = 0x30 ∨ t = 0x31) := by
  unfold cls
  split
  · simp_all
  · split <;> simp_all

/-- The token loop over valid tokens, then `rest`. -/
theorem encodeTokens_valid {one zero : Tail → Attempt} {w1 w0 : List Entry} (h1 : one = appendAll w1)
    (h0 : zero = appendAll w0) {ts : List Token} (hv : validTokens ts) (rest : List Token) (t : Tail) :
    encodeTokens one zero (ts ++ rest) t =
      (appendAll (ts.flatMap fun x => if x = 0x31 then w1 else w0) t).andThen (encodeTokens one zero rest) := by
  induction ts generalizing t with
  | nil => rfl
  | cons x xs ih =>
    have hxs : validTokens xs := fun y hy => hv y (by simp [hy])
    rw [List.cons_append, List.flatMap_cons, appendAll_append, andThen_assoc, encodeTokens]
    rcases hv x (by simp) with rfl | rfl
    · rw [cls_zero, if_neg (by decide), h0]
      dsimp only
      congr 1; funext u; rw [← h0]; exact ih hxs u
    · rw [cls_one, if_pos rfl, h1]
      dsimp only
      congr 1; funext u; rw [← h1]; exact ih hxs u

theorem wave_flatMap (c : Cfg) (ts : List Token) (f : Token → List Prim) :
    wave c (ts.flatMap f) = ts.flatMap fun x => wave c (f x) := by
  simp [wave, List.flatMap_assoc]

theorem necLeader_eq (c : Cfg) (h : c.variant = .nec) : necLeader c = appendAll (wave c (leaderPrims c)) := by
  funext t
  by_cases hc : c.dur.d0 ≠ 0 ∨ c.dur.d1 ≠ 0
  · rw [necLeader, if_pos hc, leaderPrims, if_pos ⟨h, hc⟩, markThenSpace_eq]
  · rw [necLeader, if_neg hc, leaderPrims, if_neg (by tauto)]; rfl

theorem necTrailer_eq (c : Cfg) (h : c.variant = .nec) : necTrailer c = appendAll (wave c (trailerPrims c)) := by
  funext t
  by_cases h6 : c.dur.d6 = 0
  · rw [necTrailer, if_neg (by simpa using h6), trailerPrims, if_neg (by tauto)]; rfl
  · rw [necTrailer, if_pos h6, trailerPrims, if_pos ⟨h, h6⟩, wave_cons, appendAll_append, emitMark_eq]
    congr 1
    funext u
    by_cases h7 : c.dur.d7 = 0
    · simp [necTrailingSpace, h7, wave, appendAll]
    · rw [necTrailingSpace, if_pos h7, if_pos h7, emitSpace_eq, wave_cons, wave_nil, List.append_nil]

/-- The encoder up to the end of valid tokens `ts`, then on with `rest` (R164 to R166). -/
theorem encodeBody_prefix (c : Cfg) {ts : List Token} (hv : validTokens ts) (rest : List Token) (t : Tail) :
    ∃ k : List Token → Tail → Attempt,
      encodeBody c (ts ++ rest) t = ((appendAll (wave c (headPrims c ts)) t).andThen (k rest)).andThen
        (appendAll (wave c (trailerPrims c))) ∧
      (∀ u, k [] u = .done u) ∧
      ∀ x xs u, cls x = .invalid → k (x :: xs) u = .raised .invalidBitError u := by
  have key : ∀ (one zero : Tail → Attempt) (w1 w0 : List Entry), one = appendAll w1 → zero = appendAll w0 →
      (fun x => wave c (tokenPrims c x)) = (fun x : Token => if x = 0x31 then w1 else w0) →
      ∀ u, encodeTokens one zero (ts ++ rest) u =
        (appendAll (wave c (ts.flatMap (tokenPrims c))) u).andThen (encodeTokens one zero rest) := by
    intro one zero w1 w0 h1 h0 hw u
    rw [encodeTokens_valid h1 h0 hv, wave_flatMap, hw]
  cases hc : c.variant with
  | nec =>
    refine ⟨necTokens c, ?_, fun u => rfl, fun x xs u hx => by simp [necTokens, encodeTokens, hx]⟩
    rw [headPrims, wave_append, appendAll_append, encodeBody, hc]
    dsimp only
    have hk : necTokens c (ts ++ rest) = fun u =>
        (appendAll (wave c (ts.flatMap (tokenPrims c))) u).andThen (necTokens c rest) := by
      funext u
      refine key _ _ _ _ (markThenSpace_eq c _ _) (markThenSpace_eq c _ _) ?_ u
      funext x
      simp only [tokenPrims, hc]
      split <;> rfl
    simp only [encodeNec, necLeader_eq c hc, necTrailer_eq c hc, hk, andThen_assoc]
  | rc5 =>
    refine ⟨encodeTokens (spaceThenMark c c.dur.d0 c.dur.d0) (markThenSpace c c.dur.d1 c.dur.d1), ?_, fun u => rfl,
      fun x xs u hx => by simp [encodeTokens, hx]⟩
    have hl : leaderPrims c = [] := by simp [leaderPrims, hc]
    have ht : trailerPrims c = [] := by simp [trailerPrims, hc]
    rw [headPrims, hl, ht, List.nil_append, wave_nil, show appendAll [] = Attempt.done from rfl, andThen_done_right,
      encodeBody, hc]
    refine key _ _ _ _ (spaceThenMark_eq c _ _) (markThenSpace_eq c _ _) ?_ t
    funext x
    simp only [tokenPrims, hc]
    split <;> rfl
  | raw =>
    refine ⟨encodeTokens (emitMark c c.dur.d0) (emitSpace c c.dur.d1), ?_, fun u => rfl,
      fun x xs u hx => by simp [encodeTokens, hx]⟩
    have hl : leaderPrims c = [] := by simp [leaderPrims, hc]
    have ht : trailerPrims c = [] := by simp [trailerPrims, hc]
    rw [headPrims, hl, ht, List.nil_append, wave_nil, show appendAll [] = Attempt.done from rfl, andThen_done_right,
      encodeBody, hc]
    refine key _ _ _ _ (emitMark_eq c _) (emitSpace_eq c _) ?_ t
    funext x
    simp only [tokenPrims, hc]
    split <;> simp [wave]

/-- An encode of valid tokens is one run of the entries its primitives ask for. -/
theorem encodeBody_valid (c : Cfg) {ts : List Token} (hv : validTokens ts) (t : Tail) :
    encodeBody c ts t = appendAll (wave c (allPrims c ts)) t := by
  obtain ⟨k, hk, h0, -⟩ := encodeBody_prefix c hv [] t
  rw [List.append_nil] at hk
  rw [hk, allPrims, wave_append, appendAll_append, show k [] = Attempt.done from funext h0, andThen_done_right]

/-- An encode that meets its first Invalid token after the valid tokens `ts` runs the entries asked for up to there, and
then raises `InvalidBitError` (R168). -/
theorem encodeBody_invalid (c : Cfg) {ts : List Token} (hv : validTokens ts) {x : Token} (hx : cls x = .invalid)
    (xs : List Token) (t : Tail) :
    encodeBody c (ts ++ x :: xs) t = (appendAll (wave c (headPrims c ts)) t).andThen (.raised .invalidBitError) := by
  obtain ⟨k, hk, -, h1⟩ := encodeBody_prefix c hv (x :: xs) t
  rw [hk, show k (x :: xs) = Attempt.raised .invalidBitError from funext fun u => h1 x xs u hx, andThen_assoc]
  rfl

/-- The repeats of T_ENCODE over valid tokens (R239). -/
theorem encodeRepeats_valid (c : Cfg) {ts : List Token} (hv : validTokens ts) (k : Nat) (t : Tail) :
    encodeRepeats c ts k t = appendAll (List.replicate k (wave c (allPrims c ts))).flatten t := by
  induction k generalizing t with
  | zero => rfl
  | succ k ih =>
    rw [encodeRepeats, List.replicate_succ, List.flatten_cons, appendAll_append, encodeBody_valid c hv]
    congr 1
    funext u
    exact ih u

/-! ### Requested entries are valid -/

theorem lineMask_ne_zero (c : Cfg) : c.lineMask ≠ 0 := by
  have : ∀ l : BitVec 5, (1#32 <<< l.toNat) ≠ 0 := by decide
  exact this c.lineId

theorem markEntry_valid {c : Cfg} {d : Word} (h : d ≠ 0) : (c.markEntry d).valid := ⟨h, .inl ⟨lineMask_ne_zero c, rfl⟩⟩
theorem spaceEntry_valid {c : Cfg} {d : Word} (h : d ≠ 0) : (c.spaceEntry d).valid := ⟨h, .inr ⟨rfl, lineMask_ne_zero c⟩⟩

theorem rhu_le_of_le {n d k : Nat} (hd : 0 < d) (h : n ≤ k * d) : rhu n d ≤ k := by
  have h1 : rhu n d < k + 1 := by
    rw [rhu, Nat.div_lt_iff_lt_mul (by omega)]
    nlinarith
  omega

theorem legal_bounds {c : Cfg} (h : c.carrierLegal = true) :
    1 ≤ c.freq.toNat ∧ 1 ≤ c.dutyNum.toNat ∧ c.dutyNum.toNat ≤ c.dutyDen.toNat := by
  simp only [Cfg.carrierLegal, Bool.and_eq_true, bne_iff_ne, ne_eq, decide_eq_true_eq] at h
  refine ⟨?_, ?_, h.2⟩
  · have := h.1.1
    rcases Nat.eq_zero_or_pos c.freq.toNat with h0 | h0
    · exact absurd (BitVec.eq_of_toNat_eq (by simpa using h0)) this
    · exact h0
  · have := h.1.2
    rcases Nat.eq_zero_or_pos c.dutyNum.toNat with h0 | h0
    · exact absurd (BitVec.eq_of_toNat_eq (by simpa using h0)) this
    · exact h0

/-- R141: `on` is at most 1000000 µs. -/
theorem onTime_le {c : Cfg} (h : c.carrierLegal = true) : c.onTime ≤ 1000000 := by
  obtain ⟨h1, h2, h3⟩ := legal_bounds h
  exact rhu_le_of_le (Nat.mul_pos h1 (by omega)) (by nlinarith [Nat.mul_le_mul h1 h3])

/-- R141: `off` is at most 1000000 µs. -/
theorem offTime_le {c : Cfg} (h : c.carrierLegal = true) : c.offTime ≤ 1000000 := by
  obtain ⟨h1, h2, h3⟩ := legal_bounds h
  refine rhu_le_of_le (Nat.mul_pos h1 (by omega)) ?_
  have : c.dutyDen.toNat - c.dutyNum.toNat ≤ c.freq.toNat * c.dutyDen.toNat := by
    have := Nat.mul_le_mul h1 (Nat.le_refl c.dutyDen.toNat)
    omega
  exact Nat.mul_le_mul_left _ this

theorem ofNat32_ne_zero {n : Nat} (h1 : 1 ≤ n) (h2 : n ≤ 1000000) : BitVec.ofNat 32 n ≠ 0 := by
  intro h
  have := congrArg BitVec.toNat h
  simp [BitVec.toNat_ofNat] at this
  omega

theorem prim_entries_valid {c : Cfg} (hl : c.carrierLegal = true) {p : Prim} (hp : p.emittable c) :
    ∀ e ∈ p.entries c, e.valid := by
  cases p with
  | space d => intro e he; simp [Prim.entries] at he; subst he; exact spaceEntry_valid hp
  | mark d =>
    rcases hp with h0 | ⟨h1, h2⟩
    · simp [Prim.entries, Cfg.burst, h0]
    · intro e he
      simp only [Prim.entries, Cfg.burst, List.mem_flatten, List.mem_replicate] at he
      obtain ⟨l, ⟨-, rfl⟩, he⟩ := he
      simp only [Cfg.period, List.mem_cons, List.not_mem_nil, or_false] at he
      rcases he with rfl | rfl
      · exact markEntry_valid (ofNat32_ne_zero h1 (onTime_le hl))
      · exact spaceEntry_valid (ofNat32_ne_zero h2 (offTime_le hl))

/-- Emittable primitives ask only for valid entries. -/
theorem wave_valid {c : Cfg} (hl : c.carrierLegal = true) {ps : List Prim} (hp : ∀ p ∈ ps, p.emittable c) :
    ∀ e ∈ wave c ps, e.valid := by
  intro e he
  obtain ⟨p, h1, h2⟩ := List.mem_flatMap.1 he
  exact prim_entries_valid hl (hp p h1) e h2

/-! ### Where an encode stops -/

/-- An encode runs the entries its called primitives ask for before anything else. -/
theorem encodeBody_calls {c : Cfg} {ts : List Token} {ps : List Prim} (h : Calls c ts ps) :
    ∃ k, ∀ t, encodeBody c ts t = (appendAll (wave c ps) t).andThen k := by
  rcases h with ⟨hv, rfl⟩ | ⟨vs, xs, x, rfl, hv, h0, h1, rfl⟩
  · exact ⟨.done, fun t => by rw [andThen_done_right, encodeBody_valid c hv]⟩
  · exact ⟨_, encodeBody_invalid c hv (cls_invalid.2 (by tauto)) xs⟩

/-- So does the first of T_ENCODE's repeats. -/
theorem encodeRepeats_calls {c : Cfg} {ts : List Token} {ps : List Prim} (h : Calls c ts ps) (n : Nat) :
    ∃ k, ∀ t, encodeRepeats c ts (n + 1) t = (appendAll (wave c ps) t).andThen k := by
  obtain ⟨k, hk⟩ := encodeBody_calls h
  exact ⟨_, fun t => by rw [encodeRepeats, hk, andThen_assoc]⟩

theorem burst_succ (c : Cfg) (n : Nat) : c.burst (n + 1) =
    c.markEntry (BitVec.ofNat 32 c.onTime) :: c.spaceEntry (BitVec.ofNat 32 c.offTime) :: c.burst n := rfl

/-- A mark of at least one period asks for the two sub-pulses of its first period. -/
theorem mark_entries {c : Cfg} {d : Word} (h : 1 ≤ c.periods d) : ∃ es, (Prim.mark d).entries c =
    c.markEntry (BitVec.ofNat 32 c.onTime) :: c.spaceEntry (BitVec.ofNat 32 c.offTime) :: es := by
  obtain ⟨n, hn⟩ := Nat.exists_eq_add_of_le' h
  exact ⟨_, by rw [Prim.entries, hn, burst_succ]⟩

theorem startsWithZero_entries {c : Cfg} {p : Prim} (h : p.startsWithZero c) :
    ∃ e es, p.entries c = e :: es ∧ ¬ e.valid := by
  rcases h with rfl | ⟨d, rfl, h1, h2⟩
  · exact ⟨_, [], rfl, fun hv => hv.1 rfl⟩
  · obtain ⟨es, he⟩ := mark_entries h1
    exact ⟨_, _, he, fun hv => hv.1 (by rw [h2]; rfl)⟩

theorem continuesWithZero_entries {c : Cfg} (hl : c.carrierLegal = true) {p : Prim} (h : p.continuesWithZero c) :
    ∃ e es, p.entries c = c.markEntry (BitVec.ofNat 32 c.onTime) :: e :: es ∧
      (c.markEntry (BitVec.ofNat 32 c.onTime)).valid ∧ ¬ e.valid := by
  obtain ⟨d, rfl, h1, h2, h3⟩ := h
  obtain ⟨es, he⟩ := mark_entries h1
  exact ⟨_, es, he, markEntry_valid (ofNat32_ne_zero h2 (onTime_le hl)), fun hv => hv.1 (by rw [h3]; rfl)⟩

section Stops

variable {c : Cfg} {ps : List Prim} (qs : List Prim) {p : Prim} {t : Tail}

/-- At a primitive that starts with an entry of 0 µs, the run stops with `InvalidEntry`. -/
theorem wave_startsWithZero (hl : c.carrierLegal = true) (hp : ∀ q ∈ ps, q.emittable c) (hz : p.startsWithZero c)
    (hf : t.len.val + (wave c ps).length ≤ bufCap) :
    appendAll (wave c (ps ++ p :: qs)) t = .raised .invalidEntry (t.plus (wave c ps) hf) := by
  obtain ⟨e, es, he, hne⟩ := startsWithZero_entries hz
  rw [wave_append, wave_cons, he]
  exact appendAll_stops_invalid (wave_valid hl hp) hf hne

/-- At a primitive whose second entry has 0 µs, the run appends the first and stops with `InvalidEntry`. -/
theorem wave_continuesWithZero (hl : c.carrierLegal = true) (hp : ∀ q ∈ ps, q.emittable c) (hz : p.continuesWithZero c)
    (hf : t.len.val + (wave c ps ++ [c.markEntry (BitVec.ofNat 32 c.onTime)]).length ≤ bufCap) :
    appendAll (wave c (ps ++ p :: qs)) t =
      .raised .invalidEntry (t.plus (wave c ps ++ [c.markEntry (BitVec.ofNat 32 c.onTime)]) hf) := by
  obtain ⟨e, es, he, hm, hne⟩ := continuesWithZero_entries hl hz
  rw [wave_append, wave_cons, he, ← List.singleton_append (x := c.markEntry _), List.append_assoc, ← List.append_assoc]
  refine appendAll_stops_invalid (fun x hx => ?_) hf hne
  rcases List.mem_append.1 hx with hx | hx
  · exact wave_valid hl hp x hx
  · rw [List.mem_singleton.1 hx]; exact hm

/-- The same primitive at a full buffer stops with `CapacityExceeded`. -/
theorem wave_continuesWithZero_full (hl : c.carrierLegal = true) (hp : ∀ q ∈ ps, q.emittable c)
    (hz : p.continuesWithZero c) (hf : t.len.val + (wave c ps).length = bufCap) :
    appendAll (wave c (ps ++ p :: qs)) t = .raised .capacityExceeded (t.plus (wave c ps) hf.le) := by
  obtain ⟨e, es, he, hm, -⟩ := continuesWithZero_entries hl hz
  rw [wave_append, wave_cons, he]
  exact appendAll_stops_full (wave_valid hl hp) hf hm

/-- Primitives that do not fit fill the buffer and stop with `CapacityExceeded`, whatever comes after them. -/
theorem wave_overflow (hl : c.carrierLegal = true) (hp : ∀ q ∈ ps, q.emittable c)
    (hf : bufCap < t.len.val + (wave c ps).length) :
    ∃ h, appendAll (wave c (ps ++ qs)) t =
      .raised .capacityExceeded (t.plus ((wave c ps).take (bufCap - t.len.val)) h) := by
  obtain ⟨h, ha⟩ := appendAll_overflow (wave_valid hl hp) hf
  exact ⟨h, by rw [wave_append, appendAll_append, ha, andThen_raised]⟩

end Stops

end Sys2Proof.Machine
end

