-- ==== Sys2Proof/Laws/Step.lean ====
section
/-! SUPPORT. What a command and a step can do, said once: every invariant starts from `exec_cases`, `step_cases` and the
lemmas about `phaseStep` and `phaseEncode`. -/

namespace Sys2Proof.Machine

/-- Taking the events as they are changes nothing. -/
@[simp] theorem withInbox_self (s : State) : s.withInbox s.env.inbox = s := rfl

/-- An operation that appends nothing stores nothing. -/
theorem store_same (b : Buffer) : b.store b.tail = b := by
  have : storeFrom b.cells b.len.val [] = b.cells := by
    simp [storeFrom, indexed, List.takeWhile_append_dropWhile]
  cases b
  simpa [Buffer.store, Buffer.tail] using this

/-- An operation refused before its first append is a response and nothing else. -/
theorem runOnBuffer_refused {s : State} {op : Tail → Attempt} {e : Status}
    (h : op s.block.buf.tail = .raised e s.block.buf.tail) : s.runOnBuffer op = s.respond e .none := by
  rw [State.runOnBuffer, h, tail_raised, status_raised, store_same]; rfl

/-- An operation carried out to its end answers `OK` and appends what it appended. -/
theorem runOnBuffer_done {s : State} {op : Tail → Attempt} {t : Tail} {es : List Entry}
    (h : op s.block.buf.tail = .done t) (hx : s.block.buf.tail.Extends t es) :
    ∃ b, s.runOnBuffer op = s.withBuffer b .ok ∧ b.len = t.len ∧ Appended s.block.buf b es :=
  ⟨_, by rw [State.runOnBuffer, h]; rfl, rfl, store_appended hx⟩

/-- An operation stopped by a raise answers its status and keeps what it appended before it (R272). -/
theorem runOnBuffer_raised {s : State} {op : Tail → Attempt} {e : Status} {t : Tail} {es : List Entry}
    (h : op s.block.buf.tail = .raised e t) (hx : s.block.buf.tail.Extends t es) :
    ∃ b, s.runOnBuffer op = s.withBuffer b e ∧ b.len = t.len ∧ Appended s.block.buf b es :=
  ⟨_, by rw [State.runOnBuffer, h]; rfl, rfl, store_appended hx⟩

/-- Everything a command can do: respond and nothing else; carry out one operation on the buffer; clear the length; write
the configuration; accept a transmission. -/
theorem exec_cases {i : Instr} {s t : State} (h : exec i s = .next t) :
    (∃ st v, t = s.respond st v ∧ (st ≠ .ok → v = .none)) ∨
    (s.isIdle ∧ (∀ a, i ≠ .configure a) ∧ (∃ op : Tail → Attempt, (∀ u, (op u).GrowsFrom u) ∧ t = s.runOnBuffer op) ∧
      i ≠ .bufLen ∧ (∀ k, i ≠ .bufRead k) ∧ ∀ bs w v, i ≠ .pack bs w v) ∨
    (s.isIdle ∧ i = .bufReset ∧ t = s.emit { s.block with buf := s.block.buf.clear } [.response .ok .none]) ∨
    (s.isIdle ∧ ∃ a c, i = .configure a ∧ configured a = some c ∧
      t = s.emit { s.block with cfg := c, cfgValid := true } [.response .ok .none]) ∨
    (s.isReady ∧ ∃ toks rep, rep ≠ 0 ∧ t = s.emit (s.block.accept toks rep) [] ∧
      ((i = .transmit toks rep ∧ exceeds s.params.maxTokens toks.length = false) ∨
        ∃ bs w v, i = .transmitBytes bs w v rep ∧ toks = packBody bs w v ∧ packTooLong s.params bs w = false)) := by
  by_cases hidle : s.block.ctrl.phase = .idle
  swap
  · have : exec i s = .next (s.respond .busy .none) := by
      cases i <;> exact congrArg Host.Outcome.next (if_neg hidle)
    rw [this] at h
    exact .inl ⟨_, _, (Host.Outcome.next.inj h).symm, fun _ => rfl⟩
  have conf : ∀ act : State → State, whenIdle s (fun s => whenConfigured s act) = .next t →
      (s.isReady ∧ t = act s) ∨ t = s.respond .notConfigured .none := by
    intro act h
    rw [whenIdle_idle hidle] at h
    by_cases hv : s.block.cfgValid = true
    · rw [whenConfigured_valid hv] at h
      exact .inl ⟨⟨hidle, hv⟩, (Host.Outcome.next.inj h).symm⟩
    · rw [whenConfigured, if_neg hv] at h
      exact .inr (Host.Outcome.next.inj h).symm
  have resp : ∀ st, st ≠ .ok → t = s.respond st .none → ∃ st v, t = s.respond st v ∧ (st ≠ .ok → v = .none) :=
    fun st _ h => ⟨st, .none, h, fun _ => rfl⟩
  cases i with
  | bufReset => exact .inr (.inr (.inl ⟨hidle, rfl, by
      rw [exec, execBufReset, whenIdle_idle hidle] at h; exact (Host.Outcome.next.inj h).symm⟩))
  | bufAppend m sp d =>
    rw [exec, execBufAppend, whenIdle_idle hidle] at h
    exact .inr (.inl ⟨hidle, by simp, ⟨_, append_grows m sp d, (Host.Outcome.next.inj h).symm⟩, by simp⟩)
  | bufLen =>
    rw [exec, execBufLen, whenIdle_idle hidle] at h
    exact .inl ⟨_, _, (Host.Outcome.next.inj h).symm, fun h => absurd rfl h⟩
  | bufRead k =>
    rw [exec, execBufRead, whenIdle_idle hidle] at h
    have h := (Host.Outcome.next.inj h).symm
    split at h
    · exact .inl ⟨_, _, h, fun h => absurd rfl h⟩
    · exact .inl ⟨_, _, h, fun _ => rfl⟩
  | emitSpace d =>
    rcases conf _ h with ⟨-, h⟩ | h
    · exact .inr (.inl ⟨hidle, by simp, ⟨_, emitSpace_grows _ d, h⟩, by simp⟩)
    · exact .inl (resp _ (by decide) h)
  | emitMark d =>
    rcases conf _ h with ⟨-, h⟩ | h
    · exact .inr (.inl ⟨hidle, by simp, ⟨_, emitMark_grows _ d, h⟩, by simp⟩)
    · exact .inl (resp _ (by decide) h)
  | configure a =>
    rw [exec, execConfigure, whenIdle_idle hidle] at h
    have h := (Host.Outcome.next.inj h).symm
    cases hc : configured a with
    | none => rw [hc] at h; exact .inl (resp _ (by decide) h)
    | some c => rw [hc] at h; exact .inr (.inr (.inr (.inl ⟨hidle, a, c, rfl, hc, h⟩)))
  | encode ts =>
    rcases conf _ h with ⟨-, h⟩ | h
    · split at h
      · exact .inl (resp _ (by decide) h)
      · exact .inr (.inl ⟨hidle, by simp, ⟨_, encodeBody_grows _ ts, h⟩, by simp⟩)
    · exact .inl (resp _ (by decide) h)
  | pack bs w v =>
    rw [exec, execPack, whenIdle_idle hidle] at h
    have h := (Host.Outcome.next.inj h).symm
    split at h
    · exact .inl ⟨_, _, h, fun _ => rfl⟩
    · exact .inl ⟨_, _, h, fun h => absurd rfl h⟩
  | transmit ts r =>
    rcases conf _ h with ⟨hr, h⟩ | h
    · split at h
      · exact .inl (resp _ (by decide) h)
      · rename_i hn
        rw [not_or] at hn
        exact .inr (.inr (.inr (.inr ⟨hr, ts, r, hn.1, h, .inl ⟨rfl, by simpa using hn.2⟩⟩)))
    · exact .inl (resp _ (by decide) h)
  | transmitBytes bs w v r =>
    rcases conf _ h with ⟨hr, h⟩ | h
    · split at h
      · exact .inl (resp _ (by decide) h)
      · rename_i hn
        rw [not_or] at hn
        exact .inr (.inr (.inr (.inr ⟨hr, _, r, hn.1, h, .inr ⟨bs, w, v, rfl, rfl, by simpa using hn.2⟩⟩)))
    · exact .inl (resp _ (by decide) h)

/-- Everything T_ENCODE can do (R225): store what the repeats appended, and go on to T_CLEAR or, with the status raised, to
T_TERM. -/
theorem phaseEncode_cases (b : Block) :
    (b.encodeAll.status = .ok ∧ phaseEncode b = { b with buf := b.buf.store b.encodeAll.tail }.goTo .tClear) ∨
    ((b.encodeAll.status = .invalidEntry ∨ b.encodeAll.status = .capacityExceeded ∨
        b.encodeAll.status = .invalidBitError) ∧
      phaseEncode b = { b with buf := b.buf.store b.encodeAll.tail }.failTo b.encodeAll.status .tTerm) := by
  have hg := (encodeRepeats_grows b.cfg b.ctrl.tokens b.ctrl.repeatCount.toNat b.buf.tail).2
  cases ha : b.encodeAll with
  | done t => exact .inl ⟨rfl, by rw [phaseEncode, ha]; rfl⟩
  | raised e t => exact .inr ⟨(hg e t ha).imp_right (.imp_left And.left), by rw [phaseEncode, ha]; rfl⟩

/-- What T_ENCODE leaves in the buffer. -/
theorem phaseEncode_buf (b : Block) : (phaseEncode b).buf = b.buf.store b.encodeAll.tail := by
  rcases phaseEncode_cases b with ⟨-, h⟩ | ⟨-, h⟩ <;> rw [h] <;> rfl

/-- T_ENCODE only appends. -/
theorem encodeAll_extends (b : Block) : ∃ es, b.buf.tail.Extends b.encodeAll.tail es :=
  (encodeRepeats_grows b.cfg b.ctrl.tokens b.ctrl.repeatCount.toNat b.buf.tail).1

/-- No phase but T_ENCODE touches the buffer or the configuration. -/
theorem phaseStep_frame (d : Draw) (b : Block) (h : b.ctrl.phase ≠ .tEncode) :
    (phaseStep d b).1.buf = b.buf ∧ (phaseStep d b).1.cfg = b.cfg ∧ (phaseStep d b).1.cfgValid = b.cfgValid := by
  unfold phaseStep
  split <;> first | exact ⟨rfl, rfl, rfl⟩ | contradiction | skip
  all_goals first | unfold phaseInit | unfold phaseLine | unfold phaseClear | unfold phaseStage | unfold phaseCreate |
    unfold phaseStart | unfold phasePoll
  all_goals try dsimp only
  all_goals split <;> exact ⟨rfl, rfl, rfl⟩

/-- T_ENCODE leaves the configuration. -/
theorem phaseEncode_cfg (b : Block) : (phaseEncode b).cfg = b.cfg ∧ (phaseEncode b).cfgValid = b.cfgValid := by
  rcases phaseEncode_cases b with ⟨-, h⟩ | ⟨-, h⟩ <;> rw [h] <;> exact ⟨rfl, rfl⟩

/-- The first of several steps. -/
theorem runSteps_succ {n : Nat} {s t : State} (h : step s = .next t) : runSteps (n + 1) s = runSteps n t := by
  rw [runSteps, h]

/-- Runs compose. -/
theorem runSteps_add (m n : Nat) {s t : State} (h : runSteps m s = .next t) : runSteps (m + n) s = runSteps n t := by
  induction m generalizing s with
  | zero => cases h; simp
  | succ m ih =>
    rw [show m + 1 + n = (m + n) + 1 by omega, runSteps]
    rw [runSteps] at h
    cases hs : step s with
    | next u => rw [hs] at h; exact ih h
    | fault r => cases r
    | refused r => rw [hs] at h; cases h

/-- Everything a step can do. -/
theorem step_cases {s t : State} (h : step s = .next t) :
    (∃ c rest, s.env.inbox = .command c :: rest ∧
      ((∃ i, decode c = .ok i ∧ exec i (s.withInbox rest) = .next t) ∨
        ((∃ e, decode c = .error e) ∧ t = (s.withInbox rest).respond .illegalCommand .none))) ∨
    (∃ rest, s.env.inbox = .reset :: rest ∧ t = (s.withInbox rest).applyReset) ∨
    (s.noReset ∧ ∃ rest, t = s.withInbox rest) ∨
    (s.noReset ∧ s.block.ctrl.phase = .tEncode ∧ ∃ rest, t = (s.withInbox rest).encodeStep) ∨
    (s.noReset ∧ s.block.ctrl.phase ≠ .tEncode ∧ ∃ d rest, t = (s.withInbox rest).answerStep d) := by
  rw [step, nextEvent] at h
  split at h
  · rename_i hi
    have hn : s.noReset := by simp [State.noReset, hi]
    have h := (Host.Outcome.next.inj h).symm
    rw [State.quietStep] at h
    split at h
    · rename_i hp
      exact .inr (.inr (.inr (.inl ⟨hn, hp, s.env.inbox, h⟩)))
    · rename_i hp
      split at h
      · exact .inr (.inr (.inr (.inr ⟨hn, hp, _, s.env.inbox, h⟩)))
      · exact .inr (.inr (.inl ⟨hn, s.env.inbox, h⟩))
  · rename_i c rest hi
    rw [serveCommand] at h
    split at h
    · rename_i i hd
      exact .inl ⟨c, rest, hi, .inl ⟨i, hd, h⟩⟩
    · rename_i e hd
      exact .inl ⟨c, rest, hi, .inr ⟨⟨e, hd⟩, (Host.Outcome.next.inj h).symm⟩⟩
  · rename_i rest hi
    exact .inr (.inl ⟨rest, hi, (Host.Outcome.next.inj h).symm⟩)
  · rename_i d rest hi
    have hn : s.noReset := by simp [State.noReset, hi]
    have h := (Host.Outcome.next.inj h).symm
    split at h
    · rename_i hp
      exact .inr (.inr (.inr (.inl ⟨hn, hp, s.env.inbox, h⟩)))
    · rename_i hp
      exact .inr (.inr (.inr (.inr ⟨hn, hp, d, rest, h⟩)))
  · rename_i d rest hi
    have hn : s.noReset := by simp [State.noReset, hi]
    exact .inr (.inr (.inl ⟨hn, rest, (Host.Outcome.next.inj h).symm⟩))
  · rename_i rest hi
    have hn : s.noReset := by simp [State.noReset, hi]
    have h := (Host.Outcome.next.inj h).symm
    split at h
    · rename_i hp
      exact .inr (.inr (.inr (.inl ⟨hn, hp, rest, h⟩)))
    · exact .inr (.inr (.inl ⟨hn, rest, h⟩))

/-- Every command answers a next state. -/
theorem exec_total (i : Instr) (s : State) : ∃ t, exec i s = .next t := by
  cases i <;> exact ⟨_, rfl⟩

end Sys2Proof.Machine
end

