-- ==== Sys2Proof/Laws/Handles.lean ====
section
/-! SUPPORT. The block never looks at a handle (R10): every action commutes with a renaming of the handles. -/

namespace Sys2Proof.Machine

variable (f : Handle → Handle)

/-! ### One lemma per field -/

@[simp] theorem mapHandles_cfg (b : Block) : (b.mapHandles f).cfg = b.cfg := rfl
@[simp] theorem mapHandles_cfgValid (b : Block) : (b.mapHandles f).cfgValid = b.cfgValid := rfl
@[simp] theorem mapHandles_buf (b : Block) : (b.mapHandles f).buf = b.buf := rfl
@[simp] theorem mapHandles_phase (b : Block) : (b.mapHandles f).ctrl.phase = b.ctrl.phase := rfl
@[simp] theorem mapHandles_tokens (b : Block) : (b.mapHandles f).ctrl.tokens = b.ctrl.tokens := rfl
@[simp] theorem mapHandles_repeatCount (b : Block) : (b.mapHandles f).ctrl.repeatCount = b.ctrl.repeatCount := rfl
@[simp] theorem mapHandles_pend (b : Block) : (b.mapHandles f).ctrl.pend = b.ctrl.pend := rfl
@[simp] theorem mapHandles_session (b : Block) : (b.mapHandles f).ctrl.session = b.ctrl.session := rfl
@[simp] theorem mapHandles_handleHeld (b : Block) : (b.mapHandles f).ctrl.handleHeld = b.ctrl.handleHeld := rfl
@[simp] theorem mapHandles_handle (b : Block) : (b.mapHandles f).ctrl.handle = f b.ctrl.handle := rfl
@[simp] theorem mapHandles_block (s : State) : (s.mapHandles f).block = s.block.mapHandles f := rfl
@[simp] theorem mapHandles_params (s : State) : (s.mapHandles f).params = s.params := rfl

/-! ### Actions -/

/-- Renaming passes through an action's update. -/
theorem emit_mapHandles (s : State) (b : Block) (out : List Output) :
    (s.emit b out).mapHandles f = (s.mapHandles f).emit (b.mapHandles f) (out.map (Output.mapHandles f)) := by
  simp [State.emit, State.mapHandles]

/-- Renaming passes through taking an event. -/
theorem withInbox_mapHandles (s : State) (rest : List Event) :
    (s.withInbox rest).mapHandles f = (s.mapHandles f).withInbox (rest.map (Event.mapHandles f)) := rfl

/-- T_ENCODE commutes with a renaming of the stored handle. -/
theorem phaseEncode_mapHandles (b : Block) : phaseEncode (b.mapHandles f) = (phaseEncode b).mapHandles f := by
  have h : (b.mapHandles f).encodeAll = b.encodeAll := rfl
  rw [phaseEncode, h, phaseEncode]
  cases b.encodeAll <;> rfl

/-- A phase that consumes a draw commutes with a renaming of the stored handle and the draw's. -/
theorem phaseStep_mapHandles (d : Draw) (b : Block) :
    phaseStep (d.mapHandles f) (b.mapHandles f) =
      ((phaseStep d b).1.mapHandles f, (phaseStep d b).2.map (Output.mapHandles f)) := by
  by_cases hp : b.ctrl.phase = .tEncode
  · rw [phaseStep, phaseStep, mapHandles_phase, hp, phaseEncode_mapHandles]; rfl
  · obtain ⟨cv, cfg, buf, ⟨ph, toks, rep, pend, ses, hh, hdl⟩⟩ := b
    obtain ⟨ok, n, h, busy⟩ := d
    cases ph <;> first | exact absurd rfl hp | (cases ok <;> cases busy <;> rfl)

/-- The request the block waits on carries the stored handle and no other. -/
theorem pendingRequest_mapHandles (b : Block) :
    (b.mapHandles f).pendingRequest = b.pendingRequest.map (Request.mapHandles f) := by
  obtain ⟨cv, cfg, buf, ⟨ph, toks, rep, pend, ses, hh, hdl⟩⟩ := b
  cases ph <;> rfl

/-- A response commutes with a renaming. -/
theorem respond_mapHandles (s : State) (st : Status) (v : Value) :
    (s.mapHandles f).respond st v = (s.respond st v).mapHandles f := by
  rw [State.respond, State.respond, emit_mapHandles]; rfl

/-- An operation on the buffer commutes with a renaming. -/
theorem runOnBuffer_mapHandles (s : State) (op : Tail → Attempt) :
    (s.mapHandles f).runOnBuffer op = (s.runOnBuffer op).mapHandles f := by
  rw [State.runOnBuffer, State.runOnBuffer, emit_mapHandles]; rfl

/-- The acceptance of a transmission commutes with a renaming. -/
theorem accept_mapHandles (s : State) (toks : List Token) (rep : Word) :
    (s.mapHandles f).emit ((s.mapHandles f).block.accept toks rep) [] =
      (s.emit (s.block.accept toks rep) []).mapHandles f := by
  rw [emit_mapHandles]; rfl

variable {f}

/-- The check of the phase commutes where what it guards does. -/
theorem whenIdle_mapHandles {act : State → State} {s t : State} (h : whenIdle s act = .next t)
    (ha : act (s.mapHandles f) = (act s).mapHandles f) : whenIdle (s.mapHandles f) act = .next (t.mapHandles f) := by
  have h := Host.Outcome.next.inj h
  rw [whenIdle, mapHandles_block, mapHandles_phase, ha, respond_mapHandles, ← h]
  split <;> rfl

/-- The check of the configuration commutes where what it guards does. -/
theorem whenConfigured_mapHandles {act : State → State} {s : State}
    (ha : act (s.mapHandles f) = (act s).mapHandles f) :
    whenConfigured (s.mapHandles f) act = (whenConfigured s act).mapHandles f := by
  rw [whenConfigured, mapHandles_block, mapHandles_cfgValid, ha, respond_mapHandles, whenConfigured]
  split <;> rfl

/-- Every command commutes with a renaming of the handles. -/
theorem exec_mapHandles {i : Instr} {s t : State} (h : exec i s = .next t) :
    exec i (s.mapHandles f) = .next (t.mapHandles f) := by
  cases i with
  | bufReset =>
    rw [exec, execBufReset] at h ⊢
    refine whenIdle_mapHandles h ?_
    rw [emit_mapHandles]; rfl
  | bufAppend m sp d => rw [exec, execBufAppend] at h ⊢; exact whenIdle_mapHandles h (runOnBuffer_mapHandles f s _)
  | bufLen => rw [exec, execBufLen] at h ⊢; exact whenIdle_mapHandles h (respond_mapHandles f s _ _)
  | bufRead k =>
    rw [exec, execBufRead] at h ⊢
    refine whenIdle_mapHandles h ?_
    simp only [mapHandles_block, mapHandles_buf, respond_mapHandles]
    split <;> rfl
  | emitSpace d =>
    rw [exec, execEmitSpace] at h ⊢
    exact whenIdle_mapHandles h (whenConfigured_mapHandles (runOnBuffer_mapHandles f s _))
  | emitMark d =>
    rw [exec, execEmitMark] at h ⊢
    exact whenIdle_mapHandles h (whenConfigured_mapHandles (runOnBuffer_mapHandles f s _))
  | configure a =>
    rw [exec, execConfigure] at h ⊢
    refine whenIdle_mapHandles h ?_
    cases configured a with
    | none => exact respond_mapHandles f s _ _
    | some c => dsimp only; rw [emit_mapHandles]; rfl
  | encode ts =>
    rw [exec, execEncode] at h ⊢
    refine whenIdle_mapHandles h (whenConfigured_mapHandles ?_)
    simp only [mapHandles_params, mapHandles_block, mapHandles_cfg, respond_mapHandles, runOnBuffer_mapHandles]
    split <;> rfl
  | pack bs w v =>
    rw [exec, execPack] at h ⊢
    refine whenIdle_mapHandles h ?_
    simp only [mapHandles_params, respond_mapHandles]
    split <;> rfl
  | transmit ts r =>
    rw [exec, execTransmit] at h ⊢
    refine whenIdle_mapHandles h (whenConfigured_mapHandles ?_)
    simp only [mapHandles_params, respond_mapHandles, accept_mapHandles]
    split <;> rfl
  | transmitBytes bs w v r =>
    rw [exec, execTransmitBytes] at h ⊢
    refine whenIdle_mapHandles h (whenConfigured_mapHandles ?_)
    simp only [mapHandles_params, respond_mapHandles, accept_mapHandles]
    split <;> rfl

end Sys2Proof.Machine
end

