-- ==== Sys2Proof/Laws/Pack.lean ====
section
/-! SUPPORT. The bit packer: how many masks it visits, and what one byte's loop leaves. -/

namespace Sys2Proof.Machine

/-- `W(BWM)` is the least exponent whose power of two reaches `BWM` (R200). -/
theorem bitsPerByte_eq_clog (bwm : Word) : bitsPerByte bwm = Nat.clog 2 bwm.toNat := by
  have key : ∀ m n : Nat, (List.range m).countP (fun k => decide (2 ^ k < n)) = min m (Nat.clog 2 n) := by
    intro m n
    induction m with
    | zero => simp
    | succ m ih =>
      rw [List.range_succ, List.countP_append, ih, List.countP_singleton]
      by_cases h : 2 ^ m < n
      · have := (Nat.lt_clog_iff_pow_lt (by norm_num : 1 < 2)).2 h
        simp [h]; omega
      · have : ¬ m < Nat.clog 2 n := fun hc => h ((Nat.lt_clog_iff_pow_lt (by norm_num : 1 < 2)).1 hc)
        simp [h]; omega
  rw [bitsPerByte, key]
  have : Nat.clog 2 bwm.toNat ≤ 32 := (Nat.clog_le_iff_le_pow (by norm_num)).2 bwm.isLt.le
  omega

/-- The loop's test, as a test on the exponent. -/
theorem pow_lt_iff (bwm : Word) (k : Nat) : 2 ^ k < bwm.toNat ↔ k < bitsPerByte bwm := by
  rw [bitsPerByte_eq_clog, Nat.lt_clog_iff_pow_lt (by norm_num)]

theorem bitsPerByte_le (bwm : Word) : bitsPerByte bwm ≤ 32 := by
  rw [bitsPerByte_eq_clog]
  exact (Nat.clog_le_iff_le_pow (by norm_num)).2 bwm.isLt.le

/-- The token of mask `2^k` is the token of bit `k` (R201). -/
theorem packToken_pow (b : Byte) (k : Nat) : packToken b (2 ^ k) = bitToken b k := by
  have : b.toNat &&& 2 ^ k = (b.getLsbD k).toNat * 2 ^ k := by
    rw [Nat.and_two_pow]; simp [BitVec.testBit_toNat]
  rw [packToken, bitToken, this]
  cases b.getLsbD k <;> simp

/-- The inner loop of R202 from mask `2^j` on, by the order flag. -/
theorem packByte_from (bwm : Word) (inv : Bool) (b : Byte) (n j : Nat) (h : bitsPerByte bwm ≤ j + n) (acc : List Token) :
    packByte bwm inv b n (2 ^ j) acc =
      if inv then acc ++ (List.range' j (bitsPerByte bwm - j)).map (bitToken b)
      else ((List.range' j (bitsPerByte bwm - j)).map (bitToken b)).reverse ++ acc := by
  induction n generalizing j acc with
  | zero =>
    have : bitsPerByte bwm - j = 0 := by omega
    cases inv <;> simp [packByte, this]
  | succ n ih =>
    rw [packByte]
    by_cases hj : 2 ^ j < bwm.toNat
    · have hw := (pow_lt_iff bwm j).1 hj
      have hr : List.range' j (bitsPerByte bwm - j) = j :: List.range' (j + 1) (bitsPerByte bwm - (j + 1)) := by
        rw [show bitsPerByte bwm - j = (bitsPerByte bwm - (j + 1)) + 1 by omega, List.range'_succ]
      rw [if_pos hj, show 2 * 2 ^ j = 2 ^ (j + 1) by ring, ih (j + 1) (by omega), hr, packToken_pow]
      cases inv <;> simp
    · have : bitsPerByte bwm - j = 0 := by
        have := mt (pow_lt_iff bwm j).2 hj; omega
      rw [if_neg hj]
      cases inv <;> simp [this]

/-- One byte's loop appends its bits lowest first, or puts them in front highest first (R202). -/
theorem packByte_eq (bwm : Word) (inv : Bool) (b : Byte) (acc : List Token) :
    packByte bwm inv b 32 1 acc =
      if inv then acc ++ lsbFirst (bitsPerByte bwm) b else msbFirst (bitsPerByte bwm) b ++ acc := by
  have := packByte_from bwm inv b 32 0 (by have := bitsPerByte_le bwm; omega) acc
  simpa [lsbFirst, msbFirst, List.range_eq_range'] using this

/-- `PackBody` in its closed forms (R203, R204). -/
theorem packBody_eq (bs : List Byte) (w : Word) (v : Bool) :
    packBody bs w v = bs.flatMap (if v then lsbFirst (bitsPerByte w) else msbFirst (bitsPerByte w)) := by
  have h1 : ∀ (bs : List Byte) acc, bs.foldl (fun acc b => packByte w true b 32 1 acc) acc =
      acc ++ bs.flatMap (lsbFirst (bitsPerByte w)) := by
    intro bs
    induction bs with
    | nil => simp
    | cons b bs ih => intro acc; rw [List.foldl_cons, ih, packByte_eq]; simp
  have h2 : ∀ bs : List Byte, bs.reverse.foldl (fun acc b => packByte w false b 32 1 acc) [] =
      bs.flatMap (msbFirst (bitsPerByte w)) := by
    intro bs
    induction bs with
    | nil => simp
    | cons b bs ih => rw [List.reverse_cons, List.foldl_append, ih]; simp [packByte_eq]
  cases v
  · simpa [packBody] using h2 bs
  · simpa [packBody] using h1 bs []

end Sys2Proof.Machine
end

