-- ==== Sys2Proof/Laws/PerInstr.lean ====
section
/-! SUPPORT. Statements made once per instruction, as syntax: the command the encoder writes for it is well formed (R81, R82). -/

namespace Sys2Proof.Laws.EncodedWf

/-- The encoded command has a zero reserved field, an assigned opcode, and zeros in the fields its opcode does not read. -/
def Statement (i : Instr) : Prop := (encode i).wf = true

theorem wf_of (i : Instr) (h1 : rsvField i.opcode.word = 0) (h2 : Opcode.ofCode (opcField i.opcode.word) = some i.opcode)
    (h3 : (instrOf i.opcode i.args).args = i.args) : Statement i := by
  simp [Statement, Command.wf, Command.rsvOk, Command.opcOk, Command.argsOk, encode, h1, h2, h3]

theorem bufReset : Statement .bufReset := wf_of _ (by decide) (by decide) rfl

theorem bufAppend (mark space dur : Word) : Statement (.bufAppend mark space dur) :=
  wf_of _ (by decide : rsvField Opcode.bufAppend.word = 0)
    (by decide : Opcode.ofCode (opcField Opcode.bufAppend.word) = some .bufAppend) rfl

theorem bufLen : Statement .bufLen := wf_of _ (by decide) (by decide) rfl

theorem bufRead (index : Word) : Statement (.bufRead index) :=
  wf_of _ (by decide : rsvField Opcode.bufRead.word = 0)
    (by decide : Opcode.ofCode (opcField Opcode.bufRead.word) = some .bufRead) rfl

theorem emitSpace (dur : Word) : Statement (.emitSpace dur) :=
  wf_of _ (by decide : rsvField Opcode.emitSpace.word = 0)
    (by decide : Opcode.ofCode (opcField Opcode.emitSpace.word) = some .emitSpace) rfl

theorem emitMark (dur : Word) : Statement (.emitMark dur) :=
  wf_of _ (by decide : rsvField Opcode.emitMark.word = 0)
    (by decide : Opcode.ofCode (opcField Opcode.emitMark.word) = some .emitMark) rfl

theorem configure (a : ConfigArgs) : Statement (.configure a) :=
  wf_of _ (by decide : rsvField Opcode.configure.word = 0)
    (by decide : Opcode.ofCode (opcField Opcode.configure.word) = some .configure) rfl

theorem encode (toks : List Token) : Statement (.encode toks) :=
  wf_of _ (by decide : rsvField Opcode.encode.word = 0)
    (by decide : Opcode.ofCode (opcField Opcode.encode.word) = some .encode) rfl

theorem pack (data : List Byte) (bwm : Word) (inv : Bool) : Statement (.pack data bwm inv) :=
  wf_of _ (by decide : rsvField Opcode.pack.word = 0)
    (by decide : Opcode.ofCode (opcField Opcode.pack.word) = some .pack) rfl

theorem transmit (toks : List Token) (rep : Word) : Statement (.transmit toks rep) :=
  wf_of _ (by decide : rsvField Opcode.transmit.word = 0)
    (by decide : Opcode.ofCode (opcField Opcode.transmit.word) = some .transmit) rfl

theorem transmitBytes (data : List Byte) (bwm : Word) (inv : Bool) (rep : Word) :
    Statement (.transmitBytes data bwm inv rep) :=
  wf_of _ (by decide : rsvField Opcode.transmitBytes.word = 0)
    (by decide : Opcode.ofCode (opcField Opcode.transmitBytes.word) = some .transmitBytes) rfl

end Sys2Proof.Laws.EncodedWf
end

