-- ==== Sys2Proof/Tests/Slice0.lean ====
section
/-! SUPPORT. Tests. Expected results are the spec's: the words of 30_encoding.md R81 and R82, the vectors of
95_test_vectors.md (named in each comment), or R-numbered examples. -/

namespace Sys2Proof.Machine

/-! ### Small states -/

/-- A block in IDLE, configured with `c`, its buffer empty. -/
def configuredWith (c : Cfg) : State :=
  { State.reset with block := { Block.reset with cfg := { c with lineId := 18 }, cfgValid := true } }

def nec : State := configuredWith (defaults .nec)
def rc5 : State := configuredWith (defaults .rc5)
def raw : State := configuredWith (defaults .raw)

/-- A state with another value of `BUF.LEN`, phase, or events to come. -/
def State.withLen (s : State) (n : Fin (bufCap + 1)) : State :=
  { s with block := { s.block with buf := { s.block.buf with len := n } } }
def State.inPhase (s : State) (p : Phase) : State :=
  { s with block := { s.block with ctrl := { s.block.ctrl with phase := p } } }

/-- What a test looks at: the response last given, the length, and entries. -/
def lastOutput (o : Host.Outcome State Fault Refusal) : Option Output :=
  match o with
  | .next s => s.env.log.getLast?
  | _ => none
def lenAfter (o : Host.Outcome State Fault Refusal) : Nat :=
  match o with
  | .next s => s.block.buf.len.val
  | _ => 0
def entryAfter (k : Nat) (o : Host.Outcome State Fault Refusal) : Entry :=
  match o with
  | .next s => s.block.buf.entry k
  | _ => Entry.unwritten
def blockAfter (o : Host.Outcome State Fault Refusal) : Block :=
  match o with
  | .next s => s.block
  | _ => Block.reset

/-- A backend answer: `Ok`, with a handle, not busy. -/
def yes : Draw := ⟨true, 0, .first, false⟩
def no : Draw := ⟨false, 0, .first, false⟩
def busyDraw : Draw := ⟨true, 0, .first, true⟩

/-! ### Well-formed commands: one ill-formed command for each check -/

/-- R81: `RSV` is 1. -/
theorem test_wf_rsv : (⟨0x00000121, Args.zero⟩ : Command).rsvOk = false ∧ (⟨0x00000121, Args.zero⟩ : Command).wf = false := by
  decide
/-- R82: 0x05 is unassigned. -/
theorem test_wf_opc : (⟨0x00000005, Args.zero⟩ : Command).opcOk = false ∧ (⟨0x00000005, Args.zero⟩ : Command).wf = false := by
  decide
/-- R83: BUF_LEN reads no `DUR`. -/
theorem test_wf_args : (⟨0x00000003, { Args.zero with dur := 1 }⟩ : Command).argsOk = false ∧
    (⟨0x00000003, { Args.zero with dur := 1 }⟩ : Command).wf = false := by decide
theorem test_wf_ok : (⟨0x00000010, { Args.zero with dur := 1 }⟩ : Command).wf = true := by decide

/-! ### Decoding: each word written from R81 and R82, `RSV` of 24 zeros before the 8 bits of `OPC` -/

theorem test_decode_bufReset : decodeTableWord 32 0b00000000000000000000000000000001 = some .bufReset := by decide
theorem test_decode_bufAppend : decodeTableWord 32 0b00000000000000000000000000000010 = some (.bufAppend 0 0 0) := by decide
theorem test_decode_bufLen : decodeTableWord 32 0b00000000000000000000000000000011 = some .bufLen := by decide
theorem test_decode_bufRead : decodeTableWord 32 0b00000000000000000000000000000100 = some (.bufRead 0) := by decide
theorem test_decode_emitSpace : decodeTableWord 32 0b00000000000000000000000000010000 = some (.emitSpace 0) := by decide
theorem test_decode_emitMark : decodeTableWord 32 0b00000000000000000000000000010001 = some (.emitMark 0) := by decide
theorem test_decode_configure :
    decodeTableWord 32 0b00000000000000000000000000100000 = some (.configure ConfigArgs.zero) := by decide
theorem test_decode_encode : decodeTableWord 32 0b00000000000000000000000000100001 = some (.encode []) := by decide
theorem test_decode_pack : decodeTableWord 32 0b00000000000000000000000000110000 = some (.pack [] 0 false) := by decide
theorem test_decode_transmit : decodeTableWord 32 0b00000000000000000000000001000000 = some (.transmit [] 0) := by decide
theorem test_decode_transmitBytes :
    decodeTableWord 32 0b00000000000000000000000001000001 = some (.transmitBytes [] 0 false 0) := by decide
/-- ERR-1, ERR-2, and a word of another length. -/
theorem test_decode_refuses : decodeTableWord 32 0x000000FF = none ∧ decodeTableWord 32 0x00000121 = none ∧
    decodeTableWord 16 0x01 = none := by decide
/-- The argument fields reach the operands (R83): P2's BUF_READ and PACK records. -/
theorem test_decode_args : decode ⟨0x00000004, { Args.zero with index := 684 }⟩ = .ok (.bufRead 684) ∧
    decode ⟨0x00000030, { Args.zero with data := [0x12, 0x34], bwm := 0x00000100, inv := true }⟩ =
      .ok (.pack [0x12, 0x34] 256 true) := by decide

/-! ### The assembler (R85, R95) -/

theorem test_asm_buffer : assembleLine "BUF_APPEND  0x40000, 0, 9" = some (.bufAppend 0x40000 0 9) ∧
    assembleLine "BUF_READ 684 ; one entry" = some (.bufRead 684) ∧ assembleLine "BUF_LEN" = some .bufLen := by
  decide +kernel
/-- CFG-3 and CFG-4 as lines: `OVR[2]`, then `OVR[1:0]`. -/
theorem test_asm_configure :
    assembleLine "CONFIGURE RAW, 5, ONE_DURATION=300" =
      some (.configure ⟨2, 5, 0b0000000100, 0, 0, 0, ⟨300, 0, 0, 0, 0, 0, 0, 0⟩⟩) ∧
    assembleLine "CONFIGURE NEC, 18, FREQ=40000, DUTY=1/2" =
      some (.configure ⟨0, 18, 0b0000000011, 40000, 1, 2, Durs.zero⟩) ∧
    assembleLine "CONFIGURE RC5, 18, LEADING_MARK=1" = none := by decide +kernel
theorem test_asm_bytes : assembleLine "PACK [0x12, 0x34], 256, 1" = some (.pack [0x12, 0x34] 256 true) ∧
    assembleLine "TRANSMIT_BYTES [], 256, 0, 2" = some (.transmitBytes [] 256 false 2) ∧
    assembleLine "TRANSMIT_BYTES [256], 256, 0, 2" = none := by decide +kernel
/-- R85: `\xHH` in quotation marks. -/
theorem test_asm_tokens : assembleLine "TRANSMIT \"1\\x320\", 2" = some (.transmit [0x31, 0x32, 0x30] 2) := by
  decide +kernel

/-! ### The pulse buffer -/

/-- BUF-13: the length is 0, and BUF_READ 0 is refused then. -/
theorem test_bufReset : lenAfter (exec .bufReset (nec.withLen 813)) = 0 ∧
    lastOutput (exec (.bufRead 0) (nec.withLen 0)) = some (.response .invalidArgument .none) := by decide +kernel
/-- BUF-2 (with BUF-14: no configuration is needed). -/
theorem test_bufAppend : entryAfter 0 (exec (.bufAppend 0 1 4500) State.reset) = ⟨0, 1, 4500⟩ ∧
    lenAfter (exec (.bufAppend 0 1 4500) State.reset) = 1 := by decide +kernel
/-- BUF-9: the entry is checked before the capacity. -/
theorem test_bufAppend_order :
    lastOutput (exec (.bufAppend 0 1 0) (nec.withLen 12000)) = some (.response .invalidEntry .none) ∧
    lastOutput (exec (.bufAppend 0 1 5) (nec.withLen 12000)) = some (.response .capacityExceeded .none) := by decide +kernel
/-- BUF-1. -/
theorem test_bufLen : lastOutput (exec .bufLen State.reset) = some (.response .ok (.word 0)) := by decide +kernel
/-- ERR-4: the phase is checked before the argument. -/
theorem test_bufRead_busy :
    lastOutput (exec (.bufRead 100000) (nec.inPhase .tPoll)) = some (.response .busy .none) := by decide +kernel

/-! ### The carrier -/

/-- L2-B: `on` and `off` at 40000 Hz 1/2 (a tie), 38000 Hz 1/100 and 1 Hz 33/100; `N` at the ties 750 and 125. -/
theorem test_carrier :
    ((⟨.nec, 0, 40000, 1, 2, Durs.zero⟩ : Cfg).onTime, (⟨.nec, 0, 40000, 1, 2, Durs.zero⟩ : Cfg).offTime) = (13, 13) ∧
    ((⟨.nec, 0, 38000, 1, 100, Durs.zero⟩ : Cfg).onTime, (⟨.nec, 0, 38000, 1, 100, Durs.zero⟩ : Cfg).offTime) = (0, 26) ∧
    ((⟨.nec, 0, 1, 33, 100, Durs.zero⟩ : Cfg).onTime, (⟨.nec, 0, 1, 33, 100, Durs.zero⟩ : Cfg).offTime) = (330000, 670000) ∧
    (defaults .nec).periods 750 = 29 ∧ (defaults .rc5).periods 125 = 5 ∧
    (defaults .nec).periods 4294967295 = 163208757 := by decide +kernel
/-- EMIT-4. -/
theorem test_emitSpace : entryAfter 0 (exec (.emitSpace 0xFFFFFFFF) nec) = ⟨0, 0x40000, 4294967295⟩ := by decide +kernel
/-- EMIT-1's check, for EMIT_SPACE. -/
theorem test_emitSpace_unconfigured :
    lastOutput (exec (.emitSpace 4500) State.reset) = some (.response .notConfigured .none) := by decide +kernel
/-- EMIT-7. -/
theorem test_emitMark : lenAfter (exec (.emitMark 14) nec) = 2 ∧ entryAfter 0 (exec (.emitMark 14) nec) = ⟨0x40000, 0, 9⟩ ∧
    entryAfter 1 (exec (.emitMark 14) nec) = ⟨0, 0x40000, 18⟩ := by decide +kernel
/-- EMIT-13. -/
theorem test_emitMark_full : lenAfter (exec (.emitMark 562) (nec.withLen 11990)) = 12000 ∧
    lastOutput (exec (.emitMark 562) (nec.withLen 11990)) = some (.response .capacityExceeded .none) ∧
    entryAfter 11999 (exec (.emitMark 562) (nec.withLen 11990)) = ⟨0, 0x40000, 18⟩ := by decide +kernel

/-! ### CONFIGURE and ENCODE -/

/-- CFG-3. -/
theorem test_configure :
    (blockAfter (exec (.configure ⟨2, 5, 0b0000000100, 0, 0, 0, ⟨300, 0, 0, 0, 0, 0, 0, 0⟩⟩) State.reset)).cfg =
      ⟨.raw, 5, 36000, 33, 100, ⟨300, 520, 0, 0, 0, 0, 0, 0⟩⟩ := by decide +kernel
/-- CFG-7 and CFG-10: nothing is written. -/
theorem test_configure_refused :
    lastOutput (exec (.configure ⟨1, 18, 0b0000010000, 0, 0, 0, Durs.zero⟩) nec) = some (.response .configError .none) ∧
    blockAfter (exec (.configure ⟨0, 18, 0b0000000010, 0, 3, 2, Durs.zero⟩) nec) = nec.block := by decide +kernel
/-- L1-3: NEC "10". -/
theorem test_encode_nec : lenAfter (exec (.encode [0x31, 0x30]) nec) = 813 ∧
    entryAfter 684 (exec (.encode [0x31, 0x30]) nec) = ⟨0, 0x40000, 4500⟩ ∧
    entryAfter 727 (exec (.encode [0x31, 0x30]) nec) = ⟨0, 0x40000, 1686⟩ := by decide +kernel
/-- ENC-16 (RC-5 "1") and L1-1 (RAW "01x"). -/
theorem test_encode_rc5_raw : entryAfter 0 (exec (.encode [0x31]) rc5) = ⟨0, 0x40000, 889⟩ ∧
    entryAfter 1 (exec (.encode [0x31]) rc5) = ⟨0x40000, 0, 9⟩ ∧ lenAfter (exec (.encode [0x31]) rc5) = 65 ∧
    lenAfter (exec (.encode [0x30, 0x31, 0x78]) raw) = 39 ∧
    lastOutput (exec (.encode [0x30, 0x31, 0x78]) raw) = some (.response .invalidBitError .none) := by decide +kernel

/-! ### PACK -/

/-- PACK-2: "0100100000101100". -/
theorem test_pack_lsb : lastOutput (exec (.pack [0x12, 0x34] 256 true) State.reset) = some (.response .ok (.tokens
    [0x30, 0x31, 0x30, 0x30, 0x31, 0x30, 0x30, 0x30, 0x30, 0x30, 0x31, 0x30, 0x31, 0x31, 0x30, 0x30])) := by decide +kernel
/-- PACK-5 and PACK-14: "011111111" and "011011". -/
theorem test_pack_msb : packBody [0xFF] 512 false = 0x30 :: List.replicate 8 0x31 ∧
    packBody [0x01, 0x02, 0x03] 4 false = [0x30, 0x31, 0x31, 0x30, 0x31, 0x31] := by decide +kernel

/-! ### TRANSMIT -/

/-- TX-10's start: accepted, the buffer cleared, `initialize` pending. -/
theorem test_transmit : (blockAfter (exec (.transmit [0x31, 0x31] 1) (rc5.withLen 5))).ctrl =
      ⟨.tInit, [0x31, 0x31], 1, .ok, false, false, .first⟩ ∧ lenAfter (exec (.transmit [0x31, 0x31] 1) (rc5.withLen 5)) = 0 ∧
    (blockAfter (exec (.transmit [0x31, 0x31] 1) (rc5.withLen 5))).pendingRequest = some .initBackend := by decide +kernel
/-- TX-12 and TX-13. -/
theorem test_transmit_refused :
    lastOutput (exec (.transmit [0x31] 0) (rc5.withLen 5)) = some (.response .invalidArgument .none) ∧
    lastOutput (exec (.transmit [0x31] 0) State.reset) = some (.response .notConfigured .none) := by decide +kernel
/-- TX-17: the tokens latched are "00000001". -/
theorem test_transmitBytes : (blockAfter (exec (.transmitBytes [0x01] 256 false 1) nec)).ctrl.tokens =
    [0x30, 0x30, 0x30, 0x30, 0x30, 0x30, 0x30, 0x31] := by decide +kernel
/-- TX-14: T_ENCODE of RC-5 "11" twice gives 260 entries, and [130] starts the second copy. -/
theorem test_encode_phase :
    (phaseEncode { rc5.block with ctrl := ⟨.tEncode, [0x31, 0x31], 2, .ok, true, false, .first⟩ }).buf.len = 260 ∧
    (phaseEncode { rc5.block with ctrl := ⟨.tEncode, [0x31, 0x31], 2, .ok, true, false, .first⟩ }).buf.entry 130 =
      ⟨0, 0x40000, 889⟩ := by decide +kernel
/-- TX-7: after a failed `start` the handle is deleted. -/
theorem test_start_err (h : Handle) : phaseStart no { rc5.block with ctrl := ⟨.tStart, [], 1, .ok, true, true, h⟩ } =
    ({ rc5.block with ctrl := ⟨.tDelete, [], 1, .backendTransmitError, true, true, h⟩ }, [.call (.start h) .err]) := rfl
/-- TX-19: an illegal word during T_POLL is answered IllegalCommand, a legal one Busy. -/
theorem test_busy : lastOutput (step ((rc5.inPhase .tPoll).offer ⟨0x00000100, Args.zero⟩)) =
      some (.response .illegalCommand .none) ∧
    lastOutput (step ((rc5.inPhase .tPoll).offer ⟨0x00000003, Args.zero⟩)) = some (.response .busy .none) := by
  decide +kernel
/-- RST-2: a reset during the poll answers nothing, sends nothing, and leaves IDLE. -/
theorem test_reset : (blockAfter (step { (rc5.inPhase .tPoll) with env := ⟨[.reset], none, []⟩ })) = Block.reset ∧
    lastOutput (step { (rc5.inPhase .tPoll) with env := ⟨[.reset], none, []⟩ }) = some (.abandoned (.isBusy .first)) := by
  decide +kernel
/-- A placed word is the next instruction: BUF_LEN right after reset. -/
theorem test_fetch : lastOutput (step (State.reset.withFetchWord 32 3)) = some (.response .ok (.word 0)) := by decide +kernel

end Sys2Proof.Machine
end

