-- ==== Sys2Proof/Tests/Witnesses.lean ====
section
/-! SUPPORT. For each obligation with hypotheses, a concrete state and operands that meet all of them together, clause by clause,
at boundary values where a clause has a range. `test_witness_<Name>` belongs to `Obligations.<Name>`. -/

namespace Sys2Proof.Machine

/-- Whether a primitive is emittable, as a Bool. -/
def emits (c : Cfg) : Prim → Bool
  | .mark d  => c.periods d == 0 || (decide (1 ≤ c.onTime) && decide (1 ≤ c.offTime))
  | .space d => d != 0

theorem emits_emittable {c : Cfg} {ps : List Prim} (h : ps.all (emits c) = true) : ∀ p ∈ ps, p.emittable c := by
  intro p hp
  have := List.all_eq_true.1 h p hp
  cases p <;> simpa [emits, Prim.emittable] using this

/-- A state with events to come. -/
def State.hearing (s : State) (es : List Event) : State := s.withInbox es

/-- A command record with token and repeat operands. -/
def transmitCommand (ts : List Token) (r : Word) : Command := ⟨0x40, { Args.zero with toks := ts, rep := r }⟩

/-- A block in T_ENCODE with latched tokens and repeats, at a length. -/
def encoding (s : State) (ts : List Token) (r : Word) (n : Fin (bufCap + 1)) : State :=
  { s.withLen n with block := { (s.withLen n).block with ctrl := ⟨.tEncode, ts, r, .ok, true, false, .first⟩ } }

/-- A block in a phase of a transmission, with the resources of that phase held. -/
def during (p : Phase) : State :=
  { rc5 with block := { rc5.block with ctrl := ⟨p, [0x31, 0x31], 1, .ok, p.holdsSession, p.holdsHandle, .first⟩ } }

/-- NEC with other carriers: duty 1/1 (`off = 0`), duty 1/100 (`on = 0`). -/
def necFull : State := configuredWith { defaults .nec with dutyNum := 1, dutyDen := 1 }
def necThin : State := configuredWith { defaults .nec with dutyNum := 1, dutyDen := 100 }

/-- Bounds of 4 tokens and 1 byte. -/
def bounded (s : State) : State := { s with params := ⟨some 4, some 1⟩ }

theorem test_witness_DecodeEncodeInverse : (encode (.bufRead 5)).wf = true ∧ decode (encode (.bufRead 5)) = .ok (.bufRead 5) := by
  decide
theorem test_witness_StepRunsTheDecodedCommand :
    ((nec.hearing [.command ⟨0x03, Args.zero⟩]).env.inbox = .command ⟨0x03, Args.zero⟩ :: [] ∧
      decode ⟨0x03, Args.zero⟩ = .ok .bufLen) ∧ decodeTableWord 32 0x41 = some (.transmitBytes [] 0 false 0) := by decide
theorem test_witness_IllegalCommandsAreAnswered :
    ((nec.hearing [.command ⟨0x80000001, Args.zero⟩]).env.inbox = [.command ⟨0x80000001, Args.zero⟩] ∧
      (0x80000001 : Word).extractLsb' 8 24 ≠ 0) ∧
    ((nec.hearing [.command ⟨0x42, Args.zero⟩]).env.inbox = [.command ⟨0x42, Args.zero⟩] ∧
      (0x42 : Word).extractLsb' 0 8 ∉
        ([0x01, 0x02, 0x03, 0x04, 0x10, 0x11, 0x20, 0x21, 0x30, 0x40, 0x41] : List (BitVec 8))) := by decide
theorem test_witness_LegalCommandsOutsideIdleAreBusy : ¬ (during .tPoll).isIdle := by decide
theorem test_witness_UnconfiguredCommandsAreRefused : State.reset.isIdle ∧ State.reset.block.cfgValid = false := by decide
/-- BUF_READ at `INDEX = LEN`; one byte and one token too many; `REPEAT = 0`. -/
theorem test_witness_BadArgumentsAreRefused : (bounded (nec.withLen 3)).isIdle ∧ (bounded nec).block.cfgValid = true ∧
    (bounded (nec.withLen 3)).block.buf.len.val ≤ (3 : Word).toNat ∧
    ((bounded nec).params.maxDataBytes = some 1 ∧ 1 < ([0x01, 0x02] : List Byte).length) ∧
    ((bounded nec).params.maxTokens = some 4 ∧ 4 < ([0x01] : List Byte).length * bitsPerByte 17) ∧
    4 < ([0x31, 0x30, 0x31, 0x30, 0x31] : List Token).length := by decide +kernel
theorem test_witness_OneResponsePerCommand :
    (∃ t, exec .bufLen nec = .next t) ∧ ∃ t, exec (.transmit [] 1) nec = .next t := ⟨⟨_, rfl⟩, ⟨_, rfl⟩⟩
theorem test_witness_BufResetClearsTheLength : ¬ (during .tInit).isIdle ∧ nec.isIdle := by decide
/-- Full at 12000, room at 11999. -/
theorem test_witness_BufAppendOutcomes : ¬ (during .tTerm).isIdle ∧ nec.isIdle ∧ (1 : Word) ≠ 0 ∧
    (nec.withLen 12000).block.buf.len.val = 12000 ∧ (nec.withLen 11999).block.buf.len.val < 12000 ∧
    (nec.withLen 12000).isIdle ∧ (nec.withLen 11999).isIdle := by decide
theorem test_witness_BufLenAnswersTheLength : ¬ (during .tLine).isIdle ∧ nec.isIdle := by decide
/-- The newest entry, and the index after it. -/
theorem test_witness_BufReadAnswersTheEntry : ¬ (during .tStage).isIdle ∧ (nec.withLen 3).isIdle ∧
    (2 : Word).toNat < (nec.withLen 3).block.buf.len.val ∧ (nec.withLen 3).block.buf.len.val ≤ (3 : Word).toNat := by decide
theorem test_witness_EntriesAreImmutable :
    ∃ t, step (nec.hearing [.command (encode (.bufAppend 0 1 5))]) = .next t := ⟨_, rfl⟩
theorem test_witness_RoundingIsNearestTiesUp : 0 < 1 := by decide
theorem test_witness_SubPulsesStayNearThePeriod : (defaults .nec).carrierLegal = true ∧
    (⟨.nec, 0, 0xFFFFFFFF, 1, 65535, Durs.zero⟩ : Cfg).carrierLegal = true ∧
    (⟨.nec, 0, 1, 65535, 65535, Durs.zero⟩ : Cfg).carrierLegal = true := by decide
/-- 1/2 and 2/4 (R89). -/
theorem test_witness_EqualDutyFractionsAgree : (⟨.nec, 0, 38000, 1, 2, Durs.zero⟩ : Cfg).carrierLegal = true ∧
    (⟨.raw, 3, 38000, 2, 4, Durs.zero⟩ : Cfg).carrierLegal = true ∧
    (1 : BitVec 16).toNat * (4 : BitVec 16).toNat = (2 : BitVec 16).toNat * (2 : BitVec 16).toNat := by decide
theorem test_witness_EmitSpaceOutcomes : nec.isReady ∧ (nec.withLen 12000).isReady ∧ (nec.withLen 11999).isReady ∧
    (1 : Word) ≠ 0 ∧ (nec.withLen 12000).block.buf.len.val = 12000 ∧ (nec.withLen 11999).block.buf.len.val < 12000 := by
  decide
/-- A burst that exactly fits; and EMIT-14, no period at all. -/
theorem test_witness_EmitMarkAppendsTheBurst : (nec.withLen 11958).isReady ∧
    (nec.withLen 11958).block.cfg.carrierLegal = true ∧ emits (nec.withLen 11958).block.cfg (.mark 562) = true ∧
    (nec.withLen 11958).block.buf.len.val + 2 * (nec.withLen 11958).block.cfg.periods 562 ≤ 12000 ∧
    (nec.withLen 12000).block.buf.len.val + 2 * (nec.withLen 12000).block.cfg.periods 13 ≤ 12000 := by decide +kernel
/-- EMIT-11; a full buffer; EMIT-10 with room for one entry; EMIT-13. -/
theorem test_witness_EmitMarkStops :
    (necThin.isReady ∧ necThin.block.cfg.carrierLegal = true ∧ 1 ≤ necThin.block.cfg.periods 562 ∧
      necThin.block.cfg.onTime = 0) ∧
    ((nec.withLen 12000).isReady ∧ 1 ≤ nec.block.cfg.periods 14 ∧ 1 ≤ nec.block.cfg.onTime ∧
      (nec.withLen 12000).block.buf.len.val = 12000) ∧
    ((necFull.withLen 11999).isReady ∧ 1 ≤ necFull.block.cfg.periods 562 ∧ 1 ≤ necFull.block.cfg.onTime ∧
      necFull.block.cfg.offTime = 0 ∧ (necFull.withLen 11999).block.buf.len.val < 12000) ∧
    ((nec.withLen 11990).isReady ∧ 1 ≤ nec.block.cfg.offTime ∧ (nec.withLen 11990).block.buf.len.val < 12000 ∧
      12000 < (nec.withLen 11990).block.buf.len.val + 2 * nec.block.cfg.periods 562) := by decide +kernel
theorem test_witness_RealizedDurations : raw.isReady ∧ raw.block.cfg.carrierLegal = true ∧
    (∃ t, exec (.emitMark 14) raw = .next t ∧ t.env.log = raw.env.log ++ [.response .ok .none]) ∧
    ∃ t, exec (.emitSpace 1) raw = .next t ∧ t.env.log = raw.env.log ++ [.response .ok .none] :=
  ⟨by decide, by decide, ⟨_, rfl, by decide +kernel⟩, ⟨_, rfl, by decide +kernel⟩⟩
/-- Each refused case, and an accepted one (DUTY 1/1, CFG-11). -/
theorem test_witness_ConfigureOutcomes : ¬ (during .tCreate).isIdle ∧ nec.isIdle ∧
    configRefused ⟨3, 0, 0, 0, 0, 0, Durs.zero⟩ ∧ configRefused ⟨1, 18, 0b0000010000, 0, 0, 0, Durs.zero⟩ ∧
    configRefused ⟨0, 18, 1, 0, 0, 0, Durs.zero⟩ ∧ configRefused ⟨0, 18, 2, 0, 3, 2, Durs.zero⟩ ∧
    ¬ configRefused ⟨0, 18, 2, 0, 1, 1, Durs.zero⟩ := by
  unfold configRefused; decide
theorem test_witness_DefaultsOfEachVariant : State.reset.isIdle ∧ (ConfigArgs.zero).ovr = 0 ∧
    (⟨0, 18, 0, 1, 1, 1, Durs.zero⟩ : ConfigArgs).variant = 0 ∧ (⟨1, 18, 0, 1, 1, 1, Durs.zero⟩ : ConfigArgs).variant = 1 ∧
    (⟨2, 18, 0, 1, 1, 1, Durs.zero⟩ : ConfigArgs).variant = 2 := by decide
theorem test_witness_OnlyConfigureWritesCfg : ∃ t,
    step (State.reset.hearing [.command ⟨0x20, Args.zero⟩]) = .next t ∧
    (State.reset.hearing [.command ⟨0x20, Args.zero⟩]).noReset := ⟨_, rfl, by unfold State.noReset; decide⟩
/-- L1-3 with exactly the room it needs. -/
theorem test_witness_EncodeAppendsTheWaveform : (nec.withLen 11187).isReady ∧ nec.block.cfg.carrierLegal = true ∧
    exceeds nec.params.maxTokens [(0x31 : Token), 0x30].length = false ∧ validTokens [0x31, 0x30] ∧
    (allPrims nec.block.cfg [0x31, 0x30]).all (emits nec.block.cfg) = true ∧
    (nec.withLen 11187).block.buf.len.val + (wave nec.block.cfg (allPrims nec.block.cfg [0x31, 0x30])).length ≤ 12000 := by
  decide +kernel
theorem test_witness_EncodeEqualsItsEmitCommands : raw.isReady ∧ validTokens [0x30, 0x30] ∧
    ∃ t, exec (.encode [0x30, 0x30]) raw = .next t ∧ t.env.log = raw.env.log ++ [.response .ok .none] :=
  ⟨by decide, by decide, ⟨_, rfl, by decide +kernel⟩⟩
/-- RAW "0x" with room for the one entry, and with none. -/
theorem test_witness_EncodeAbortsAtTheInvalidToken : (raw.withLen 11999).isReady ∧ (raw.withLen 12000).isReady ∧
    raw.block.cfg.carrierLegal = true ∧ exceeds raw.params.maxTokens [(0x30 : Token), 0x78].length = false ∧
    validTokens [0x30] ∧ (0x78 : Token) ≠ 0x30 ∧ (0x78 : Token) ≠ 0x31 ∧
    (headPrims raw.block.cfg [0x30]).all (emits raw.block.cfg) = true ∧
    (raw.withLen 11999).block.buf.len.val + (wave raw.block.cfg (headPrims raw.block.cfg [0x30])).length ≤ 12000 ∧
    12000 < (raw.withLen 12000).block.buf.len.val + (wave raw.block.cfg (headPrims raw.block.cfg [0x30])).length := by
  decide +kernel
/-- ERR-7. -/
theorem test_witness_EncodeStopsAtCapacity : (nec.withLen 11999).isReady ∧ nec.block.cfg.carrierLegal = true ∧
    exceeds nec.params.maxTokens ([] : List Token).length = false ∧ validTokens [] ∧
    (allPrims nec.block.cfg []).all (emits nec.block.cfg) = true ∧
    12000 < (nec.withLen 11999).block.buf.len.val + (wave nec.block.cfg (allPrims nec.block.cfg [])).length := by
  decide +kernel
/-- A RAW block whose space is 0 µs. -/
def rawZero : State := configuredWith ⟨.raw, 0, 36000, 33, 100, Durs.zero⟩

/-- ENC-26 (a space of 0) with a full buffer and an Invalid token after it; EMIT-11's carrier (`on = 0`); ENC-13 (`off = 0`) with
room for one entry, and with none; NEC's mark of 9000 µs not fitting before the rest. -/
theorem test_witness_EncodeRefusesZeroDurations :
    ((rawZero.withLen 12000).isReady ∧ rawZero.block.cfg.carrierLegal = true ∧
      exceeds rawZero.params.maxTokens [(0x30 : Token), 0x78].length = false ∧
      Calls rawZero.block.cfg [0x30, 0x78] ([] ++ .space 0 :: []) ∧ (Prim.space 0).startsWithZero rawZero.block.cfg ∧
      (rawZero.withLen 12000).block.buf.len.val + (wave rawZero.block.cfg []).length ≤ 12000) ∧
    (necThin.isReady ∧ necThin.block.cfg.carrierLegal = true ∧
      Calls necThin.block.cfg [] ([] ++ .mark 9000 :: [.space 4500, .mark 562]) ∧
      (Prim.mark 9000).startsWithZero necThin.block.cfg) ∧
    ((necFull.withLen 11999).isReady ∧ (necFull.withLen 12000).isReady ∧ necFull.block.cfg.carrierLegal = true ∧
      Calls necFull.block.cfg [] ([] ++ .mark 9000 :: [.space 4500, .mark 562]) ∧
      (Prim.mark 9000).continuesWithZero necFull.block.cfg ∧
      (necFull.withLen 11999).block.buf.len.val + (wave necFull.block.cfg []).length < 12000 ∧
      (necFull.withLen 12000).block.buf.len.val + (wave necFull.block.cfg []).length = 12000) ∧
    ((nec.withLen 11999).isReady ∧ Calls nec.block.cfg [] ([.mark 9000] ++ .space 4500 :: [.mark 562]) ∧
      (∀ q ∈ [Prim.mark 9000], q.emittable nec.block.cfg) ∧
      12000 < (nec.withLen 11999).block.buf.len.val + (wave nec.block.cfg [.mark 9000]).length) :=
  ⟨⟨by decide, by decide, by decide, .inr ⟨[0x30], [], 0x78, rfl, by decide, by decide, by decide, by decide +kernel⟩,
      .inl rfl, by decide +kernel⟩,
    ⟨by decide, by decide, .inl ⟨by decide, by decide +kernel⟩, .inr ⟨9000, rfl, by decide +kernel, by decide +kernel⟩⟩,
    ⟨by decide, by decide, by decide, .inl ⟨by decide, by decide +kernel⟩,
      ⟨9000, rfl, by decide +kernel, by decide +kernel, by decide +kernel⟩, by decide +kernel, by decide +kernel⟩,
    by decide, .inl ⟨by decide, by decide +kernel⟩, emits_emittable (by decide +kernel), by decide +kernel⟩
theorem test_witness_EncodeEntryCounts : raw.isReady ∧ validTokens [0x31, 0x30] ∧
    ∃ t, exec (.encode [0x31, 0x30]) raw = .next t ∧ t.env.log = raw.env.log ++ [.response .ok .none] :=
  ⟨by decide, by decide, ⟨_, rfl, by decide +kernel⟩⟩
/-- Two states that differ in the events to come. -/
theorem test_witness_EncodeIsDeterministic : raw.isReady ∧ (raw.hearing [.turn]).isReady ∧
    raw.block.cfg = (raw.hearing [.turn]).block.cfg ∧ raw.block.buf.len = (raw.hearing [.turn]).block.buf.len ∧
    raw.params = (raw.hearing [.turn]).params ∧ (∃ t, exec (.encode [0x30]) raw = .next t) ∧
    ∃ t, exec (.encode [0x30]) (raw.hearing [.turn]) = .next t :=
  ⟨by decide, by decide, rfl, rfl, rfl, ⟨_, rfl⟩, ⟨_, rfl⟩⟩
theorem test_witness_Rc5BitsTakeEqualTime : rc5.isReady ∧ rc5.block.cfg.carrierLegal = true ∧
    rc5.block.cfg.variant = .rc5 ∧ rc5.block.cfg.dur.d0 = 889 ∧ rc5.block.cfg.dur.d1 = 889 ∧
    (∃ t, exec (.encode [0x31]) rc5 = .next t ∧ t.env.log = rc5.env.log ++ [.response .ok .none]) ∧
    ∃ t, exec (.encode [0x30]) rc5 = .next t ∧ t.env.log = rc5.env.log ++ [.response .ok .none] :=
  ⟨by decide, by decide, rfl, rfl, rfl, ⟨_, rfl, by decide +kernel⟩, ⟨_, rfl, by decide +kernel⟩⟩
theorem test_witness_BitsPerByteIsTheLeastPower : (1 : Word).toNat ≤ 1 ∧ 1 < (2 : Word).toNat ∧
    0 < bitsPerByte 2 := by decide +kernel
/-- Four tokens from one byte, at both bounds. -/
theorem test_witness_PackAnswersTheTokens : ¬ (during .tDelete).isIdle ∧ (bounded State.reset).isIdle ∧
    exceeds (bounded State.reset).params.maxDataBytes ([0xA5] : List Byte).length = false ∧
    exceeds (bounded State.reset).params.maxTokens (([0xA5] : List Byte).length * bitsPerByte 16) = false := by
  decide +kernel
theorem test_witness_TransmitIsAccepted : (bounded rc5).isReady ∧ (1 : Word) ≠ 0 ∧
    exceeds (bounded rc5).params.maxTokens ([0x31, 0x31, 0x30, 0x78] : List Token).length = false := by decide
theorem test_witness_TransmitBytesIsAccepted : (bounded rc5).isReady ∧ (1 : Word) ≠ 0 ∧
    exceeds (bounded rc5).params.maxDataBytes ([0xA5] : List Byte).length = false ∧
    exceeds (bounded rc5).params.maxTokens (([0xA5] : List Byte).length * bitsPerByte 16) = false := by decide +kernel
theorem test_witness_TransmitBytesIsPackThenTransmit : nec.isReady ∧
    ∃ u, exec (.pack [0xA5] 16 false) nec = .next u ∧
      u.env.log = nec.env.log ++ [.response .ok (.tokens [0x30, 0x31, 0x30, 0x31])] :=
  ⟨by decide, ⟨_, rfl, by decide +kernel⟩⟩
theorem test_witness_OpeningPhases : yes.ok = true ∧ no.ok = false ∧
    ((during .tInit).hearing [.answer yes]).env.inbox = .answer yes :: [] ∧
    ((during .tInit).hearing [.answer no]).env.inbox = .answer no :: [] ∧
    (during .tInit).block.ctrl.phase = .tInit ∧ (during .tLine).block.ctrl.phase = .tLine := by decide
theorem test_witness_HandOffPhases : ((during .tClear).hearing [.answer yes]).env.inbox = .answer yes :: [] ∧
    (during .tClear).block.ctrl.phase = .tClear ∧ (during .tStage).block.ctrl.phase = .tStage ∧
    (during .tCreate).block.ctrl.phase = .tCreate ∧ (during .tStart).block.ctrl.phase = .tStart := by decide
theorem test_witness_ClosingPhases : ((during .tPoll).hearing [.answer busyDraw]).env.inbox = .answer busyDraw :: [] ∧
    (during .tPoll).block.ctrl.phase = .tPoll ∧ (during .tDelete).block.ctrl.phase = .tDelete ∧
    (during .tTerm).block.ctrl.phase = .tTerm := by decide
/-- Three copies of one entry, with exactly the room they need; nothing still to arrive. -/
theorem test_witness_EncodePhaseWritesIdenticalCopies : (encoding raw [0x30] 3 11997).encodesNext ∧
    raw.block.cfg.carrierLegal = true ∧ validTokens (encoding raw [0x30] 3 11997).block.ctrl.tokens ∧
    (∀ p ∈ allPrims raw.block.cfg [0x30], p.emittable raw.block.cfg) ∧
    (encoding raw [0x30] 3 11997).block.buf.len.val + 3 * (wave raw.block.cfg (allPrims raw.block.cfg [0x30])).length ≤
      12000 :=
  ⟨⟨rfl, .inl rfl⟩, by decide, by decide, emits_emittable (by decide +kernel), by decide +kernel⟩
/-- "0x" with an answer standing first; a space of 0 with a full buffer; `off = 0` with room for one entry, and with none; "0x"
with no room for the entry before the x; one copy too many with a turn standing first. -/
theorem test_witness_EncodePhaseAborts :
    (((encoding raw [0x30, 0x78] 1 11999).hearing [.answer yes]).encodesNext ∧ (1 : Word) ≠ 0 ∧
      ([0x30, 0x78] : List Token) = [0x30] ++ 0x78 :: [] ∧ validTokens [0x30] ∧
      (encoding raw [0x30, 0x78] 1 11999).block.buf.len.val +
        (wave raw.block.cfg (headPrims raw.block.cfg [0x30])).length ≤ 12000) ∧
    ((encoding rawZero [0x30] 1 12000).encodesNext ∧ Calls rawZero.block.cfg [0x30] ([] ++ .space 0 :: []) ∧
      (Prim.space 0).startsWithZero rawZero.block.cfg ∧
      (encoding rawZero [0x30] 1 12000).block.buf.len.val + (wave rawZero.block.cfg []).length ≤ 12000 ∧
      (encoding rawZero [0x30] 1 12000).block.encodeAll = .raised .invalidEntry ⟨12000, []⟩) ∧
    ((encoding necFull [] 1 11999).encodesNext ∧
      Calls necFull.block.cfg [] ([] ++ .mark 9000 :: [.space 4500, .mark 562]) ∧
      (Prim.mark 9000).continuesWithZero necFull.block.cfg ∧
      (encoding necFull [] 1 11999).block.buf.len.val + (wave necFull.block.cfg []).length < 12000 ∧
      (encoding necFull [] 1 12000).block.buf.len.val + (wave necFull.block.cfg []).length = 12000) ∧
    ((encoding raw [0x30, 0x78] 1 12000).encodesNext ∧ Calls raw.block.cfg [0x30, 0x78] ([.space 520] ++ []) ∧
      (∀ q ∈ [Prim.space 520], q.emittable raw.block.cfg) ∧
      12000 < (encoding raw [0x30, 0x78] 1 12000).block.buf.len.val + (wave raw.block.cfg [.space 520]).length) ∧
    (((encoding raw [0x30] 3 11998).hearing [.turn]).encodesNext ∧ validTokens [0x30] ∧
      (∀ p ∈ allPrims raw.block.cfg [0x30], p.emittable raw.block.cfg) ∧
      12000 < (encoding raw [0x30] 3 11998).block.buf.len.val +
        3 * (wave raw.block.cfg (allPrims raw.block.cfg [0x30])).length) :=
  ⟨⟨⟨rfl, .inr (.inl ⟨_, _, rfl⟩)⟩, by decide, rfl, by decide, by decide +kernel⟩,
    ⟨⟨rfl, .inl rfl⟩, .inl ⟨by decide, by decide +kernel⟩, .inl rfl, by decide +kernel, by decide +kernel⟩,
    ⟨⟨rfl, .inl rfl⟩, .inl ⟨by decide, by decide +kernel⟩,
      ⟨9000, rfl, by decide +kernel, by decide +kernel, by decide +kernel⟩, by decide +kernel, by decide +kernel⟩,
    ⟨⟨rfl, .inl rfl⟩, .inr ⟨[0x30], [], 0x78, rfl, by decide, by decide, by decide, by decide +kernel⟩,
      emits_emittable (by decide +kernel), by decide +kernel⟩,
    ⟨rfl, .inr (.inr ⟨_, rfl⟩)⟩, by decide, emits_emittable (by decide +kernel), by decide +kernel⟩
/-- TX-1 under RAW: "0" once, busy twice. -/
theorem test_witness_SuccessfulTransmission : raw.isReady ∧ raw.block.cfg.carrierLegal = true ∧
    (transmitCommand [0x30] 12000).word = 0x40 ∧ (transmitCommand [0x30] 12000).args.rep ≠ 0 ∧
    exceeds raw.params.maxTokens [(0x30 : Token)].length = false ∧ validTokens [0x30] ∧
    (∀ p ∈ allPrims raw.block.cfg [0x30], p.emittable raw.block.cfg) ∧
    (12000 : Word).toNat * (wave raw.block.cfg (allPrims raw.block.cfg [0x30])).length ≤ 12000 ∧ yes.ok = true ∧
    (∀ d ∈ [busyDraw, busyDraw], d.busy = true) ∧ yes.busy = false :=
  ⟨by decide, by decide, rfl, by decide, by decide, by decide, emits_emittable (by decide +kernel), by decide +kernel,
    rfl, by decide, rfl⟩
/-- T_INIT with a token sequence whose encode succeeds ("11"), or fails ("x"), and the answers of a row of R240. -/
def opening (ts : List Token) (ds : List Draw) : State :=
  ({ rc5 with block := { rc5.block with ctrl := ⟨.tInit, ts, 1, .ok, false, false, .first⟩ } } : State).hearing
    (ds.map Event.answer)

/-- One state for each row of R240 but success. -/
theorem test_witness_FailedTransmissions : yes.ok = true ∧ no.ok = false ∧
    (∀ ts ds, (opening ts ds).block.ctrl.phase = .tInit ∧ (opening ts ds).block.ctrl.pend = .ok ∧
      (opening ts ds).block.ctrl.session = false) ∧
    (opening [] [no]).env.inbox = [.answer no] ∧
    (opening [] [yes, no, yes]).env.inbox = [.answer yes, .answer no, .answer yes] ∧
    ((opening [0x78] [yes, yes, yes]).block.encodeAll.status ≠ .ok ∧
      (opening [0x78] [yes, yes, yes]).env.inbox = [.answer yes, .answer yes, .answer yes]) ∧
    (∀ ds, (opening [0x31, 0x31] ds).block.encodeAll.status = .ok) ∧
    (opening [0x31, 0x31] [yes, yes, no, yes]).env.inbox = [.answer yes, .answer yes, .answer no, .answer yes] ∧
    (opening [0x31, 0x31] [yes, yes, yes, no, yes]).env.inbox =
      [.answer yes, .answer yes, .answer yes, .answer no, .answer yes] ∧
    (opening [0x31, 0x31] [yes, yes, yes, yes, no, yes]).env.inbox =
      [.answer yes, .answer yes, .answer yes, .answer yes, .answer no, .answer yes] ∧
    (opening [0x31, 0x31] [yes, yes, yes, yes, yes, no, yes, yes]).env.inbox =
      [.answer yes, .answer yes, .answer yes, .answer yes, .answer yes, .answer no, .answer yes, .answer yes] :=
  ⟨rfl, rfl, fun _ _ => ⟨rfl, rfl, rfl⟩, rfl, rfl, ⟨by decide +kernel, rfl⟩,
    fun _ => (by decide +kernel : (opening [0x31, 0x31] []).block.encodeAll.status = .ok), rfl, rfl, rfl, rfl⟩
theorem test_witness_PollingHasNoBound : ({ during .tPoll with env := ⟨[], some busyDraw, []⟩ } : State).env.inbox = [] ∧
    ({ during .tPoll with env := ⟨[], some busyDraw, []⟩ } : State).env.standing = some busyDraw ∧
    busyDraw.busy = true ∧ (during .tPoll).block.ctrl.phase = .tPoll := by decide
theorem test_witness_NoAnswerLeavesTheBlockWaiting : (during .tInit).block.ctrl.phase ≠ .tEncode ∧
    (during .tInit).env.inbox = [] ∧ (during .tInit).env.standing = none := by decide
/-- A step from T_ENCODE to T_CLEAR; a step that sends `stage`. -/
theorem test_witness_NoPartialWaveformIsStaged :
    (∃ t, step (encoding raw [0x30] 1 0) = .next t ∧ t.block.ctrl.phase = .tClear) ∧
    (∃ t, step ((during .tStage).hearing [.answer yes]) = .next t ∧
      t.env.log = (during .tStage).env.log ++ [.call (.stage []) (.okCount 0)]) ∧ (during .tStage).noReset :=
  ⟨⟨_, rfl, by decide +kernel⟩, ⟨_, rfl, by decide +kernel⟩, by unfold State.noReset; decide⟩
theorem test_witness_EveryStepKeepsTheLedger : State.reset.Inv ∧ State.reset.LedgerBalanced ∧ State.reset.noReset ∧
    ∃ t, step State.reset = .next t :=
  ⟨⟨by decide, fun i h => absurd h (Nat.not_lt_zero i), fun h => absurd h (by decide), fun h => absurd rfl h, rfl, rfl, .inl rfl⟩,
    ⟨rfl, rfl⟩, by unfold State.noReset; decide, ⟨_, rfl⟩⟩
theorem test_witness_AtomicCommandFrames : ∃ t, exec .bufReset (nec.withLen 813) = .next t := ⟨_, rfl⟩
theorem test_witness_ResetEventLeavesTheResetState :
    ((during .tStart).hearing [.reset]).env.inbox = .reset :: [] ∧
    (nec.hearing [.lateAnswer yes]).env.inbox = .lateAnswer yes :: [] ∧
    (nec.hearing [.answer yes]).env.inbox = .answer yes :: [] ∧ (nec.hearing [.answer yes]).isIdle := by decide
/-- The invariant in the middle of a transmission, with one valid entry in the buffer, and a step from there. -/
theorem test_witness_EveryStepKeepsTheBlockGood :
    ({ during .tPoll with block := { (during .tPoll).block with buf := ⟨1, [(0, ⟨0, 1, 5⟩)]⟩ } } : State).Inv ∧
    ∃ t, step ({ during .tPoll with block := { (during .tPoll).block with buf := ⟨1, [(0, ⟨0, 1, 5⟩)]⟩ } } : State) =
      .next t :=
  ⟨⟨by decide, by decide, fun _ => ⟨by decide, fun _ => by decide⟩, fun _ => by decide, rfl, rfl, rfl⟩, ⟨_, rfl⟩⟩
/-- Two reset states that differ in the unspecified values: a variant and a token sequence. -/
theorem test_witness_UnspecifiedValuesAreUnobservable : ∃ s t : State, s ≠ t ∧ Indistinguishable s t :=
  ⟨State.reset, { State.reset with block := { Block.reset with
      cfg := { Cfg.reset with variant := .raw }, ctrl := { Ctrl.reset with tokens := [0x31] } } },
    by decide, rfl, rfl, rfl, by rintro (h | h) <;> exact absurd h (by decide), rfl, fun i h => absurd h (Nat.not_lt_zero i),
    rfl, by rintro (h | h | h) <;> exact absurd h (by decide), rfl, rfl, rfl, fun h => absurd h (by decide)⟩

/-- Any renaming, with a step that opens a handle; and a reset under the renaming that changes nothing. -/
theorem test_witness_HandlesAreOnlyPassedBack :
    (((during .tCreate).hearing [.answer yes]).noReset ∧ ∃ t, step ((during .tCreate).hearing [.answer yes]) = .next t) ∧
    (id Handle.first = Handle.first ∧ ∃ t, step ((during .tCreate).hearing [.reset]) = .next t) :=
  ⟨⟨by unfold State.noReset; decide, _, rfl⟩, rfl, _, rfl⟩

end Sys2Proof.Machine
end

section
/-! PROOFS. What holds of every command and every step: a step runs the decoded command, answers a next state and only adds
outputs, answers a command once, and commutes with a renaming of the handles; and the rounding of R17. -/

namespace Sys2Proof.Machine

/-! ### The step, event by event -/

variable {s t : State} {rest : List Event}

theorem step_of_empty (h : s.env.inbox = []) : step s = .next s.quietStep := by
  rw [step, nextEvent, h]

theorem step_of_command {c : Command} (h : s.env.inbox = .command c :: rest) :
    step s = serveCommand c (s.withInbox rest) := by
  rw [step, nextEvent, h]

theorem step_of_reset (h : s.env.inbox = .reset :: rest) : step s = .next (s.withInbox rest).applyReset := by
  rw [step, nextEvent, h]

theorem step_of_answer {d : Draw} (h : s.env.inbox = .answer d :: rest) :
    step s = .next (if s.block.ctrl.phase = .tEncode then s.encodeStep else (s.withInbox rest).answerStep d) := by
  rw [step, nextEvent, h]

theorem step_of_lateAnswer {d : Draw} (h : s.env.inbox = .lateAnswer d :: rest) :
    step s = .next (s.withInbox rest) := by
  rw [step, nextEvent, h]

theorem step_of_turn (h : s.env.inbox = .turn :: rest) :
    step s = .next (if s.block.ctrl.phase = .tEncode then (s.withInbox rest).encodeStep else s.withInbox rest) := by
  rw [step, nextEvent, h]

/-! ### A command is decoded and carried out -/

theorem serveCommand_of_decode_ok {c : Command} {i : Instr} (h : decode c = .ok i) (s : State) :
    serveCommand c s = exec i s := by
  rw [serveCommand, h]

theorem serveCommand_of_decode_error {c : Command} {e : DecodeError} (h : decode c = .error e) (s : State) :
    serveCommand c s = .next (s.respond .illegalCommand .none) := by
  rw [serveCommand, h]

/-- A table word that reads as an instruction is the word of a command that decodes to it. -/
theorem decode_of_decodeTableWord {n w : Nat} {i : Instr} (h : decodeTableWord n w = some i) :
    decode (tableCommand w) = .ok i := by
  rw [decodeTableWord] at h
  split at h
  · cases hd : decode (tableCommand w) with
    | ok j => rw [hd] at h; exact congrArg _ (Option.some.inj h)
    | error e => rw [hd] at h; cases h
  · cases h

/-- Settles O8: the event is taken, and the command it brings is decoded and carried out. -/
theorem stepRunsTheDecodedCommand : Obligations.StepRunsTheDecodedCommand := by
  refine ⟨fun s c rest i hi hd => ?_, fun s w i hw => ?_⟩
  · rw [step_of_command hi, serveCommand_of_decode_ok hd]
  · have hi : (s.withFetchWord 32 w).env.inbox = .command (tableCommand w) :: s.env.inbox := rfl
    rw [step_of_command hi, serveCommand_of_decode_ok (decode_of_decodeTableWord hw)]
    rfl

/-! ### What a command and a step add -/

/-- An emission that keeps the block and puts nothing out changes nothing. -/
theorem emit_block_nil (s : State) : s.emit s.block [] = s := by
  simp [State.emit]

/-- Every command is an emission: the parameters and the surroundings stay, and outputs are only added. -/
theorem exec_emits {i : Instr} (h : exec i s = .next t) : ∃ b out, t = s.emit b out := by
  rcases exec_cases h with ⟨st, v, rfl, -⟩ | ⟨-, -, ⟨op, -, rfl⟩, -⟩ | ⟨-, -, rfl⟩ | ⟨-, a, c, -, -, rfl⟩ |
    ⟨-, toks, rep, -, rfl, -⟩
  all_goals exact ⟨_, _, rfl⟩

/-- Every step is an emission after taking what it takes of the inbox. -/
theorem step_emits (h : step s = .next t) : ∃ rest b out, t = (s.withInbox rest).emit b out := by
  rcases step_cases h with ⟨c, rest, -, ⟨i, -, he⟩ | ⟨-, rfl⟩⟩ | ⟨rest, -, rfl⟩ | ⟨-, rest, rfl⟩ | ⟨-, -, rest, rfl⟩ |
    ⟨-, -, d, rest, rfl⟩
  case inl.inl => exact ⟨rest, exec_emits he⟩
  case inr.inr.inl => exact ⟨rest, _, [], (emit_block_nil _).symm⟩
  all_goals exact ⟨rest, _, _, rfl⟩

/-- Every command is answered with a next state, an illegal one too (R92, R271). -/
theorem serveCommand_total (c : Command) (s : State) : ∃ t, serveCommand c s = .next t := by
  cases hd : decode c with
  | ok i => rw [serveCommand_of_decode_ok hd]; exact exec_total i s
  | error e => exact ⟨_, serveCommand_of_decode_error hd s⟩

/-- Every step answers a next state, whatever the event. -/
theorem step_total (s : State) : ∃ t, step s = .next t := by
  cases hi : s.env.inbox with
  | nil => exact ⟨_, step_of_empty hi⟩
  | cons e rest =>
    cases e with
    | command c => rw [step_of_command hi]; exact serveCommand_total c _
    | reset => exact ⟨_, step_of_reset hi⟩
    | answer d => exact ⟨_, step_of_answer hi⟩
    | lateAnswer d => exact ⟨_, step_of_lateAnswer hi⟩
    | turn => exact ⟨_, step_of_turn hi⟩

/-- Settles O58: the step is total, and it is an emission. -/
theorem everyStepAnswersANextState : Obligations.EveryStepAnswersANextState := by
  intro s
  obtain ⟨t, ht⟩ := step_total s
  obtain ⟨rest, b, out, rfl⟩ := step_emits ht
  exact ⟨_, ht, rfl, rfl, List.prefix_append _ _⟩

/-- Settles O13, by the cases of what a command can do. -/
theorem oneResponsePerCommand : Obligations.OneResponsePerCommand := by
  intro i s t h
  rcases exec_cases h with ⟨st, v, rfl, hv⟩ | ⟨-, -, ⟨op, -, rfl⟩, -⟩ | ⟨-, -, rfl⟩ | ⟨-, a, c, -, -, rfl⟩ |
    ⟨hr, toks, rep, -, rfl, hi⟩
  case inl => exact .inl ⟨st, v, rfl, hv⟩
  case inr.inl | inr.inr.inl | inr.inr.inr.inl => exact .inl ⟨_, _, rfl, fun _ => rfl⟩
  -- the acceptance of a transmission: nothing is put out, and the block is in T_INIT
  case inr.inr.inr.inr =>
    refine .inr ⟨List.append_nil _, hr, rfl, ?_⟩
    rcases hi with ⟨rfl, -⟩ | ⟨bs, w, v, rfl, -⟩
    · exact .inl ⟨toks, rep, rfl⟩
    · exact .inr ⟨bs, w, v, rep, rfl⟩

/-! ### Renaming handles -/

variable (f : Handle → Handle)

@[simp] theorem mapHandles_inbox (s : State) : (s.mapHandles f).env.inbox = s.env.inbox.map (Event.mapHandles f) := rfl

@[simp] theorem mapHandles_standing (s : State) :
    (s.mapHandles f).env.standing = s.env.standing.map (Draw.mapHandles f) := rfl

variable {f} in
theorem serveCommand_mapHandles {c : Command} (h : serveCommand c s = .next t) :
    serveCommand c (s.mapHandles f) = .next (t.mapHandles f) := by
  cases hd : decode c with
  | ok i =>
    rw [serveCommand_of_decode_ok hd] at h ⊢
    exact exec_mapHandles h
  | error e =>
    rw [serveCommand_of_decode_error hd] at h ⊢
    rw [respond_mapHandles, ← Host.Outcome.next.inj h]

theorem encodeStep_mapHandles (s : State) : (s.mapHandles f).encodeStep = s.encodeStep.mapHandles f := by
  rw [State.encodeStep, State.encodeStep, mapHandles_block, phaseEncode_mapHandles, emit_mapHandles, List.map_nil]

theorem answerStep_mapHandles (d : Draw) (s : State) :
    (s.mapHandles f).answerStep (d.mapHandles f) = (s.answerStep d).mapHandles f := by
  rw [State.answerStep, State.answerStep, mapHandles_block, phaseStep_mapHandles, emit_mapHandles]

theorem quietStep_mapHandles (s : State) : (s.mapHandles f).quietStep = s.quietStep.mapHandles f := by
  rw [State.quietStep, State.quietStep, mapHandles_block, mapHandles_phase, mapHandles_standing]
  split
  · exact encodeStep_mapHandles f s
  · cases s.env.standing with
    | none => rfl
    | some d => exact answerStep_mapHandles f d s

/-- A reset commutes with the renamings that keep the value it puts into `CTRL.HANDLE` (notes/assumptions/10.md). -/
theorem applyReset_mapHandles (hf : f Handle.first = Handle.first) (s : State) :
    (s.mapHandles f).applyReset = s.applyReset.mapHandles f := by
  have hreset : Block.reset.mapHandles f = Block.reset := by
    simp [Block.mapHandles, Block.reset, Ctrl.reset, hf]
  rw [State.applyReset, State.applyReset, emit_mapHandles, hreset, mapHandles_block, pendingRequest_mapHandles]
  cases s.block.pendingRequest <;> rfl

/-- Settles O60, event by event: the block's action commutes with the renaming. -/
theorem handlesAreOnlyPassedBack : Obligations.HandlesAreOnlyPassedBack := by
  intro f s t hf h
  cases hi : s.env.inbox with
  | nil =>
    have hi' : (s.mapHandles f).env.inbox = [] := by rw [mapHandles_inbox, hi]; rfl
    rw [step_of_empty hi] at h
    rw [step_of_empty hi', quietStep_mapHandles, Host.Outcome.next.inj h]
  | cons e rest =>
    have hi' : (s.mapHandles f).env.inbox = e.mapHandles f :: rest.map (Event.mapHandles f) := by
      rw [mapHandles_inbox, hi]; rfl
    cases e with
    | command c =>
      rw [step_of_command hi] at h
      rw [step_of_command hi', ← withInbox_mapHandles]
      exact serveCommand_mapHandles h
    | reset =>
      have hfirst : f Handle.first = Handle.first := hf.resolve_left fun hn => hn (by rw [hi]; rfl)
      rw [step_of_reset hi] at h
      rw [step_of_reset hi', ← withInbox_mapHandles, applyReset_mapHandles f hfirst, Host.Outcome.next.inj h]
    | answer d =>
      rw [step_of_answer hi] at h
      rw [step_of_answer hi', ← withInbox_mapHandles, encodeStep_mapHandles, answerStep_mapHandles, mapHandles_block,
        mapHandles_phase, ← Host.Outcome.next.inj h, apply_ite (State.mapHandles f)]
    | lateAnswer d =>
      rw [step_of_lateAnswer hi] at h
      rw [step_of_lateAnswer hi', ← withInbox_mapHandles, Host.Outcome.next.inj h]
    | turn =>
      rw [step_of_turn hi] at h
      rw [step_of_turn hi', ← withInbox_mapHandles, encodeStep_mapHandles, mapHandles_block, mapHandles_phase,
        ← Host.Outcome.next.inj h, apply_ite (State.mapHandles f)]

/-! ### Rounding -/

/-- Settles O19: the quotient of `2n + d` by `2d` and its remainder. -/
theorem roundingIsNearestTiesUp : Obligations.RoundingIsNearestTiesUp := by
  intro n d hd
  have hpos : 0 < 2 * d := by omega
  have hle : 2 * d * rhu n d ≤ 2 * n + d := Nat.mul_div_le (2 * n + d) (2 * d)
  have hlt : 2 * n + d < 2 * d * (rhu n d + 1) := Nat.lt_mul_div_succ (2 * n + d) hpos
  refine ⟨rfl, ?_, ?_⟩
  · calc d * (2 * rhu n d) = 2 * d * rhu n d := by ring
      _ ≤ 2 * n + d := hle
  · calc 2 * n + d < 2 * d * (rhu n d + 1) := hlt
      _ = d * (2 * rhu n d + 2) := by ring

end Sys2Proof.Machine
end

section
/-! PROOFS. What every command and every step keeps of the block's state (10_state.md): the entries once appended, the
configuration registers, the invariant, and that what the spec leaves unobservable stays unobservable. -/

namespace Sys2Proof.Machine

variable {s t : State} {p : Params}

/-! ### What storing and encoding leave of the buffer -/

/-- An operation on the buffer only appends. -/
theorem runOnBuffer_appended {op : Tail → Attempt} (hop : ∀ u, (op u).GrowsFrom u) (s : State) :
    ∃ es, Appended s.block.buf (s.runOnBuffer op).block.buf es := by
  obtain ⟨⟨es, hx⟩, -⟩ := hop s.block.buf.tail
  exact ⟨es, store_appended hx⟩

/-- T_ENCODE only appends to the buffer. -/
theorem encodeStep_appended (s : State) : ∃ es, Appended s.block.buf s.encodeStep.block.buf es := by
  obtain ⟨es, hx⟩ := encodeAll_extends s.block
  have hb : s.encodeStep.block.buf = s.block.buf.store s.block.encodeAll.tail := phaseEncode_buf s.block
  exact ⟨es, hb ▸ store_appended hx⟩

/-- The buffer `b'` has every entry of `b` unchanged below its length, which is 0 or not smaller (R33). -/
def Buffer.KeepsEntries (b b' : Buffer) : Prop :=
  b'.len.val = 0 ∨ (b.len.val ≤ b'.len.val ∧ ∀ i, i < b.len.val → b'.entry i = b.entry i)

theorem Buffer.KeepsEntries.refl (b : Buffer) : b.KeepsEntries b := .inr ⟨le_rfl, fun _ _ => rfl⟩

theorem Appended.keepsEntries {b b' : Buffer} {es : List Entry} (h : Appended b b' es) : b.KeepsEntries b' := by
  obtain ⟨hlen, -, hold⟩ := h
  exact .inr ⟨by omega, fun i hi => hold i (.inl hi)⟩

theorem exec_keepsEntries {i : Instr} (h : exec i s = .next t) : s.block.buf.KeepsEntries t.block.buf := by
  rcases exec_cases h with ⟨st, v, rfl, -⟩ | ⟨-, -, ⟨op, hop, rfl⟩, -⟩ | ⟨-, -, rfl⟩ | ⟨-, a, c, -, -, rfl⟩ |
    ⟨-, toks, rep, -, rfl, -⟩
  case inl | inr.inr.inr.inl => exact .refl _
  case inr.inl =>
    obtain ⟨es, ha⟩ := runOnBuffer_appended hop s
    exact ha.keepsEntries
  -- BUF_RESET and the acceptance of a transmission set the length to 0
  case inr.inr.inl | inr.inr.inr.inr => exact .inl rfl

/-- Settles O18, by the cases of what a step can do. -/
theorem entriesAreImmutable : Obligations.EntriesAreImmutable := by
  intro s t h
  rcases step_cases h with ⟨c, rest, -, ⟨i, -, he⟩ | ⟨-, rfl⟩⟩ | ⟨rest, -, rfl⟩ | ⟨-, rest, rfl⟩ | ⟨-, -, rest, rfl⟩ |
    ⟨-, hp, d, rest, rfl⟩
  · exact exec_keepsEntries (s := s.withInbox rest) he
  · exact Buffer.KeepsEntries.refl _
  · exact .inl rfl
  · exact Buffer.KeepsEntries.refl _
  · obtain ⟨es, ha⟩ := encodeStep_appended (s.withInbox rest)
    exact ha.keepsEntries
  · have hb : ((s.withInbox rest).answerStep d).block.buf = s.block.buf := (phaseStep_frame d s.block hp).1
    rw [hb]
    exact Buffer.KeepsEntries.refl _

/-! ### The configuration registers, and the commands' frames -/

/-- A command leaves the configuration, or it is a CONFIGURE carried out in IDLE. -/
theorem exec_cfg {i : Instr} (h : exec i s = .next t) :
    (t.block.cfg = s.block.cfg ∧ t.block.cfgValid = s.block.cfgValid) ∨
    (s.isIdle ∧ t.block.cfgValid = true ∧ ∃ a, i = .configure a) := by
  rcases exec_cases h with ⟨st, v, rfl, -⟩ | ⟨-, -, ⟨op, -, rfl⟩, -⟩ | ⟨-, -, rfl⟩ | ⟨hidle, a, c, hi, -, rfl⟩ |
    ⟨-, toks, rep, -, rfl, -⟩
  case inr.inr.inr.inl => exact .inr ⟨hidle, rfl, a, hi⟩
  all_goals exact .inl ⟨rfl, rfl⟩

/-- Settles O28, by the cases of what a step can do. -/
theorem onlyConfigureWritesCfg : Obligations.OnlyConfigureWritesCfg := by
  intro s t h hn
  rcases step_cases h with ⟨c, rest, hc, ⟨i, hd, he⟩ | ⟨-, rfl⟩⟩ | ⟨rest, hr, -⟩ | ⟨-, rest, rfl⟩ | ⟨-, -, rest, rfl⟩ |
    ⟨-, hp, d, rest, rfl⟩
  · exact (exec_cfg he).imp_right fun ⟨hidle, hv, a, hi⟩ => ⟨hidle, hv, c, rest, a, hc, hi ▸ hd⟩
  · exact .inl ⟨rfl, rfl⟩
  · exact absurd (by rw [hr]; rfl) hn
  · exact .inl ⟨rfl, rfl⟩
  · exact .inl (phaseEncode_cfg s.block)
  · exact .inl (phaseStep_frame d s.block hp).2

/-- Settles O54, by the cases of what a command can do. -/
theorem atomicCommandFrames : Obligations.AtomicCommandFrames := by
  intro i s t hconf htx htb h
  rcases exec_cases h with ⟨st, v, rfl, -⟩ | ⟨-, -, ⟨op, hop, rfl⟩, hlen, hread, hpack⟩ | ⟨-, rfl, rfl⟩ |
    ⟨-, a, c, hi, -, -⟩ | ⟨-, toks, rep, -, -, hi⟩
  case inl => exact ⟨rfl, rfl, rfl, rfl, rfl, rfl, .inr le_rfl, fun _ _ => rfl, fun _ => rfl⟩
  case inr.inl =>
    obtain ⟨es, hl, -, hold⟩ := runOnBuffer_appended hop s
    refine ⟨rfl, rfl, rfl, rfl, rfl, rfl, .inr (by omega), fun k hk => hold k (by omega), ?_⟩
    rintro (hi | ⟨k, hi⟩ | ⟨bs, w, v, hi⟩)
    · exact absurd hi hlen
    · exact absurd hi (hread k)
    · exact absurd hi (hpack bs w v)
  -- BUF_RESET: the length is 0, no entry is erased
  case inr.inr.inl => exact ⟨rfl, rfl, rfl, rfl, rfl, rfl, .inl rfl, fun _ _ => rfl, by simp⟩
  case inr.inr.inr.inl => exact absurd hi (hconf a)
  case inr.inr.inr.inr =>
    rcases hi with ⟨hi, -⟩ | ⟨bs, w, v, hi, -⟩
    · exact absurd hi (htx toks rep)
    · exact absurd hi (htb bs w v rep)

/-! ### The invariant, part by part -/

/-- The buffer's part of the invariant: canonical memory, and only valid entries below the length (R32). -/
structure Buffer.Good (b : Buffer) : Prop where
  memory  : b.wf
  entries : ∀ i, i < b.len.val → (b.entry i).valid

/-- The controller's part of the invariant (R29, R35 to R37), `v` being `CFG_VALID`. -/
structure Ctrl.Good (p : Params) (v : Bool) (c : Ctrl) : Prop where
  latched : c.phase ≠ .idle → v = true ∧ c.repeatCount ≠ 0 ∧ exceeds p.maxTokens c.tokens.length = false
  session : c.session = c.phase.holdsSession
  handle  : c.handleHeld = c.phase.holdsHandle
  pend    : pendFits c.phase c.pend

/-- The invariant as a property of the block under the open bounds. -/
structure Block.Good (p : Params) (b : Block) : Prop where
  buf  : b.buf.Good
  cfg  : b.cfgValid = true → b.cfg.legal
  ctrl : b.ctrl.Good p b.cfgValid

theorem inv_iff : s.Inv ↔ s.block.Good s.params := by
  constructor
  · rintro ⟨hm, he, hc, hl, hs, hh, hp⟩
    exact ⟨⟨hm, he⟩, hc, ⟨hl, hs, hh, hp⟩⟩
  · rintro ⟨⟨hm, he⟩, hc, ⟨hl, hs, hh, hp⟩⟩
    exact ⟨hm, he, hc, hl, hs, hh, hp⟩

theorem reset_good (p : Params) : Block.reset.Good p where
  buf  := ⟨by decide, fun i hi => absurd hi (Nat.not_lt_zero i)⟩
  cfg  := fun h => absurd h (by decide)
  ctrl := ⟨fun h => absurd rfl h, rfl, rfl, .inl rfl⟩

/-- Settles O56. -/
theorem resetStateIsGood : Obligations.ResetStateIsGood := inv_iff.2 (reset_good _)

/-! ### The invariant under the block's operations -/

theorem Buffer.Good.clear {b : Buffer} (h : b.Good) : b.clear.Good := ⟨h.memory, fun i hi => absurd hi (Nat.not_lt_zero i)⟩

theorem Buffer.Good.store {b : Buffer} {u : Tail} {es : List Entry} (h : b.Good) (hx : b.tail.Extends u es) :
    (b.store u).Good := ⟨store_wf h.memory hx, store_entries_valid hx h.entries⟩

theorem packBody_length (bs : List Byte) (w : Word) (v : Bool) : (packBody bs w v).length = bs.length * bitsPerByte w := by
  rw [packBody_eq]
  cases v <;> simp [List.length_flatMap, lsbFirst, msbFirst]

/-- A payload within both bounds of the packer gives tokens within `MAX_TOKENS` (R234). -/
theorem packBody_within {bs : List Byte} {w : Word} (h : packTooLong p bs w = false) (v : Bool) :
    exceeds p.maxTokens (packBody bs w v).length = false := by
  rw [packTooLong, Bool.or_eq_false_iff] at h
  rw [packBody_length]
  exact h.2

/-- The move from phase `q` to phase `r` opens and closes neither the session nor the handle, and is none out of IDLE. -/
abbrev Phase.HoldsAsMuch (q r : Phase) : Prop :=
  q ≠ .idle ∧ r.holdsSession = q.holdsSession ∧ r.holdsHandle = q.holdsHandle

section Operations

variable {b : Block} {q r : Phase} {e : Status}

theorem Block.Good.withBuf {buf : Buffer} (h : b.Good p) (hb : buf.Good) : ({ b with buf := buf } : Block).Good p :=
  ⟨hb, h.cfg, h.ctrl⟩

theorem Block.Good.withCtrl {c : Ctrl} (h : b.Good p) (hc : c.Good p b.cfgValid) : ({ b with ctrl := c } : Block).Good p :=
  ⟨h.buf, h.cfg, hc⟩

theorem Block.Good.configure {c : Cfg} (h : b.Good p) (hc : c.legal) :
    ({ b with cfg := c, cfgValid := true } : Block).Good p :=
  ⟨h.buf, fun _ => hc, ⟨fun hp => ⟨rfl, (h.ctrl.latched hp).2⟩, h.ctrl.session, h.ctrl.handle, h.ctrl.pend⟩⟩

/-- The acceptance latches legal arguments; in IDLE no session and no handle is held, as in T_INIT. -/
theorem Block.Good.accept {toks : List Token} {rep : Word} (h : b.Good p) (hidle : b.ctrl.phase = .idle)
    (hv : b.cfgValid = true) (hr : rep ≠ 0) (ht : exceeds p.maxTokens toks.length = false) :
    (b.accept toks rep).Good p := by
  have hs := h.ctrl.session
  have hh := h.ctrl.handle
  rw [hidle] at hs hh
  exact ⟨h.buf.clear, h.cfg, ⟨fun _ => ⟨hv, hr, ht⟩, hs, hh, rfl⟩⟩

theorem Block.Good.failTo (h : b.Good p) (hq : b.ctrl.phase = q) (hm : q.HoldsAsMuch r) (he : pendFits r e) :
    (b.failTo e r).Good p := by
  subst hq
  obtain ⟨hbusy, hs, hh⟩ := hm
  exact h.withCtrl ⟨fun _ => h.ctrl.latched hbusy, h.ctrl.session.trans hs.symm, h.ctrl.handle.trans hh.symm, he⟩

theorem Block.Good.goTo (h : b.Good p) (hq : b.ctrl.phase = q) (hm : q.HoldsAsMuch r) (he : pendFits r b.ctrl.pend) :
    (b.goTo r).Good p := h.failTo hq hm he

/-- A phase that goes on to `r` with `PEND` as it is, or fails to `f` with the status `e`. -/
theorem Block.Good.goToOrFail {f : Phase} (h : b.Good p) (hq : b.ctrl.phase = q) (ok : Bool) (hr : q.HoldsAsMuch r)
    (hp : pendFits r b.ctrl.pend) (hf : q.HoldsAsMuch f) (he : pendFits f e) :
    (if ok then b.goTo r else b.failTo e f).Good p := by
  split
  · exact h.goTo hq hr hp
  · exact h.failTo hq hf he

end Operations

/-! ### The invariant under the phases -/

/-- Every status that can stand in `PEND` at T_DELETE, or that T_ENCODE raises, can stand there at T_TERM (R36). -/
theorem pendFits_tTerm {e : Status} (h : pendFits .tDelete e ∨ e = .invalidEntry ∨ e = .capacityExceeded ∨
    e = .invalidBitError) : pendFits .tTerm e := by
  simp only [pendFits] at h ⊢
  tauto

theorem phaseEncode_good {b : Block} (h : b.Good p) (hq : b.ctrl.phase = .tEncode) : (phaseEncode b).Good p := by
  obtain ⟨es, hx⟩ := encodeAll_extends b
  have hs : ({ b with buf := b.buf.store b.encodeAll.tail } : Block).Good p := h.withBuf (h.buf.store hx)
  have hpend : pendFits .tEncode b.ctrl.pend := hq ▸ h.ctrl.pend
  rcases phaseEncode_cases b with ⟨-, heq⟩ | ⟨he, heq⟩ <;> rw [heq]
  · exact hs.goTo hq (by decide) hpend
  · exact hs.failTo hq (by decide) (pendFits_tTerm (.inr he))

/-- Every phase keeps the invariant, whatever the backend answers. -/
theorem phaseStep_good {b : Block} (d : Draw) (h : b.Good p) : (phaseStep d b).1.Good p := by
  obtain ⟨hl, hs, hh, hpend⟩ := h.ctrl
  rw [phaseStep]
  generalize hq : b.ctrl.phase = q at hl hs hh hpend
  cases q with
  | idle => exact h
  | tInit =>
    show (phaseInit d b).1.Good p
    rw [phaseInit]
    split
    · exact h.withCtrl ⟨fun _ => hl (by decide), rfl, hh, hpend⟩
    · exact h.withCtrl (c := { b.ctrl with pend := .backendInitError, phase := .idle })
        ⟨fun hn => absurd rfl hn, hs, hh, by simp [pendFits]⟩
  | tLine => exact h.goToOrFail hq d.ok (by decide) hpend (by decide) (by simp [pendFits])
  | tEncode => exact phaseEncode_good h hq
  | tClear => exact h.goToOrFail hq d.ok (by decide) hpend (by decide) (by simp [pendFits])
  | tStage => exact h.goToOrFail hq d.ok (by decide) hpend (by decide) (by simp [pendFits])
  | tCreate =>
    show Block.Good p (ite _ _ _)
    split
    · exact h.withCtrl ⟨fun _ => hl (by decide), hs, rfl, hpend⟩
    · exact h.failTo hq (by decide) (by simp [pendFits])
  | tStart => exact h.goToOrFail hq d.ok (by decide) hpend (by decide) (by simp [pendFits])
  | tPoll =>
    show Block.Good p (ite _ _ _)
    split
    · exact h.goTo hq (by decide) hpend
    · exact h.goTo hq (by decide) (Or.inl hpend)
  | tDelete => exact h.withCtrl ⟨fun _ => hl (by decide), hs, rfl, pendFits_tTerm (.inl hpend)⟩
  | tTerm => exact h.withCtrl ⟨fun hn => absurd rfl hn, rfl, hh, hpend⟩

/-! ### The invariant under commands and steps -/

theorem exec_good {i : Instr} (hg : s.block.Good s.params) (h : exec i s = .next t) : t.block.Good t.params := by
  rcases exec_cases h with ⟨st, v, rfl, -⟩ | ⟨-, -, ⟨op, hop, rfl⟩, -⟩ | ⟨-, -, rfl⟩ | ⟨-, a, c, -, hc, rfl⟩ |
    ⟨⟨hidle, hv⟩, toks, rep, hr, rfl, hi⟩
  case inl => exact hg
  case inr.inl =>
    obtain ⟨⟨es, hx⟩, -⟩ := hop s.block.buf.tail
    exact hg.withBuf (hg.buf.store hx)
  case inr.inr.inl => exact hg.withBuf hg.buf.clear
  case inr.inr.inr.inl => exact hg.configure (configured_legal hc)
  case inr.inr.inr.inr =>
    refine hg.accept hidle hv hr ?_
    rcases hi with ⟨-, ht⟩ | ⟨bs, w, v, -, rfl, ht⟩
    · exact ht
    · exact packBody_within ht v

/-- Settles O57, by the cases of what a step can do. -/
theorem everyStepKeepsTheBlockGood : Obligations.EveryStepKeepsTheBlockGood := by
  intro s t hinv h
  have hg := inv_iff.1 hinv
  apply inv_iff.2
  rcases step_cases h with ⟨c, rest, -, ⟨i, -, he⟩ | ⟨-, rfl⟩⟩ | ⟨rest, -, rfl⟩ | ⟨-, rest, rfl⟩ | ⟨-, hp, rest, rfl⟩ |
    ⟨-, -, d, rest, rfl⟩
  · exact exec_good (s := s.withInbox rest) hg he
  · exact hg
  · exact reset_good s.params
  · exact hg
  · exact phaseEncode_good hg hp
  · exact phaseStep_good d hg

/-! ### What cannot be told apart, part by part -/

/-- Two buffers with the same length and the same entries below it. -/
structure Buffer.Alike (b c : Buffer) : Prop where
  len   : b.len = c.len
  entry : ∀ i, i < b.len.val → b.entry i = c.entry i

/-- The phases in which the latched arguments are still to be used (R35). -/
abbrev Phase.UsesArguments (q : Phase) : Prop := q = .tInit ∨ q = .tLine ∨ q = .tEncode

/-- Two controllers that agree on everything but latched arguments no longer used and a handle not in use. -/
structure Ctrl.Alike (c d : Ctrl) : Prop where
  phase   : c.phase = d.phase
  latched : c.phase.UsesArguments → c.tokens = d.tokens ∧ c.repeatCount = d.repeatCount
  pend    : c.pend = d.pend
  session : c.session = d.session
  held    : c.handleHeld = d.handleHeld
  handle  : c.phase.holdsHandle = true → c.handle = d.handle

/-- Two blocks that agree on everything but what the spec leaves unobservable (R290). -/
structure Block.Alike (a b : Block) : Prop where
  cfgValid : a.cfgValid = b.cfgValid
  cfg      : a.cfgValid = true ∨ a.ctrl.phase ≠ .idle → a.cfg = b.cfg
  buf      : a.buf.Alike b.buf
  ctrl     : a.ctrl.Alike b.ctrl

theorem indistinguishable_iff : Indistinguishable s t ↔ s.params = t.params ∧ s.env = t.env ∧ s.block.Alike t.block := by
  constructor
  · rintro ⟨hp, he, hv, hc, hl, hr, hph, ha, hpd, hs, hh, hd⟩
    exact ⟨hp, he, hv, hc, ⟨hl, hr⟩, ⟨hph, ha, hpd, hs, hh, hd⟩⟩
  · rintro ⟨hp, he, hv, hc, ⟨hl, hr⟩, ⟨hph, ha, hpd, hs, hh, hd⟩⟩
    exact ⟨hp, he, hv, hc, hl, hr, hph, ha, hpd, hs, hh, hd⟩

theorem Buffer.Alike.refl (b : Buffer) : b.Alike b := ⟨rfl, fun _ _ => rfl⟩

theorem Ctrl.Alike.refl (c : Ctrl) : c.Alike c := ⟨rfl, fun _ => ⟨rfl, rfl⟩, rfl, rfl, rfl, fun _ => rfl⟩

theorem Block.Alike.refl (b : Block) : b.Alike b := ⟨rfl, fun _ => rfl, .refl _, .refl _⟩

section BufferAlike

variable {b c : Buffer}

theorem clear_alike (b c : Buffer) : b.clear.Alike c.clear := ⟨rfl, fun i hi => absurd hi (Nat.not_lt_zero i)⟩

variable (h : b.Alike c)
include h

theorem Buffer.Alike.tail : b.tail = c.tail := by rw [Buffer.tail, Buffer.tail, h.len]

theorem Buffer.Alike.entries : b.entries = c.entries := by
  rw [Buffer.entries, Buffer.entries, ← h.len]
  exact List.map_congr_left fun i hi => h.entry i (List.mem_range.1 hi)

/-- Storing the same appends: below the old length the two agreed, and from there on stand the same entries. -/
theorem Buffer.Alike.store {u : Tail} {es : List Entry} (hx : b.tail.Extends u es) : (b.store u).Alike (c.store u) := by
  obtain ⟨hl, hnew, hold⟩ := store_appended hx
  obtain ⟨-, hnew', hold'⟩ := store_appended (h.tail ▸ hx)
  refine ⟨rfl, fun i hi => ?_⟩
  by_cases hi' : i < b.len.val
  · rw [hold i (.inl hi'), hold' i (.inl (h.len ▸ hi')), h.entry i hi']
  · obtain ⟨k, rfl⟩ := Nat.exists_eq_add_of_le (Nat.le_of_not_lt hi')
    have hk : k < es.length := by omega
    rw [hnew k hk, h.len, hnew' k hk]

end BufferAlike

/-! ### Blocks that stay alike -/

/-- The move from phase `q` to phase `r` is none out of IDLE and makes neither the latched arguments nor the handle used. -/
abbrev Phase.UsesNoMore (q r : Phase) : Prop :=
  q ≠ .idle ∧ (r.UsesArguments → q.UsesArguments) ∧ (r.holdsHandle = true → q.holdsHandle = true)

section BlockAlike

variable {a b : Block} {q r : Phase} (h : a.Alike b)
include h

theorem Block.Alike.withBuf {x y : Buffer} (hb : x.Alike y) :
    ({ a with buf := x } : Block).Alike { b with buf := y } := ⟨h.cfgValid, h.cfg, hb, h.ctrl⟩

/-- The controllers may be replaced outside IDLE, where the two configurations agree. -/
theorem Block.Alike.withCtrl {c d : Ctrl} (hq : a.ctrl.phase ≠ .idle) (hc : c.Alike d) :
    ({ a with ctrl := c } : Block).Alike { b with ctrl := d } := ⟨h.cfgValid, fun _ => h.cfg (.inr hq), h.buf, hc⟩

theorem Block.Alike.withSession (v : Bool) :
    ({ a with ctrl := { a.ctrl with session := v } } : Block).Alike { b with ctrl := { b.ctrl with session := v } } :=
  ⟨h.cfgValid, h.cfg, h.buf, ⟨h.ctrl.phase, h.ctrl.latched, h.ctrl.pend, rfl, h.ctrl.held, h.ctrl.handle⟩⟩

theorem Block.Alike.withHeld (v : Bool) :
    ({ a with ctrl := { a.ctrl with handleHeld := v } } : Block).Alike { b with ctrl := { b.ctrl with handleHeld := v } } :=
  ⟨h.cfgValid, h.cfg, h.buf, ⟨h.ctrl.phase, h.ctrl.latched, h.ctrl.pend, h.ctrl.session, rfl, h.ctrl.handle⟩⟩

theorem Block.Alike.configure (c : Cfg) :
    ({ a with cfg := c, cfgValid := true } : Block).Alike { b with cfg := c, cfgValid := true } :=
  ⟨rfl, fun _ => rfl, h.buf, h.ctrl⟩

theorem Block.Alike.accept (hv : a.cfgValid = true) (toks : List Token) (rep : Word) :
    (a.accept toks rep).Alike (b.accept toks rep) where
  cfgValid := h.cfgValid
  cfg      := fun _ => h.cfg (.inl hv)
  buf      := clear_alike _ _
  ctrl     := ⟨rfl, fun _ => ⟨rfl, rfl⟩, rfl, h.ctrl.session, h.ctrl.held,
    fun hn => absurd hn (show ¬ Phase.holdsHandle .tInit = true by decide)⟩

theorem Block.Alike.failTo (hq : a.ctrl.phase = q) (hm : q.UsesNoMore r) (e : Status) :
    (a.failTo e r).Alike (b.failTo e r) := by
  subst hq
  obtain ⟨hbusy, harg, hhdl⟩ := hm
  exact h.withCtrl hbusy ⟨rfl, fun hr => h.ctrl.latched (harg hr), rfl, h.ctrl.session, h.ctrl.held,
    fun hr => h.ctrl.handle (hhdl hr)⟩

theorem Block.Alike.goTo (hq : a.ctrl.phase = q) (hm : q.UsesNoMore r) : (a.goTo r).Alike (b.goTo r) := by
  have hb : b.goTo r = b.failTo a.ctrl.pend r := by rw [h.ctrl.pend]; rfl
  rw [hb]
  exact h.failTo hq hm a.ctrl.pend

theorem Block.Alike.goToOrFail {f : Phase} (hq : a.ctrl.phase = q) (ok : Bool) (hr : q.UsesNoMore r) (hf : q.UsesNoMore f)
    (e : Status) : (if ok then a.goTo r else a.failTo e f).Alike (if ok then b.goTo r else b.failTo e f) := by
  split
  · exact h.goTo hq hr
  · exact h.failTo hq hf e

/-- A reset abandons the same request in both. -/
theorem Block.Alike.pendingRequest : a.pendingRequest = b.pendingRequest := by
  rw [Block.pendingRequest, Block.pendingRequest, ← h.ctrl.phase]
  cases hq : a.ctrl.phase with
  | tLine => rw [h.cfg (.inr (by rw [hq]; decide))]
  | tStage => rw [h.buf.entries]
  | tStart | tPoll | tDelete => rw [h.ctrl.handle (by rw [hq]; rfl)]
  | _ => rfl

/-- T_ENCODE encodes the same tokens under the same configuration, so it appends the same entries to both buffers. -/
theorem phaseEncode_alike (hq : a.ctrl.phase = .tEncode) : (phaseEncode a).Alike (phaseEncode b) := by
  have hcfg : a.cfg = b.cfg := h.cfg (.inr (by rw [hq]; decide))
  obtain ⟨htoks, hrep⟩ := h.ctrl.latched (.inr (.inr hq))
  have hall : b.encodeAll = a.encodeAll := by
    rw [Block.encodeAll, Block.encodeAll, hcfg, htoks, hrep, h.buf.tail]
  obtain ⟨es, hx⟩ := encodeAll_extends a
  rw [phaseEncode, phaseEncode, hall]
  cases ha : a.encodeAll with
  | done u =>
    rw [ha] at hx
    exact (h.withBuf (h.buf.store hx)).goTo hq (by decide)
  | raised e u =>
    rw [ha] at hx
    exact (h.withBuf (h.buf.store hx)).failTo hq (by decide) e

/-- A phase on the same draw leaves the two blocks alike. -/
theorem phaseStep_alike (d : Draw) : (phaseStep d a).1.Alike (phaseStep d b).1 := by
  rw [phaseStep, phaseStep, ← h.ctrl.phase]
  cases hq : a.ctrl.phase with
  | idle => exact h
  | tInit =>
    show (phaseInit d a).1.Alike (phaseInit d b).1
    rw [phaseInit, phaseInit]
    split
    · exact (h.withSession true).goTo hq (by decide)
    · exact h.failTo (r := .idle) hq (by decide) .backendInitError
  | tLine => exact h.goToOrFail hq d.ok (by decide) (by decide) _
  | tEncode => exact phaseEncode_alike h hq
  | tClear => exact h.goToOrFail hq d.ok (by decide) (by decide) _
  | tStage => exact h.goToOrFail hq d.ok (by decide) (by decide) _
  | tCreate =>
    show (ite _ _ _ : Block).Alike (ite _ _ _)
    split
    · exact h.withCtrl (by rw [hq]; decide)
        ⟨rfl, fun hn => absurd hn (show ¬ Phase.UsesArguments .tStart by decide), h.ctrl.pend, h.ctrl.session, rfl,
          fun _ => rfl⟩
    · exact h.failTo hq (by decide) _
  | tStart => exact h.goToOrFail hq d.ok (by decide) (by decide) _
  | tPoll =>
    show (ite _ _ _ : Block).Alike (ite _ _ _)
    split
    · exact h.goTo hq (by decide)
    · exact h.goTo hq (by decide)
  | tDelete => exact (h.withHeld false).goTo hq (by decide)
  | tTerm => exact (h.withSession false).goTo hq (by decide)

/-- A phase on the same draw puts out the same from the two blocks. -/
theorem phaseStep_out (d : Draw) : (phaseStep d a).2 = (phaseStep d b).2 := by
  rw [phaseStep, phaseStep, ← h.ctrl.phase]
  cases hq : a.ctrl.phase with
  | tLine => rw [phaseLine, phaseLine, h.cfg (.inr (by rw [hq]; decide))]
  | tStage => rw [phaseStage, phaseStage, h.buf.entries]
  | tStart => rw [phaseStart, phaseStart, h.ctrl.handle (by rw [hq]; rfl)]
  | tPoll => rw [phasePoll, phasePoll, h.ctrl.handle (by rw [hq]; rfl)]
  | tDelete => rw [phaseDelete, phaseDelete, h.ctrl.handle (by rw [hq]; rfl)]
  | tInit => cases hd : d.ok <;> simp only [phaseInit, hd] <;> rfl
  | tTerm => simp only [phaseTerm, finish_out, h.ctrl.pend]
  | _ => rfl

end BlockAlike

/-! ### Commands and steps -/

theorem emit_indistinguishable {b c : Block} (h : Indistinguishable s t) (hb : b.Alike c) (out : List Output) :
    Indistinguishable (s.emit b out) (t.emit c out) := by
  obtain ⟨hp, he, -⟩ := indistinguishable_iff.1 h
  exact indistinguishable_iff.2 ⟨hp, by rw [State.emit, State.emit, he], hb⟩

theorem respond_indistinguishable (h : Indistinguishable s t) (st : Status) (v : Value) :
    Indistinguishable (s.respond st v) (t.respond st v) :=
  emit_indistinguishable h (indistinguishable_iff.1 h).2.2 _

theorem withInbox_indistinguishable (h : Indistinguishable s t) (rest : List Event) :
    Indistinguishable (s.withInbox rest) (t.withInbox rest) := by
  obtain ⟨hp, he, hb⟩ := indistinguishable_iff.1 h
  exact indistinguishable_iff.2 ⟨hp, by rw [State.withInbox, State.withInbox, he], hb⟩

theorem runOnBuffer_indistinguishable {op : Tail → Attempt} (hop : ∀ u, (op u).GrowsFrom u) (h : Indistinguishable s t) :
    Indistinguishable (s.runOnBuffer op) (t.runOnBuffer op) := by
  obtain ⟨-, -, hb⟩ := indistinguishable_iff.1 h
  obtain ⟨⟨es, hx⟩, -⟩ := hop s.block.buf.tail
  rw [State.runOnBuffer, State.runOnBuffer, ← hb.buf.tail]
  exact emit_indistinguishable h (hb.withBuf (hb.buf.store hx)) _

/-- Both outcomes are next states, and these cannot be told apart. -/
def SameOutcome (o o' : Host.Outcome State Fault Refusal) : Prop :=
  ∃ s t, o = .next s ∧ o' = .next t ∧ Indistinguishable s t

theorem sameOutcome_next (h : Indistinguishable s t) : SameOutcome (.next s) (.next t) := ⟨s, t, rfl, rfl, h⟩

theorem whenIdle_sameOutcome {act : State → State} (h : Indistinguishable s t)
    (ha : Indistinguishable (act s) (act t)) : SameOutcome (whenIdle s act) (whenIdle t act) := by
  obtain ⟨-, -, hb⟩ := indistinguishable_iff.1 h
  rw [whenIdle, whenIdle, ← hb.ctrl.phase]
  split
  · exact sameOutcome_next ha
  · exact sameOutcome_next (respond_indistinguishable h _ _)

/-- Where the check of the configuration passes, the two configurations agree. -/
theorem whenConfigured_indistinguishable {act : State → State} (h : Indistinguishable s t)
    (ha : s.block.cfgValid = true → s.block.cfg = t.block.cfg → Indistinguishable (act s) (act t)) :
    Indistinguishable (whenConfigured s act) (whenConfigured t act) := by
  obtain ⟨-, -, hb⟩ := indistinguishable_iff.1 h
  rw [whenConfigured, whenConfigured, ← hb.cfgValid]
  split
  next hv => exact ha hv (hb.cfg (.inl hv))
  next => exact respond_indistinguishable h _ _

/-- A check of an operand against the open bounds that fails is answered alike. -/
theorem unlessInvalid_indistinguishable {c : Prop} [Decidable c] {x y : State} (h : Indistinguishable s t)
    (ha : Indistinguishable x y) :
    Indistinguishable (if c then s.respond .invalidArgument .none else x)
      (if c then t.respond .invalidArgument .none else y) := by
  split
  · exact respond_indistinguishable h _ _
  · exact ha

theorem exec_sameOutcome (i : Instr) (h : Indistinguishable s t) : SameOutcome (exec i s) (exec i t) := by
  obtain ⟨hp, -, hb⟩ := indistinguishable_iff.1 h
  cases i with
  | bufReset =>
    rw [exec, execBufReset, exec, execBufReset]
    exact whenIdle_sameOutcome h (emit_indistinguishable h (hb.withBuf (clear_alike _ _)) _)
  | bufAppend m sp d =>
    rw [exec, execBufAppend, exec, execBufAppend]
    exact whenIdle_sameOutcome h (runOnBuffer_indistinguishable (append_grows m sp d) h)
  | bufLen =>
    rw [exec, execBufLen, exec, execBufLen]
    refine whenIdle_sameOutcome h ?_
    rw [← hb.buf.len]
    exact respond_indistinguishable h _ _
  | bufRead k =>
    rw [exec, execBufRead, exec, execBufRead]
    refine whenIdle_sameOutcome h ?_
    rw [← hb.buf.len]
    split
    next hk =>
      rw [hb.buf.entry _ hk]
      exact respond_indistinguishable h _ _
    next => exact respond_indistinguishable h _ _
  | emitSpace d =>
    rw [exec, execEmitSpace, exec, execEmitSpace]
    refine whenIdle_sameOutcome h (whenConfigured_indistinguishable h fun _ hc => ?_)
    rw [← hc]
    exact runOnBuffer_indistinguishable (emitSpace_grows _ d) h
  | emitMark d =>
    rw [exec, execEmitMark, exec, execEmitMark]
    refine whenIdle_sameOutcome h (whenConfigured_indistinguishable h fun _ hc => ?_)
    rw [← hc]
    exact runOnBuffer_indistinguishable (emitMark_grows _ d) h
  | configure a =>
    rw [exec, execConfigure, exec, execConfigure]
    refine whenIdle_sameOutcome h ?_
    cases configured a with
    | none => exact respond_indistinguishable h _ _
    | some c => exact emit_indistinguishable h (hb.configure c) _
  | encode ts =>
    rw [exec, execEncode, exec, execEncode]
    refine whenIdle_sameOutcome h (whenConfigured_indistinguishable h fun _ hc => ?_)
    rw [← hp, ← hc]
    exact unlessInvalid_indistinguishable h (runOnBuffer_indistinguishable (encodeBody_grows _ ts) h)
  | pack bs w v =>
    rw [exec, execPack, exec, execPack]
    refine whenIdle_sameOutcome h ?_
    rw [← hp]
    exact unlessInvalid_indistinguishable h (respond_indistinguishable h _ _)
  | transmit ts r =>
    rw [exec, execTransmit, exec, execTransmit]
    refine whenIdle_sameOutcome h (whenConfigured_indistinguishable h fun hv _ => ?_)
    rw [← hp]
    exact unlessInvalid_indistinguishable h (emit_indistinguishable h (hb.accept hv _ _) _)
  | transmitBytes bs w v r =>
    rw [exec, execTransmitBytes, exec, execTransmitBytes]
    refine whenIdle_sameOutcome h (whenConfigured_indistinguishable h fun hv _ => ?_)
    rw [← hp]
    exact unlessInvalid_indistinguishable h (emit_indistinguishable h (hb.accept hv _ _) _)

theorem serveCommand_sameOutcome (c : Command) (h : Indistinguishable s t) :
    SameOutcome (serveCommand c s) (serveCommand c t) := by
  cases hd : decode c with
  | ok i =>
    rw [serveCommand_of_decode_ok hd, serveCommand_of_decode_ok hd]
    exact exec_sameOutcome i h
  | error e =>
    rw [serveCommand_of_decode_error hd, serveCommand_of_decode_error hd]
    exact sameOutcome_next (respond_indistinguishable h _ _)

theorem applyReset_indistinguishable (h : Indistinguishable s t) : Indistinguishable s.applyReset t.applyReset := by
  obtain ⟨-, -, hb⟩ := indistinguishable_iff.1 h
  rw [State.applyReset, State.applyReset, hb.pendingRequest]
  exact emit_indistinguishable h (.refl _) _

theorem encodeStep_indistinguishable (h : Indistinguishable s t) (hq : s.block.ctrl.phase = .tEncode) :
    Indistinguishable s.encodeStep t.encodeStep :=
  emit_indistinguishable h (phaseEncode_alike (indistinguishable_iff.1 h).2.2 hq) _

theorem answerStep_indistinguishable (d : Draw) (h : Indistinguishable s t) :
    Indistinguishable (s.answerStep d) (t.answerStep d) := by
  obtain ⟨-, -, hb⟩ := indistinguishable_iff.1 h
  rw [State.answerStep, State.answerStep, phaseStep_out hb d]
  exact emit_indistinguishable h (phaseStep_alike hb d) _

/-- The internal step where it is enabled, and else something that keeps the two states alike. -/
theorem encodeStepOr_indistinguishable {x y : State} (h : Indistinguishable s t) (hxy : Indistinguishable x y) :
    Indistinguishable (if s.block.ctrl.phase = .tEncode then s.encodeStep else x)
      (if t.block.ctrl.phase = .tEncode then t.encodeStep else y) := by
  rw [← (indistinguishable_iff.1 h).2.2.ctrl.phase]
  split
  next hq => exact encodeStep_indistinguishable h hq
  next => exact hxy

theorem quietStep_indistinguishable (h : Indistinguishable s t) : Indistinguishable s.quietStep t.quietStep := by
  obtain ⟨-, he, -⟩ := indistinguishable_iff.1 h
  refine encodeStepOr_indistinguishable h ?_
  rw [← he]
  cases s.env.standing with
  | none => exact h
  | some d => exact answerStep_indistinguishable d h

/-- Settles O59, event by event: the two states take the same event. -/
theorem unspecifiedValuesAreUnobservable : Obligations.UnspecifiedValuesAreUnobservable := by
  intro s t h
  change SameOutcome (step s) (step t)
  have henv := (indistinguishable_iff.1 h).2.1
  cases hs : s.env.inbox with
  | nil =>
    have ht : t.env.inbox = [] := henv ▸ hs
    rw [step_of_empty hs, step_of_empty ht]
    exact sameOutcome_next (quietStep_indistinguishable h)
  | cons e rest =>
    have ht : t.env.inbox = e :: rest := henv ▸ hs
    have hr := withInbox_indistinguishable h rest
    cases e with
    | command c =>
      rw [step_of_command hs, step_of_command ht]
      exact serveCommand_sameOutcome c hr
    | reset =>
      rw [step_of_reset hs, step_of_reset ht]
      exact sameOutcome_next (applyReset_indistinguishable hr)
    | answer d =>
      rw [step_of_answer hs, step_of_answer ht]
      exact sameOutcome_next (encodeStepOr_indistinguishable h (answerStep_indistinguishable d hr))
    | lateAnswer d =>
      rw [step_of_lateAnswer hs, step_of_lateAnswer ht]
      exact sameOutcome_next hr
    | turn =>
      rw [step_of_turn hs, step_of_turn ht]
      exact sameOutcome_next (encodeStepOr_indistinguishable hr hr)

end Sys2Proof.Machine
end

section
/-! PROOFS. The packed form of an entry (R64); and what the backend is shown of the buffer (44_transmission.md): which phase
follows which, what a step makes of the block, that every call put out is of the pending request, and from these that only a
waveform encoded without error is staged. -/

namespace Sys2Proof.Machine

variable {s t : State} {b : Block}

/-! ### The packed entry -/

/-- Settles O7: MARK is the lower part of the whole, SPACE and DUR are the parts of what stands above it. -/
theorem packedEntryLayout : Obligations.PackedEntryLayout := by
  intro e
  have above : ∀ k, 32 ≤ k → e.packed.extractLsb' k 32 = (e.dur ++ e.space).extractLsb' (k - 32) 32 :=
    fun _ hk => BitVec.extractLsb'_append_eq_of_le hk
  refine ⟨BitVec.extractLsb'_append_eq_right, ?_, ?_⟩
  · exact (above 32 le_rfl).trans BitVec.extractLsb'_append_eq_right
  · exact (above 64 (by decide)).trans BitVec.extractLsb'_append_eq_left

/-! ### The phases, one after another -/

/-- The phases that the block's step on a draw can lead to: the next one, and where it fails to (R223 to R232). -/
def Phase.successors : Phase → List Phase
  | .idle    => [.idle]
  | .tInit   => [.tLine, .idle]
  | .tLine   => [.tEncode, .tTerm]
  | .tEncode => [.tClear, .tTerm]
  | .tClear  => [.tStage, .tTerm]
  | .tStage  => [.tCreate, .tTerm]
  | .tCreate => [.tStart, .tTerm]
  | .tStart  => [.tPoll, .tDelete]
  | .tPoll   => [.tPoll, .tDelete]
  | .tDelete => [.tTerm]
  | .tTerm   => [.idle]

theorem eq_tEncode_of_tClear_mem_successors {q : Phase} (h : .tClear ∈ q.successors) : q = .tEncode := by
  revert h
  cases q <;> decide

theorem eq_tClear_of_tStage_mem_successors {q : Phase} (h : .tStage ∈ q.successors) : q = .tClear := by
  revert h
  cases q <;> decide

/-- A phase that goes on or fails, as drawn. -/
theorem ite_phase_mem {b c : Block} {p q : Phase} (ok : Bool) (hp : b.ctrl.phase = p) (hq : c.ctrl.phase = q) :
    (if ok then b else c).ctrl.phase ∈ [p, q] := by
  cases ok <;> simp [hp, hq]

theorem phaseEncode_phase_mem (b : Block) : (phaseEncode b).ctrl.phase ∈ Phase.successors .tEncode := by
  rcases phaseEncode_cases b with ⟨-, h⟩ | ⟨-, h⟩ <;> rw [h] <;> simp [Phase.successors]

theorem phaseStep_phase_mem (d : Draw) (b : Block) : (phaseStep d b).1.ctrl.phase ∈ b.ctrl.phase.successors := by
  rw [phaseStep]
  cases hq : b.ctrl.phase with
  | idle => exact List.mem_singleton.2 hq
  | tInit => cases hd : d.ok <;> simp [phaseInit, hd, Phase.successors]
  | tLine | tClear | tStage | tCreate | tStart => exact ite_phase_mem d.ok rfl rfl
  | tEncode => exact phaseEncode_phase_mem b
  | tPoll => exact ite_phase_mem d.busy rfl rfl
  | tDelete | tTerm => exact List.mem_singleton_self _

/-- Every call a phase puts out is of the request the block was waiting on. -/
theorem pendingRequest_of_call_mem {d : Draw} {r : Request} {a : Answer} (h : .call r a ∈ (phaseStep d b).2) :
    b.pendingRequest = some r := by
  rw [phaseStep] at h
  rw [Block.pendingRequest]
  cases hq : b.ctrl.phase with rw [hq] at h
  | idle | tEncode => cases h
  | tInit => cases hd : d.ok <;> simp_all [phaseInit]
  | tTerm => simp_all [phaseTerm]
  | _ => exact congrArg some (Output.call.inj (List.mem_singleton.1 h)).1.symm

/-- A `stage` is pending in T_STAGE only, and it carries the buffer's entries (R227). -/
theorem phase_of_pendingRequest_stage {es : List Entry} (h : b.pendingRequest = some (.stage es)) :
    b.ctrl.phase = .tStage ∧ es = b.buf.entries := by
  rw [Block.pendingRequest] at h
  cases hq : b.ctrl.phase with rw [hq] at h
  | tStage => exact ⟨rfl, (Request.stage.inj (Option.some.inj h)).symm⟩
  | _ => simp at h

/-! ### What a step makes of the block, and what it puts out -/

/-- A command leaves the block, or it is carried out in IDLE, and the block stays there or goes to T_INIT. -/
theorem exec_block {i : Instr} (h : exec i s = .next t) :
    t.block = s.block ∨ (s.isIdle ∧ (t.block.ctrl.phase = .idle ∨ t.block.ctrl.phase = .tInit)) := by
  rcases exec_cases h with ⟨st, v, rfl, -⟩ | ⟨hidle, -, ⟨op, -, rfl⟩, -⟩ | ⟨hidle, -, rfl⟩ | ⟨hidle, a, c, -, -, rfl⟩ |
    ⟨⟨hidle, -⟩, toks, rep, -, rfl, -⟩
  case inl => exact .inl rfl
  case inr.inr.inr.inr => exact .inr ⟨hidle, .inr rfl⟩
  all_goals exact .inr ⟨hidle, .inl hidle⟩

/-- Everything a step can make of the block: nothing; what a command in IDLE or a reset makes of it, which ends in IDLE or
T_INIT; T_ENCODE; another phase's action on a draw. -/
theorem step_block_cases (h : step s = .next t) :
    t.block = s.block ∨
    ((s.noReset → s.isIdle) ∧ (t.block.ctrl.phase = .idle ∨ t.block.ctrl.phase = .tInit)) ∨
    (s.block.ctrl.phase = .tEncode ∧ t.block = phaseEncode s.block) ∨
    (s.block.ctrl.phase ≠ .tEncode ∧ ∃ d, t.block = (phaseStep d s.block).1) := by
  rcases step_cases h with ⟨c, rest, -, ⟨i, -, he⟩ | ⟨-, rfl⟩⟩ | ⟨rest, hr, rfl⟩ | ⟨-, rest, rfl⟩ | ⟨-, hp, rest, rfl⟩ |
    ⟨-, hp, d, rest, rfl⟩
  · exact (exec_block he).imp_right fun ⟨hidle, hq⟩ => .inl ⟨fun _ => hidle, hq⟩
  · exact .inl rfl
  · exact .inr (.inl ⟨fun hn => absurd (by rw [hr]; rfl) hn, .inl rfl⟩)
  · exact .inl rfl
  · exact .inr (.inr (.inl ⟨hp, rfl⟩))
  · exact .inr (.inr (.inr ⟨hp, d, rfl⟩))

/-- A step stays in its phase, ends in IDLE or T_INIT, or goes where the phase leads. -/
theorem step_phase_cases (h : step s = .next t) :
    t.block.ctrl.phase = s.block.ctrl.phase ∨ (t.block.ctrl.phase = .idle ∨ t.block.ctrl.phase = .tInit) ∨
    t.block.ctrl.phase ∈ s.block.ctrl.phase.successors := by
  rcases step_block_cases h with hb | ⟨-, hq⟩ | ⟨hp, hb⟩ | ⟨-, d, hb⟩
  · exact .inl (by rw [hb])
  · exact .inr (.inl hq)
  · exact .inr (.inr (by rw [hb, hp]; exact phaseEncode_phase_mem _))
  · exact .inr (.inr (by rw [hb]; exact phaseStep_phase_mem d _))

theorem step_keeps_buffer (h : step s = .next t) (hn : s.noReset) (hidle : s.block.ctrl.phase ≠ .idle)
    (henc : s.block.ctrl.phase ≠ .tEncode) : t.block.buf = s.block.buf := by
  rcases step_block_cases h with hb | ⟨hi, -⟩ | ⟨hp, -⟩ | ⟨hp, d, hb⟩
  · rw [hb]
  · exact absurd (hi hn) hidle
  · exact absurd hp henc
  · rw [hb]
    exact (phaseStep_frame d s.block hp).1

/-- The hand-off begins only where T_ENCODE met no error (R225). -/
theorem step_enters_tClear (h : step s = .next t) (ht : t.block.ctrl.phase = .tClear) (hs : s.block.ctrl.phase ≠ .tClear) :
    s.block.ctrl.phase = .tEncode ∧ s.block.encodeAll.status = .ok := by
  rcases step_block_cases h with hb | ⟨-, hq⟩ | ⟨hp, hb⟩ | ⟨hp, d, hb⟩
  · exact absurd (hb ▸ ht) hs
  · simp [ht] at hq
  · rcases phaseEncode_cases s.block with ⟨hok, -⟩ | ⟨-, hfail⟩
    · exact ⟨hp, hok⟩
    · simp [hb, hfail] at ht
  · have hm := phaseStep_phase_mem d s.block
    rw [← hb, ht] at hm
    exact absurd (eq_tEncode_of_tClear_mem_successors hm) hp

theorem step_enters_tStage (h : step s = .next t) (ht : t.block.ctrl.phase = .tStage) :
    s.block.ctrl.phase = .tStage ∨ s.block.ctrl.phase = .tClear := by
  rcases step_phase_cases h with hq | hq | hm
  · exact .inl (hq ▸ ht)
  · simp [ht] at hq
  · exact .inr (eq_tClear_of_tStage_mem_successors (ht ▸ hm))

/-- A command puts out a response or nothing, no call. -/
theorem exec_adds_no_call {i : Instr} (h : exec i s = .next t) :
    ∃ out, t.env.log = s.env.log ++ out ∧ ∀ r a, .call r a ∉ out := by
  rcases oneResponsePerCommand i s t h with ⟨st, v, hlog, -⟩ | ⟨hlog, -⟩
  · exact ⟨_, hlog, by simp⟩
  · exact ⟨[], by simp [hlog], by simp⟩

/-- A step only adds outputs, and every call among them is of the request the block was waiting on. -/
theorem step_calls_pendingRequest (h : step s = .next t) :
    ∃ out, t.env.log = s.env.log ++ out ∧ ∀ r a, .call r a ∈ out → s.block.pendingRequest = some r := by
  rcases step_cases h with ⟨c, rest, -, ⟨i, -, he⟩ | ⟨-, rfl⟩⟩ | ⟨rest, -, rfl⟩ | ⟨-, rest, rfl⟩ | ⟨-, -, rest, rfl⟩ |
    ⟨-, -, d, rest, rfl⟩
  · obtain ⟨out, hlog, hno⟩ := exec_adds_no_call he
    exact ⟨out, hlog, fun r a hm => absurd hm (hno r a)⟩
  · exact ⟨_, rfl, by simp⟩
  · exact ⟨_, rfl, by simp⟩
  · exact ⟨[], (List.append_nil _).symm, by simp⟩
  · exact ⟨[], rfl, by simp⟩
  · exact ⟨_, rfl, fun _ _ hm => pendingRequest_of_call_mem hm⟩

/-- Settles O52, clause by clause: the buffer, the two phases entered, and the stage calls, whose pending request is
T_STAGE's. -/
theorem noPartialWaveformIsStaged : Obligations.NoPartialWaveformIsStaged := by
  intro s t h
  refine ⟨step_keeps_buffer h, step_enters_tClear h, step_enters_tStage h, fun out hlog es a hm => ?_⟩
  obtain ⟨out', hlog', hcall⟩ := step_calls_pendingRequest h
  obtain rfl : out' = out := List.append_cancel_left (hlog'.symm.trans hlog)
  exact phase_of_pendingRequest_stage (hcall _ a hm)

end Sys2Proof.Machine
end

section
/-! PROOFS. The commands as they are written (30_encoding.md): which words decode, that decoding and encoding are inverse, and
what the assembler makes of CONFIGURE's operands and of quoted tokens. Then what is the same written in two ways: equal duty
fractions (R89), TRANSMIT_BYTES and PACK with TRANSMIT (R96), ENCODE and its EMIT commands (R97). -/

namespace Sys2Proof.Machine

variable {s t : State}

/-! ### The opcode map and the command word -/

theorem ofCode_code (o : Opcode) : Opcode.ofCode o.code = some o := by
  cases o <;> rfl

theorem mem_opcode_all (o : Opcode) : o ∈ Opcode.all := by
  cases o <;> decide

/-- The opcode map is read back by its column `OPC` (R82). -/
theorem ofCode_eq_some_iff {c : BitVec 8} {o : Opcode} : Opcode.ofCode c = some o ↔ o.code = c := by
  constructor
  · intro h
    exact eq_of_beq (List.find?_some (p := fun o : Opcode => o.code == c) h)
  · rintro rfl
    exact ofCode_code o

@[simp] theorem rsvField_word (o : Opcode) : rsvField o.word = 0 := by
  cases o <;> decide

@[simp] theorem opcField_word (o : Opcode) : opcField o.word = o.code := by
  cases o <;> decide

/-- A word whose reserved field is 0 is its lowest byte, widened (R81). -/
theorem setWidth_opcField {w : Word} (h : rsvField w = 0) : (opcField w).setWidth 32 = w := by
  have hr : w.toNat / 2 ^ 8 % 2 ^ 24 = 0 := by
    simpa [rsvField, BitVec.extractLsb'_toNat, Nat.shiftRight_eq_div_pow] using congrArg BitVec.toNat h
  apply BitVec.eq_of_toNat_eq
  simp only [opcField, BitVec.toNat_setWidth, BitVec.extractLsb'_toNat, Nat.shiftRight_zero]
  omega

/-- A word with a zero reserved field and a row's `OPC` is the word of that row, and no other word is (R81, R82). -/
theorem word_fields_iff {w : Word} {o : Opcode} : rsvField w = 0 ∧ opcField w = o.code ↔ w = o.word := by
  constructor
  · rintro ⟨hr, ho⟩
    rw [Opcode.word, ← ho, setWidth_opcField hr]
  · rintro rfl
    exact ⟨rsvField_word o, opcField_word o⟩

/-! ### Decoding and encoding -/

/-- The word of a row decodes to the instruction the row makes of the argument record, whatever the record (R82, R83). -/
theorem decode_word (o : Opcode) (a : Args) : decode ⟨o.word, a⟩ = .ok (instrOf o a) :=
  decode_legal a (rsvField_word o) (ofCode_eq_some_iff.2 (opcField_word o).symm)

/-- Nothing else decodes. -/
theorem decode_eq_ok_iff {c : Command} {i : Instr} :
    decode c = .ok i ↔ ∃ o : Opcode, c.word = o.word ∧ instrOf o c.args = i := by
  constructor
  · intro h
    rw [decode] at h
    split at h
    case isTrue hr =>
      split at h
      case h_1 o ho =>
        exact ⟨o, word_fields_iff.1 ⟨hr, (ofCode_eq_some_iff.1 ho).symm⟩, Except.ok.inj h⟩
      case h_2 => cases h
    case isFalse => cases h
  · rintro ⟨o, hw, rfl⟩
    obtain ⟨w, a⟩ := c
    obtain rfl : w = o.word := hw
    exact decode_word o a

theorem instrOf_args (i : Instr) : instrOf i.opcode i.args = i := by
  cases i <;> rfl

theorem instrOf_opcode (o : Opcode) (a : Args) : (instrOf o a).opcode = o := by
  cases o <;> rfl

/-- In a well-formed command, the record holds the operands its row reads and nothing else. -/
theorem args_of_wf {c : Command} {o : Opcode} (h : c.wf = true) (hw : c.word = o.word) :
    (instrOf o c.args).args = c.args := by
  have ho : Opcode.ofCode (opcField c.word) = some o := by rw [hw, opcField_word, ofCode_code]
  simp only [Command.wf, Command.argsOk, ho, Bool.and_eq_true] at h
  exact eq_of_beq h.2

/-- Settles O3: forwards, an instruction's word is its row's, which reads the operands back; backwards, the row of the word is
the row of the instruction it makes, and the record is that instruction's. -/
theorem decodeEncodeInverse : Obligations.DecodeEncodeInverse := by
  refine ⟨fun i => ?_, fun c i hwf hd => ?_⟩
  · rw [encode, decode_word, instrOf_args]
  · obtain ⟨o, hw, rfl⟩ := decode_eq_ok_iff.1 hd
    rw [encode, instrOf_opcode, args_of_wf hwf hw, ← hw]

/-- Settles O1: the eleven words are the words of the eleven rows. -/
theorem opcodeWordsDecode : Obligations.OpcodeWordsDecode := by
  intro a
  exact ⟨decode_word .bufReset a, decode_word .bufAppend a, decode_word .bufLen a, decode_word .bufRead a,
    decode_word .emitSpace a, decode_word .emitMark a, decode_word .configure a, decode_word .encode a,
    decode_word .pack a, decode_word .transmit a, decode_word .transmitBytes a⟩

/-- Settles O2: a decoded word is the word of a row, and the eleven opcodes are the codes of the rows. -/
theorem legalWordsAreTheElevenOpcodes : Obligations.LegalWordsAreTheElevenOpcodes := by
  intro c
  change (∃ i, decode c = .ok i) ↔ rsvField c.word = 0 ∧ opcField c.word ∈ Opcode.all.map Opcode.code
  constructor
  · rintro ⟨i, hi⟩
    obtain ⟨o, hw, -⟩ := decode_eq_ok_iff.1 hi
    rw [hw, rsvField_word, opcField_word]
    exact ⟨rfl, List.mem_map_of_mem (mem_opcode_all o)⟩
  · rintro ⟨hr, hm⟩
    obtain ⟨o, -, ho⟩ := List.mem_map.1 hm
    exact ⟨_, decode_eq_ok_iff.2 ⟨o, word_fields_iff.1 ⟨hr, ho.symm⟩, rfl⟩⟩

/-! ### CONFIGURE's assembler operands -/

/-- The number of the `OVR` bit that belongs to an operand (R88). -/
def operandBit : ConfigOperand → Nat
  | .freq _   => 0
  | .duty _ _ => 1
  | .dur k _  => 2 + k.val

theorem operandBit_eq_zero {op : ConfigOperand} : operandBit op = 0 ↔ ∃ hz, op = .freq hz := by
  cases op <;> simp [operandBit]

theorem operandBit_eq_one {op : ConfigOperand} : operandBit op = 1 ↔ ∃ n d, op = .duty n d := by
  cases op with
  | freq hz => simp [operandBit]
  | duty n d => simp [operandBit]
  | dur k us => exact iff_of_false (show 2 + k.val ≠ 1 by omega) fun ⟨_, _, h⟩ => nomatch h

theorem operandBit_eq_dur {op : ConfigOperand} (k : Fin 8) : operandBit op = 2 + k.val ↔ ∃ us, op = .dur k us := by
  cases op with
  | freq hz => exact iff_of_false (show 0 ≠ 2 + k.val by omega) fun ⟨_, h⟩ => nomatch h
  | duty n d => exact iff_of_false (show 1 ≠ 2 + k.val by omega) fun ⟨_, h⟩ => nomatch h
  | dur j us => simp [operandBit, Fin.ext_iff]

/-- An operand sets its own bit (R88, R95). -/
theorem apply_ovr (a : ConfigArgs) (op : ConfigOperand) : (op.apply a).ovr = a.ovr ||| 1#10 <<< operandBit op := by
  cases op <;> rfl

theorem apply_ovr_getLsbD (a : ConfigArgs) (op : ConfigOperand) {j : Nat} (hj : j < 10) :
    (op.apply a).ovr.getLsbD j = true ↔ a.ovr.getLsbD j = true ∨ operandBit op = j := by
  have hbit : (1#10 <<< operandBit op).getLsbD j = true ↔ operandBit op = j := by
    simp only [BitVec.getLsbD_shiftLeft, BitVec.getLsbD_one, hj, Bool.and_eq_true, Bool.not_eq_true', decide_eq_true_eq,
      decide_eq_false_iff_not, true_and]
    omega
  rw [apply_ovr, BitVec.getLsbD_or, Bool.or_eq_true, hbit]

theorem foldl_apply_ovr_getLsbD (ops : List ConfigOperand) (a : ConfigArgs) {j : Nat} (hj : j < 10) :
    (ops.foldl ConfigOperand.apply a).ovr.getLsbD j = true ↔
      a.ovr.getLsbD j = true ∨ ∃ op ∈ ops, operandBit op = j := by
  induction ops generalizing a with
  | nil => simp
  | cons op ops ih => rw [List.foldl_cons, ih, apply_ovr_getLsbD a op hj, List.exists_mem_cons_iff, or_assoc]

/-- From an empty mask, a bit is set exactly when an operand with that bit stands. -/
theorem foldl_apply_ovr_of_zero (ops : List ConfigOperand) {a : ConfigArgs} (ha : a.ovr = 0) {j : Nat} (hj : j < 10) :
    (ops.foldl ConfigOperand.apply a).ovr.getLsbD j = true ↔ ∃ op ∈ ops, operandBit op = j := by
  rw [foldl_apply_ovr_getLsbD ops a hj, ha]
  simp

/-- No operand touches the variant or the line. -/
theorem foldl_apply_frame (ops : List ConfigOperand) (a : ConfigArgs) :
    (ops.foldl ConfigOperand.apply a).variant = a.variant ∧ (ops.foldl ConfigOperand.apply a).lineId = a.lineId := by
  induction ops generalizing a with
  | nil => exact ⟨rfl, rfl⟩
  | cons op ops ih =>
    obtain ⟨hv, hl⟩ := ih (op.apply a)
    rw [List.foldl_cons, hv, hl]
    cases op <;> exact ⟨rfl, rfl⟩

/-- Settles O4: the operands are applied from an empty mask, and each bit belongs to one kind of operand. -/
theorem assemblerOperandsSetTheirOverrideBits : Obligations.AssemblerOperandsSetTheirOverrideBits := by
  intro v l ops
  obtain ⟨hv, hl⟩ := foldl_apply_frame ops { ConfigArgs.zero with variant := v, lineId := l }
  refine ⟨_, rfl, hv, hl, ?_, ?_, fun k => ?_⟩
  · rw [foldl_apply_ovr_of_zero ops rfl (by omega)]
    simp only [operandBit_eq_zero]
    exact ⟨fun ⟨_, hm, hz, e⟩ => ⟨hz, e ▸ hm⟩, fun ⟨hz, hm⟩ => ⟨_, hm, hz, rfl⟩⟩
  · rw [foldl_apply_ovr_of_zero ops rfl (by omega)]
    simp only [operandBit_eq_one]
    exact ⟨fun ⟨_, hm, n, d, e⟩ => ⟨n, d, e ▸ hm⟩, fun ⟨n, d, hm⟩ => ⟨_, hm, n, d, rfl⟩⟩
  · rw [foldl_apply_ovr_of_zero ops rfl (by omega)]
    simp only [operandBit_eq_dur]
    exact ⟨fun ⟨_, hm, us, e⟩ => ⟨us, e ▸ hm⟩, fun ⟨us, hm⟩ => ⟨_, hm, us, rfl⟩⟩

/-! ### A quoted token sequence -/

theorem hexDigit_hexChar {n : Nat} (h : n < 16) : hexDigit (hexChar n) = some n := by
  have hall : ∀ n : Fin 16, hexDigit (hexChar n) = some n.val := by decide
  exact hall ⟨n, h⟩

/-- Inside quotation marks, `\xHH` is read as the token of code 0xHH (R85). -/
theorem lexemes_escape (t : Token) (acc : List Token) (cs : List Char) :
    lexemes (.inQuotes acc) (backslash :: 'x' :: hexChar (t.toNat / 16) :: hexChar (t.toNat % 16) :: cs) =
      lexemes (.inQuotes (t :: acc)) cs := by
  have ht := t.isLt
  have hcode : BitVec.ofNat 8 (16 * (t.toNat / 16) + t.toNat % 16) = t := by
    rw [Nat.div_add_mod, BitVec.ofNat_toNat, BitVec.setWidth_eq]
  change lexemes (.afterX acc) (hexChar (t.toNat / 16) :: hexChar (t.toNat % 16) :: cs) = _
  simp only [lexemes, hexDigit_hexChar (show t.toNat / 16 < 16 by omega),
    hexDigit_hexChar (show t.toNat % 16 < 16 by omega), hcode]

/-- Inside quotation marks, the text of a token is read as that token (R85). -/
theorem lexemes_tokenText (t : Token) (acc : List Token) (cs : List Char) :
    lexemes (.inQuotes acc) (tokenText t ++ cs) = lexemes (.inQuotes (t :: acc)) cs := by
  rw [tokenText]
  split
  case isTrue h0 => subst h0; rfl
  case isFalse =>
    split
    case isTrue h1 => subst h1; rfl
    case isFalse => exact lexemes_escape t acc cs

theorem lexemes_tokenTexts (ts acc : List Token) (cs : List Char) :
    lexemes (.inQuotes acc) (ts.flatMap tokenText ++ cs) = lexemes (.inQuotes (ts.reverse ++ acc)) cs := by
  induction ts generalizing acc with
  | nil => rfl
  | cons t ts ih => rw [List.flatMap_cons, List.append_assoc, lexemes_tokenText, ih, List.reverse_cons, List.append_cons]

/-- A quoted token sequence is one lexeme, the sequence. -/
theorem lexemes_quotedText (ts : List Token) : lexemes .between (quotedText ts) = some [.quoted ts] := by
  have hopen : ∀ cs, lexemes .between (quoteMark :: cs) = withFront [] (lexemes (.inQuotes []) cs) := fun _ => rfl
  have hclose : ∀ acc, lexemes (.inQuotes acc) [quoteMark] = some [.quoted acc.reverse] := fun _ => rfl
  rw [quotedText, List.cons_append, hopen, lexemes_tokenTexts, hclose, List.append_nil, List.reverse_reverse]
  rfl

/-- The mnemonic ENCODE and a space in front of a text are one word in front of its lexemes. -/
theorem lexemes_encode (cs : List Char) :
    lexemes .between ("ENCODE ".toList ++ cs) = withFront [.word "ENCODE".toList] (lexemes .between cs) := by
  have hw : lexemes .between ("ENCODE ".toList ++ cs) =
      withFront [] (withFront [.word "ENCODE".toList] (lexemes .between cs)) := rfl
  rw [hw]
  cases lexemes .between cs <;> rfl

/-- Settles O5: the line is the word ENCODE and the quoted sequence. -/
theorem quotedTokensAssemble : Obligations.QuotedTokensAssemble := by
  intro ts
  rw [assembleLine, String.toList_ofList, lexemes_encode, lexemes_quotedText]
  rfl

/-! ### Equal duty-cycle fractions -/

/-- Rounding looks at the fraction only, not at its terms (R17). -/
theorem rhu_mul_left {k : Nat} (hk : 0 < k) (n d : Nat) : rhu (k * n) (k * d) = rhu n d := by
  rw [rhu, rhu, ← Nat.mul_div_mul_left (2 * n + d) (2 * d) hk]
  congr 1 <;> ring

theorem rhu_eq_of_cross_eq {n d n' d' : Nat} (hd : 0 < d) (hd' : 0 < d') (h : n * d' = n' * d) : rhu n d = rhu n' d' := by
  rw [← rhu_mul_left hd' n d, ← rhu_mul_left hd n' d', Nat.mul_comm d' n, h, Nat.mul_comm d n', Nat.mul_comm d' d]

/-- Settles O21: `on` and `off` round equal fractions. -/
theorem equalDutyFractionsAgree : Obligations.EqualDutyFractionsAgree := by
  intro c c' hl hl' hf h
  obtain ⟨hfreq, hnum, hden⟩ := legal_bounds hl
  obtain ⟨hfreq', hnum', hden'⟩ := legal_bounds hl'
  have hd : 0 < c.freq.toNat * c.dutyDen.toNat := Nat.mul_pos hfreq (by omega)
  have hd' : 0 < c'.freq.toNat * c'.dutyDen.toNat := Nat.mul_pos hfreq' (by omega)
  have hoff : (c.dutyDen.toNat - c.dutyNum.toNat) * c'.dutyDen.toNat =
      (c'.dutyDen.toNat - c'.dutyNum.toNat) * c.dutyDen.toNat := by
    rw [Nat.sub_mul, Nat.sub_mul, h, Nat.mul_comm c.dutyDen.toNat]
  have scale : ∀ {x x' : Nat}, x * c'.dutyDen.toNat = x' * c.dutyDen.toNat →
      1000000 * x * (c'.freq.toNat * c'.dutyDen.toNat) = 1000000 * x' * (c.freq.toNat * c.dutyDen.toNat) := by
    intro x x' hx
    rw [hf]
    linear_combination 1000000 * c'.freq.toNat * hx
  exact ⟨rhu_eq_of_cross_eq hd hd' (scale h), rhu_eq_of_cross_eq hd hd' (scale hoff)⟩

/-! ### ENCODE and its EMIT commands -/

/-- A configured block in IDLE carries a primitive's EMIT command out as the appends the primitive asks for (R145, R146). -/
theorem exec_prim (h : s.isReady) (p : Prim) :
    exec p.instr s = .next (s.runOnBuffer (appendAll (p.entries s.block.cfg))) := by
  obtain ⟨hidle, hvalid⟩ := h
  cases p with
  | mark d => rw [Prim.instr, exec, execEmitMark, whenIdle_idle hidle, whenConfigured_valid hvalid, emitMark_eq]
  | space d => rw [Prim.instr, exec, execEmitSpace, whenIdle_idle hidle, whenConfigured_valid hvalid, emitSpace_eq]

/-- An operation on the buffer that ends is stored and answered OK. -/
theorem runOnBuffer_eq_withBuffer {op : Tail → Attempt} {u : Tail} (h : op s.block.buf.tail = .done u) :
    s.runOnBuffer op = s.withBuffer (s.block.buf.store u) .ok := by
  rw [State.runOnBuffer, h]; rfl

theorem andThen_eq_done {a : Attempt} {k : Tail → Attempt} {u : Tail} (h : a.andThen k = .done u) :
    ∃ v, a = .done v ∧ k v = .done u := by
  cases a with
  | done v => exact ⟨v, rfl, h⟩
  | raised e v => cases h

/-- Where the entries of a list of primitives are appended in one run to its end, the EMIT commands in order store the same, one
after another, each with its answer OK. -/
theorem execAll_prims (ps : List Prim) {u : Tail} (hs : s.isReady)
    (h : appendAll (wave s.block.cfg ps) s.block.buf.tail = .done u) :
    execAll (ps.map Prim.instr) s = .next
      (s.emit { s.block with buf := s.block.buf.store u } (List.replicate ps.length (.response .ok .none))) := by
  induction ps generalizing s u with
  | nil =>
    obtain rfl : s.block.buf.tail = u := Attempt.done.inj h
    rw [store_same]
    exact congrArg _ (emit_block_nil s).symm
  | cons p ps ih =>
    rw [wave_cons, appendAll_append] at h
    obtain ⟨v, hv, hu⟩ := andThen_eq_done h
    have hrest := ih (s := s.withBuffer (s.block.buf.store v) .ok) hs (appendAll_shift [] hu)
    rw [List.map_cons, execAll, exec_prim hs, runOnBuffer_eq_withBuffer hv]
    dsimp only
    rw [hrest, State.withBuffer, emit_emit, emit_block, List.append_nil,
      store_store (appendAll_done hv) (appendAll_done hu)]
    rfl

/-- What an ENCODE that answers OK has done: it ran the encoder to its end and stored what it appended (R167). -/
theorem execEncode_ok {ts : List Token} (hs : s.isReady) (h : exec (.encode ts) s = .next t)
    (hlog : t.env.log = s.env.log ++ [.response .ok .none]) :
    ∃ u, encodeBody s.block.cfg ts s.block.buf.tail = .done u ∧ t = s.withBuffer (s.block.buf.store u) .ok := by
  obtain ⟨hidle, hvalid⟩ := hs
  rw [exec, execEncode, whenIdle_idle hidle, whenConfigured_valid hvalid] at h
  obtain rfl := Host.Outcome.next.inj h
  split at hlog
  case isTrue => cases List.append_cancel_left hlog
  case isFalse hb =>
    cases hop : encodeBody s.block.cfg ts s.block.buf.tail with
    | done u => exact ⟨u, rfl, by rw [if_neg hb, runOnBuffer_eq_withBuffer hop]⟩
    | raised e u =>
      rw [State.runOnBuffer, hop] at hlog
      have hst : e = .ok := by cases List.append_cancel_left hlog; rfl
      rcases (encodeBody_grows s.block.cfg ts s.block.buf.tail).2 e u hop with rfl | ⟨rfl, -⟩ | rfl <;> cases hst

/-- Settles O30: an encode of valid tokens is one run of the entries its primitives ask for, and so are the EMIT commands. -/
theorem encodeEqualsItsEmitCommands : Obligations.EncodeEqualsItsEmitCommands := by
  intro ts s t hs hv h hlog
  obtain ⟨u, hu, rfl⟩ := execEncode_ok hs h hlog
  rw [encodeBody_valid s.block.cfg hv] at hu
  exact ⟨_, execAll_prims _ hs hu, rfl, rfl⟩

/-! ### TRANSMIT_BYTES and its two commands -/

/-- What a PACK that answers tokens has done: nothing but the answer, the packed payload, which is within the bounds (R206). -/
theorem execPack_tokens {bs : List Byte} {ts : List Token} {w : Word} {v : Bool} (hidle : s.isIdle)
    (h : exec (.pack bs w v) s = .next t) (hlog : t.env.log = s.env.log ++ [.response .ok (.tokens ts)]) :
    packTooLong s.params bs w = false ∧ ts = packBody bs w v ∧ t = s.respond .ok (.tokens ts) := by
  rw [exec, execPack, whenIdle_idle hidle] at h
  obtain rfl := Host.Outcome.next.inj h
  split at hlog
  case isTrue => cases List.append_cancel_left hlog
  case isFalse hb =>
    cases List.append_cancel_left hlog
    exact ⟨by simpa using hb, rfl, if_neg hb⟩

/-- A TRANSMIT within the bounds is refused for a repeat count of 0 and accepted for any other (R222). -/
theorem exec_transmit_within {ts : List Token} (r : Word) (hs : s.isReady)
    (h : exceeds s.params.maxTokens ts.length = false) :
    exec (.transmit ts r) s =
      .next (if r = 0 then s.respond .invalidArgument .none else s.emit (s.block.accept ts r) []) := by
  rw [exec, execTransmit, whenIdle_idle hs.1, whenConfigured_valid hs.2, h]
  simp

/-- So is a TRANSMIT_BYTES, with the packed tokens (R234). -/
theorem exec_transmitBytes_within {bs : List Byte} {w : Word} (v : Bool) (r : Word) (hs : s.isReady)
    (h : packTooLong s.params bs w = false) :
    exec (.transmitBytes bs w v r) s =
      .next (if r = 0 then s.respond .invalidArgument .none else s.emit (s.block.accept (packBody bs w v) r) []) := by
  rw [exec, execTransmitBytes, whenIdle_idle hs.1, whenConfigured_valid hs.2, h]
  simp

/-- Settles O42: a payload PACK takes gives tokens TRANSMIT takes; with REPEAT 0 both commands refuse, otherwise both accept. -/
theorem transmitBytesIsPackThenTransmit : Obligations.TransmitBytesIsPackThenTransmit := by
  intro bs w v r s u ts hs h hlog
  obtain ⟨hshort, rfl, rfl⟩ := execPack_tokens hs.1 h hlog
  refine ⟨_, _, exec_transmitBytes_within v r hs hshort, exec_transmit_within r hs (packBody_within hshort v), ?_⟩
  by_cases hr : r = 0
  · rw [if_pos hr, if_pos hr]
    exact ⟨rfl, _, rfl, rfl⟩
  · rw [if_neg hr, if_neg hr]
    exact ⟨rfl, _, rfl, rfl⟩

end Sys2Proof.Machine
end

section
/-! PROOFS. The pulse buffer: its four commands (40_pulse_buffer.md R121 to R124), and where a run of primitives
stops, whether EMIT_MARK or ENCODE runs them: at an entry of 0 µs or at a full buffer (R144, R168). -/

namespace Sys2Proof.Machine

variable {s : State}

/-! ### The buffer commands -/

/-- Outside IDLE every command is answered Busy and does nothing else (R269). -/
theorem exec_outside_idle (i : Instr) (h : ¬ s.isIdle) : exec i s = .next (s.emit s.block [.response .busy .none]) := by
  cases i <;> exact congrArg Host.Outcome.next (if_neg h)

/-- Settles O14: clearing the buffer sets its length and leaves its cells. -/
theorem bufResetClearsTheLength : Obligations.BufResetClearsTheLength := by
  refine fun s => ⟨exec_outside_idle _, fun hidle => ?_⟩
  rw [exec, execBufReset, whenIdle_idle hidle, Buffer.clear, State.withBuffer]

/-- The length of a buffer as a 32-bit word is not cut off. -/
theorem len_toNat_ofNat (b : Buffer) : (BitVec.ofNat 32 b.len.val).toNat = b.len.val := by
  have hlt : b.len.val < 12000 + 1 := b.len.isLt
  rw [BitVec.toNat_ofNat, Nat.mod_eq_of_lt (by omega)]

/-- Settles O16: the length fits its word. -/
theorem bufLenAnswersTheLength : Obligations.BufLenAnswersTheLength := by
  refine fun s => ⟨exec_outside_idle _, fun hidle => ⟨_, len_toNat_ofNat s.block.buf, ?_, ?_⟩⟩
  · rw [len_toNat_ofNat]
    exact Nat.le_of_lt_succ s.block.buf.len.isLt
  · rw [exec, execBufLen, whenIdle_idle hidle, respond_eq_emit]

/-- BUF_READ in IDLE tests its index against the length. -/
theorem exec_bufRead (k : Word) (hidle : s.isIdle) : exec (.bufRead k) s =
    .next (if k.toNat < s.block.buf.len.val then s.respond .ok (.entry (s.block.buf.entry k.toNat))
      else s.respond .invalidArgument .none) := by
  rw [exec, execBufRead, whenIdle_idle hidle]

/-- Settles O17, by whether the index is below the length. -/
theorem bufReadAnswersTheEntry : Obligations.BufReadAnswersTheEntry := by
  refine fun k s => ⟨exec_outside_idle _, fun hidle hk => ?_, fun hidle hk => ?_⟩
  · rw [exec_bufRead k hidle, if_pos hk, respond_eq_emit]
  · rw [exec_bufRead k hidle, if_neg (Nat.not_lt.2 hk), respond_eq_emit]

/-- BUF_APPEND in IDLE is one append to the buffer. -/
theorem exec_bufAppend (m sp d : Word) (hidle : s.isIdle) :
    exec (.bufAppend m sp d) s = .next (s.runOnBuffer (append m sp d)) := by
  rw [exec, execBufAppend, whenIdle_idle hidle]

/-- Settles O15, by whether the entry is valid and whether there is room. -/
theorem bufAppendOutcomes : Obligations.BufAppendOutcomes := by
  refine fun m sp d s => ⟨exec_outside_idle _, fun hidle hbad => ?_, fun hidle hd hmask hfull => ?_,
    fun hidle hd hmask hroom => ?_⟩
  · have hv : ¬ (Entry.mk m sp d).valid := by
      rintro ⟨hd, hmask⟩
      dsimp only at hd hmask
      tauto
    rw [exec_bufAppend m sp d hidle, runOnBuffer_refused (append_invalid _ hv), respond_eq_emit]
  · rw [exec_bufAppend m sp d hidle, runOnBuffer_refused (append_full ⟨hd, hmask⟩ hfull), respond_eq_emit]
  · have ha := append_room (t := s.block.buf.tail) ⟨hd, hmask⟩ hroom
    have hx := appendAll_done ((appendAll_single m sp d s.block.buf.tail).trans ha)
    obtain ⟨b, hb, -, happ⟩ := runOnBuffer_done ha hx
    exact ⟨b, by rw [exec_bufAppend m sp d hidle, hb], happ⟩

/-! ### Commands that run primitives -/

/-- The command `i` runs, on the buffer, the entries the primitives `ps` ask for, before anything else. -/
def State.RunsPrims (s : State) (i : Instr) (ps : List Prim) : Prop :=
  ∃ op k, (∀ t, op t = (appendAll (wave s.block.cfg ps) t).andThen k) ∧ exec i s = .next (s.runOnBuffer op)

/-- The command `i` answers `e`, with exactly the entries `es` appended and nothing else changed. -/
def State.AnswersWith (s : State) (i : Instr) (e : Status) (es : List Entry) : Prop :=
  ∃ b, exec i s = .next (s.withBuffer b e) ∧ Appended s.block.buf b es

/-- EMIT_MARK runs its one primitive (R146). -/
theorem exec_emitMark (hs : s.isReady) (d : Word) :
    exec (.emitMark d) s = .next (s.runOnBuffer (appendAll (wave s.block.cfg [.mark d]))) := by
  rw [wave_cons, wave_nil, List.append_nil]
  exact exec_prim hs (.mark d)

theorem runsPrims_emitMark (hs : s.isReady) (d : Word) : s.RunsPrims (.emitMark d) [.mark d] :=
  ⟨_, .done, fun _ => (andThen_done_right _).symm, exec_emitMark hs d⟩

/-- An ENCODE within the bound carries out the one encode operation (R167). -/
theorem exec_encode {ts : List Token} (hs : s.isReady) (hb : exceeds s.params.maxTokens ts.length = false) :
    exec (.encode ts) s = .next (s.runOnBuffer (encodeBody s.block.cfg ts)) := by
  rw [exec, execEncode, whenIdle_idle hs.1, whenConfigured_valid hs.2, hb]
  simp

theorem runsPrims_encode {ts : List Token} {ps : List Prim} (hs : s.isReady)
    (hb : exceeds s.params.maxTokens ts.length = false) (hc : Calls s.block.cfg ts ps) : s.RunsPrims (.encode ts) ps := by
  obtain ⟨k, hk⟩ := encodeBody_calls hc
  exact ⟨_, k, hk, exec_encode hs hb⟩

section Stops

variable {i : Instr} {ps qs : List Prim} {p : Prim} {e : Status} {es : List Entry}

/-- A command whose primitives' entries stop after `es` answers what stopped them. -/
theorem State.RunsPrims.answersWith (hr : s.RunsPrims i ps) {hf : s.block.buf.tail.len.val + es.length ≤ bufCap}
    (ha : appendAll (wave s.block.cfg ps) s.block.buf.tail = .raised e (s.block.buf.tail.plus es hf))
    (hv : ∀ x ∈ es, x.valid) : s.AnswersWith i e es := by
  obtain ⟨op, k, hop, hexec⟩ := hr
  have hstop : op s.block.buf.tail = .raised e (s.block.buf.tail.plus es hf) := by rw [hop, ha, andThen_raised]
  obtain ⟨b, hb, -, happ⟩ := runOnBuffer_raised hstop (Tail.plus_extends hf hv)
  exact ⟨b, hexec.trans (congrArg _ hb), happ⟩

/-- An answer with so many entries appended that the buffer is full. -/
theorem State.AnswersWith.full (h : s.AnswersWith i e es) (hlen : s.block.buf.len.val + es.length = 12000) :
    ∃ b, exec i s = .next (s.withBuffer b e) ∧ b.len.val = 12000 ∧ Appended s.block.buf b es := by
  obtain ⟨b, hb, happ⟩ := h
  exact ⟨b, hb, happ.1.trans hlen, happ⟩

variable (hl : s.block.cfg.carrierLegal = true) (hp : ∀ q ∈ ps, q.emittable s.block.cfg)

include hl hp

theorem State.RunsPrims.startsWithZero (hr : s.RunsPrims i (ps ++ p :: qs)) (hz : p.startsWithZero s.block.cfg)
    (hf : s.block.buf.len.val + (wave s.block.cfg ps).length ≤ 12000) :
    s.AnswersWith i .invalidEntry (wave s.block.cfg ps) :=
  hr.answersWith (wave_startsWithZero qs hl hp hz hf) (wave_valid hl hp)

theorem State.RunsPrims.continuesWithZero (hr : s.RunsPrims i (ps ++ p :: qs)) (hz : p.continuesWithZero s.block.cfg)
    (hf : s.block.buf.len.val + (wave s.block.cfg ps).length < 12000) :
    s.AnswersWith i .invalidEntry
      (wave s.block.cfg ps ++ [s.block.cfg.markEntry (BitVec.ofNat 32 s.block.cfg.onTime)]) := by
  have hroom : s.block.buf.tail.len.val +
      (wave s.block.cfg ps ++ [s.block.cfg.markEntry (BitVec.ofNat 32 s.block.cfg.onTime)]).length ≤ bufCap := by
    rw [List.length_append]; exact hf
  obtain ⟨-, -, -, hm, -⟩ := continuesWithZero_entries hl hz
  exact hr.answersWith (wave_continuesWithZero qs hl hp hz hroom)
    (List.forall_mem_append.2 ⟨wave_valid hl hp, List.forall_mem_singleton.2 hm⟩)

theorem State.RunsPrims.continuesWithZero_full (hr : s.RunsPrims i (ps ++ p :: qs))
    (hz : p.continuesWithZero s.block.cfg) (hf : s.block.buf.len.val + (wave s.block.cfg ps).length = 12000) :
    ∃ b, exec i s = .next (s.withBuffer b .capacityExceeded) ∧ b.len.val = 12000 ∧
      Appended s.block.buf b (wave s.block.cfg ps) :=
  (hr.answersWith (wave_continuesWithZero_full qs hl hp hz hf) (wave_valid hl hp)).full hf

theorem State.RunsPrims.overflow (hr : s.RunsPrims i (ps ++ qs))
    (hf : 12000 < s.block.buf.len.val + (wave s.block.cfg ps).length) :
    ∃ b, exec i s = .next (s.withBuffer b .capacityExceeded) ∧ b.len.val = 12000 ∧
      Appended s.block.buf b ((wave s.block.cfg ps).take (12000 - s.block.buf.len.val)) := by
  obtain ⟨_, ha⟩ := wave_overflow (t := s.block.buf.tail) qs hl hp hf
  have hlen : s.block.buf.len.val + ((wave s.block.cfg ps).take (12000 - s.block.buf.len.val)).length = 12000 := by
    have hlt : s.block.buf.len.val < 12000 + 1 := s.block.buf.len.isLt
    rw [List.length_take]
    omega
  exact (hr.answersWith ha fun x hx => wave_valid hl hp x (List.mem_of_mem_take hx)).full hlen

end Stops

/-- A mark refused before its first append leaves the block as it is. -/
theorem exec_emitMark_refused {d : Word} {e : Status} (hs : s.isReady)
    (h : appendAll (wave s.block.cfg [.mark d]) s.block.buf.tail = .raised e s.block.buf.tail) :
    exec (.emitMark d) s = .next (s.emit s.block [.response e .none]) := by
  rw [exec_emitMark hs, runOnBuffer_refused h, respond_eq_emit]

/-- Settles O24: EMIT_MARK runs one primitive, with none before it. -/
theorem emitMarkStops : Obligations.EmitMarkStops := by
  intro d s hs hl hn
  have hr : s.RunsPrims (.emitMark d) ([] ++ .mark d :: []) := runsPrims_emitMark hs d
  have hnone : ∀ q ∈ ([] : List Prim), q.emittable s.block.cfg := List.forall_mem_nil _
  refine ⟨fun hon => ?_, fun hon hfull => ?_, fun hon hoff hroom => ?_, fun hon hoff hroom hover => ?_⟩
  · have hfits : s.block.buf.tail.len.val + (wave s.block.cfg []).length ≤ bufCap :=
      Nat.le_of_lt_succ s.block.buf.len.isLt
    exact exec_emitMark_refused hs (wave_startsWithZero [] hl hnone (.inr ⟨d, rfl, hn, hon⟩) hfits)
  · obtain ⟨es, hes⟩ := mark_entries hn
    have hv := markEntry_valid (c := s.block.cfg) (ofNat32_ne_zero hon (onTime_le hl))
    refine exec_emitMark_refused hs ?_
    rw [wave_cons, hes]
    exact appendAll_stops_full (es := []) (List.forall_mem_nil _) hfull hv
  · exact hr.continuesWithZero hl hnone ⟨d, rfl, hn, hon, hoff⟩ hroom
  · have hmark : ∀ q ∈ [Prim.mark d], q.emittable s.block.cfg :=
      List.forall_mem_singleton.2 (.inr ⟨hon, hoff⟩)
    have hwave : wave s.block.cfg [.mark d] = s.block.cfg.burst (s.block.cfg.periods d) := List.append_nil _
    have hlong : 12000 < s.block.buf.len.val + (wave s.block.cfg [.mark d]).length := by rwa [hwave, burst_length]
    rw [← hwave]
    exact State.RunsPrims.overflow (qs := []) hl hmark (runsPrims_emitMark hs d) hlong

/-- Settles O32: the primitives of the whole encode do not fit. -/
theorem encodeStopsAtCapacity : Obligations.EncodeStopsAtCapacity := by
  intro ts s hs hl hb hv hp hover
  have hr : s.RunsPrims (.encode ts) (allPrims s.block.cfg ts ++ []) :=
    runsPrims_encode hs hb (.inl ⟨hv, List.append_nil _⟩)
  exact hr.overflow hl hp hover

/-- Settles O33, by where the run of the called primitives stops. -/
theorem encodeRefusesZeroDurations : Obligations.EncodeRefusesZeroDurations := by
  intro ts ps qs p s hs hl hb hc hp
  have hr := runsPrims_encode hs hb hc
  exact ⟨hr.startsWithZero hl hp, hr.continuesWithZero hl hp, hr.continuesWithZero_full hl hp, hr.overflow hl hp⟩

end Sys2Proof.Machine
end

section
/-! PROOFS. The carrier primitives (41_carrier_primitives.md): how near the sub-pulses stay to the rounded period (R141), what
EMIT_SPACE and EMIT_MARK append (R143 to R146), and how long it lasts (R147). -/

namespace Sys2Proof.Machine

variable {s t : State} {p : Prim} {c : Cfg}

/-! ### The sub-pulses and the period -/

/-- Rounding the two parts of a sum and rounding the sum differ by at most 1 (R17, R141). -/
theorem rhu_add_rhu_near {d : Nat} (hd : 0 < d) (m n : Nat) :
    rhu m d + rhu n d ≤ rhu (m + n) d + 1 ∧ rhu (m + n) d ≤ rhu m d + rhu n d + 1 := by
  obtain ⟨-, hm, hm'⟩ := roundingIsNearestTiesUp m d hd
  obtain ⟨-, hn, hn'⟩ := roundingIsNearestTiesUp n d hd
  obtain ⟨-, hsum, hsum'⟩ := roundingIsNearestTiesUp (m + n) d hd
  have hle : d * (2 * (rhu m d + rhu n d)) < d * (2 * rhu (m + n) d + 3) := by linarith
  have hge : d * (2 * rhu (m + n) d) < d * (2 * (rhu m d + rhu n d) + 3) := by linarith
  have hle := Nat.lt_of_mul_lt_mul_left hle
  have hge := Nat.lt_of_mul_lt_mul_left hge
  omega

/-- Settles O20: `on` and `off` round the two parts of the period the duty cycle cuts it into. -/
theorem subPulsesStayNearThePeriod : Obligations.SubPulsesStayNearThePeriod := by
  intro c hl
  obtain ⟨hfreq, hnum, hden⟩ := legal_bounds hl
  have hdenPos : 0 < c.dutyDen.toNat := by omega
  have hparts : 1000000 * c.dutyNum.toNat + 1000000 * (c.dutyDen.toNat - c.dutyNum.toNat) =
      c.dutyDen.toNat * 1000000 := by omega
  have hnear := rhu_add_rhu_near (Nat.mul_pos hfreq hdenPos) (1000000 * c.dutyNum.toNat)
    (1000000 * (c.dutyDen.toNat - c.dutyNum.toNat))
  rw [hparts, Nat.mul_comm c.freq.toNat, rhu_mul_left hdenPos, Nat.mul_comm c.dutyDen.toNat] at hnear
  exact ⟨onTime_le hl, offTime_le hl, hnear⟩

/-! ### What the EMIT commands append -/

/-- A primitive whose entries are valid and fit is carried out: OK, with exactly its entries appended (R145, R146). -/
theorem answersWith_prim_entries (hs : s.isReady) (hv : ∀ e ∈ p.entries s.block.cfg, e.valid)
    (hf : s.block.buf.len.val + (p.entries s.block.cfg).length ≤ 12000) :
    s.AnswersWith p.instr .ok (p.entries s.block.cfg) := by
  obtain ⟨b, hb, -, happ⟩ := runOnBuffer_done (appendAll_fits (t := s.block.buf.tail) hv hf) (Tail.plus_extends hf hv)
  exact ⟨b, (exec_prim hs p).trans (congrArg _ hb), happ⟩

/-- EMIT_SPACE is one append of a space on the configured line (R145). -/
theorem exec_emitSpace (hs : s.isReady) (d : Word) :
    exec (.emitSpace d) s = .next (s.runOnBuffer (append 0 s.block.cfg.lineMask d)) := by
  obtain ⟨hidle, hvalid⟩ := hs
  rw [exec, execEmitSpace, whenIdle_idle hidle, whenConfigured_valid hvalid]
  rfl

/-- Settles O22, by whether the duration is 0 and whether there is room. -/
theorem emitSpaceOutcomes : Obligations.EmitSpaceOutcomes := by
  refine fun d s hs => ⟨fun hzero => ?_, fun hd hfull => ?_, fun hd hroom => ?_⟩
  · rw [exec_emitSpace hs, runOnBuffer_refused (append_invalid _ fun hv => hv.1 hzero), respond_eq_emit]
  · rw [exec_emitSpace hs, runOnBuffer_refused (append_full (spaceEntry_valid hd) hfull), respond_eq_emit]
  · exact answersWith_prim_entries (p := .space d) hs (List.forall_mem_singleton.2 (spaceEntry_valid hd)) hroom

/-- In a burst the marks stand at the even places and the spaces at the odd ones (R144). -/
theorem burst_getElem (c : Cfg) (n : Nat) : ∀ k, ∀ h : k < (c.burst n).length, (c.burst n)[k] =
    if k % 2 = 0 then c.markEntry (BitVec.ofNat 32 c.onTime) else c.spaceEntry (BitVec.ofNat 32 c.offTime) := by
  induction n with
  | zero => intro k h; exact absurd h (Nat.not_lt_zero k)
  | succ n ih =>
    intro k h
    match k with
    | 0 | 1 => rfl
    | k + 2 =>
      have hk : k < (c.burst n).length := by rw [burst_length] at h ⊢; omega
      rw [Nat.add_mod_right]
      exact ih k hk

/-- Settles O23: EMIT_MARK appends its burst, which is as long as its `2*N(d)` entries. -/
theorem emitMarkAppendsTheBurst : Obligations.EmitMarkAppendsTheBurst := by
  intro d s hs hl hp hf
  have hlen : ((Prim.mark d).entries s.block.cfg).length = 2 * s.block.cfg.periods d := burst_length _ _
  obtain ⟨b, hexec, happ⟩ := answersWith_prim_entries hs (prim_entries_valid hl hp) (hlen.symm ▸ hf)
  exact ⟨b, _, hexec, happ, hlen, burst_getElem _ _⟩

/-! ### What the EMIT commands realize -/

theorem appendAll_grows (es : List Entry) (t : Tail) : (appendAll es t).GrowsFrom t := by
  induction es generalizing t with
  | nil => exact growsFrom_done t
  | cons e es ih => exact growsFrom_andThen (append_grows _ _ _ t) ih

/-- An operation on the buffer that is answered OK has ended without a raise: no raise has the status OK. -/
theorem runOnBuffer_ok {op : Tail → Attempt} (hop : ∀ u, (op u).GrowsFrom u)
    (hlog : (s.runOnBuffer op).env.log = s.env.log ++ [.response .ok .none]) :
    ∃ u, op s.block.buf.tail = .done u := by
  cases hend : op s.block.buf.tail with
  | done u => exact ⟨u, rfl⟩
  | raised e u =>
    rw [State.runOnBuffer, hend] at hlog
    have hst : e = .ok := by cases List.append_cancel_left hlog; rfl
    rcases (hop s.block.buf.tail).2 e u hend with rfl | ⟨rfl, -⟩ | rfl <;> cases hst

/-- An EMIT command that answers OK has appended exactly the entries its primitive asks for. -/
theorem exec_prim_ok (hs : s.isReady) (h : exec p.instr s = .next t)
    (hlog : t.env.log = s.env.log ++ [.response .ok .none]) :
    Appended s.block.buf t.block.buf (p.entries s.block.cfg) := by
  obtain rfl := Host.Outcome.next.inj ((exec_prim hs p).symm.trans h)
  obtain ⟨u, hu⟩ := runOnBuffer_ok (appendAll_grows _) hlog
  rw [runOnBuffer_eq_withBuffer hu]
  exact store_appended (appendAll_done hu)

@[simp] theorem realized_nil : realized [] = 0 := rfl
@[simp] theorem realized_cons (e : Entry) (es : List Entry) : realized (e :: es) = e.dur.toNat + realized es := rfl

/-- A duration of at most 1000000 µs is not cut off in its word. -/
theorem toNat_ofNat32 {n : Nat} (h : n ≤ 1000000) : (BitVec.ofNat 32 n).toNat = n := by
  rw [BitVec.toNat_ofNat, Nat.mod_eq_of_lt (by omega)]

/-- A burst of `n` periods lasts `n * (on + off)` µs (R147). -/
theorem realized_burst (hl : c.carrierLegal = true) (n : Nat) :
    realized (c.burst n) = n * (c.onTime + c.offTime) := by
  induction n with
  | zero => rw [Nat.zero_mul]; exact realized_nil
  | succ n ih =>
    rw [burst_succ, realized_cons, realized_cons, ih, Cfg.markEntry, Cfg.spaceEntry, toNat_ofNat32 (onTime_le hl),
      toNat_ofNat32 (offTime_le hl)]
    ring

/-- Settles O25: the appended entries are the primitive's. -/
theorem realizedDurations : Obligations.RealizedDurations := by
  refine fun d s t hs hl => ⟨fun h hlog => ?_, fun h hlog => ?_⟩
  · exact ⟨_, exec_prim_ok (p := .mark d) hs h hlog, burst_length _ _, realized_burst hl _⟩
  · exact ⟨_, exec_prim_ok (p := .space d) hs h hlog, Nat.add_zero d.toNat⟩

end Sys2Proof.Machine
end

section
/-! PROOFS. The protocol encoders (42_protocol_encoders.md): what CONFIGURE writes and refuses (R160, R161), what ENCODE appends
(R163 to R168), how many entries those are and how long one RC-5 bit lasts (R169, R171), and what an encode depends on (R170). -/

namespace Sys2Proof.Machine

variable {s t : State} {a : ConfigArgs} {v : Variant}

/-! ### CONFIGURE -/

/-- CONFIGURE in IDLE refuses what names no configuration, and changes nothing (R161). -/
theorem exec_configure_refused (hidle : s.isIdle) (h : configured a = none) :
    exec (.configure a) s = .next (s.emit s.block [.response .configError .none]) := by
  rw [exec, execConfigure, whenIdle_idle hidle, h, respond_eq_emit]

/-- CONFIGURE in IDLE writes the configuration its record asks for, and CFG_VALID (R161). -/
theorem exec_configure_accepted {c : Cfg} (hidle : s.isIdle) (h : configured a = some c) :
    exec (.configure a) s = .next (s.emit { s.block with cfg := c, cfgValid := true } [.response .ok .none]) := by
  rw [exec, execConfigure, whenIdle_idle hidle, h]

theorem configured_of_refused (h : configRefused a) : configured a = none := by
  obtain ⟨-, hnone⟩ | ⟨hno, -⟩ := configured_cases a
  · exact hnone
  · exact absurd h hno

/-- A record that is not refused asks for the overridden defaults of the variant it names. -/
theorem configured_of_not_refused (h : ¬ configRefused a) :
    ∃ v, Variant.ofCode a.variant = some v ∧ configured a = some (overridden v a) := by
  obtain ⟨hyes, -⟩ | ⟨-, hsome⟩ := configured_cases a
  · exact absurd hyes h
  · exact hsome

/-- Settles O26: a record in IDLE is refused, or the overridden defaults of its variant are written, field by field. -/
theorem configureOutcomes : Obligations.ConfigureOutcomes := by
  refine fun a s => ⟨exec_outside_idle _, fun hidle href => ?_, fun hidle hok => ?_⟩
  · exact exec_configure_refused hidle (configured_of_refused href)
  · obtain ⟨v, hv, hsome⟩ := configured_of_not_refused hok
    exact ⟨overridden v a, exec_configure_accepted hidle hsome, variant_ofCode_code hv,
      rfl, rfl, rfl, rfl, rfl, rfl, rfl, rfl, rfl, rfl, rfl, rfl⟩

/-- No override of a named variant is refused. -/
theorem not_configRefused_of_ovr_zero (hovr : a.ovr = 0) (hv : a.variant = v.code) : ¬ configRefused a := by
  have hreserved : v.code ≠ 3 := by cases v <;> decide
  simpa [configRefused, hovr, hv] using hreserved

/-- With no override only the line id is the record's own. -/
theorem overridden_of_ovr_zero (v : Variant) (hovr : a.ovr = 0) :
    overridden v a = { defaults v with lineId := a.lineId } := by
  have hvariant : (defaults v).variant = v := by cases v <;> rfl
  simp [overridden, overrideDurs, ovrBit, hovr, hvariant]

/-- The code of a variant names it (R87). -/
theorem variant_ofCode_of_code (v : Variant) : Variant.ofCode v.code = some v := by
  cases v <;> decide

/-- CONFIGURE with no override writes the variant's defaults on the given line (R160). -/
theorem exec_configure_of_ovr_zero (hidle : s.isIdle) (hovr : a.ovr = 0) (hv : a.variant = v.code) :
    exec (.configure a) s = .next (s.emit
      { s.block with cfg := { defaults v with lineId := a.lineId }, cfgValid := true } [.response .ok .none]) := by
  obtain ⟨w, hw, hsome⟩ := configured_of_not_refused (not_configRefused_of_ovr_zero hovr hv)
  rw [hv, variant_ofCode_of_code] at hw
  obtain rfl : v = w := Option.some.inj hw
  rw [exec_configure_accepted hidle hsome, overridden_of_ovr_zero v hovr]

/-- Settles O27: the defaults of the three variants. -/
theorem defaultsOfEachVariant : Obligations.DefaultsOfEachVariant := fun _ _ hidle hovr =>
  ⟨exec_configure_of_ovr_zero (v := .nec) hidle hovr, exec_configure_of_ovr_zero (v := .rc5) hidle hovr,
    exec_configure_of_ovr_zero (v := .raw) hidle hovr⟩

/-! ### What ENCODE appends -/

/-- Settles O29: the encode is one run of the entries its primitives ask for, and they are valid and fit. -/
theorem encodeAppendsTheWaveform : Obligations.EncodeAppendsTheWaveform := by
  intro ts s hs hl hb hv hp hf
  have hw := wave_valid hl hp
  have hrun := (encodeBody_valid s.block.cfg hv s.block.buf.tail).trans (appendAll_fits hw hf)
  obtain ⟨b, hstore, -, happ⟩ := runOnBuffer_done hrun (Tail.plus_extends hf hw)
  exact ⟨b, (exec_encode hs hb).trans (congrArg _ hstore), happ⟩

/-- Settles O31, by whether the entries asked for before the Invalid token fit. -/
theorem encodeAbortsAtTheInvalidToken : Obligations.EncodeAbortsAtTheInvalidToken := by
  intro ts xs x s hs hl hb hv h0 h1 hp
  refine ⟨fun hf => ?_, fun hover => ?_⟩
  · have hw := wave_valid hl hp
    have hx : cls x = .invalid := cls_invalid.2 (not_or.2 ⟨h0, h1⟩)
    have hstop : encodeBody s.block.cfg (ts ++ x :: xs) s.block.buf.tail =
        .raised .invalidBitError (s.block.buf.tail.plus _ hf) := by
      rw [encodeBody_invalid s.block.cfg hv hx, appendAll_fits hw hf, andThen_done]
    obtain ⟨b, hstore, -, happ⟩ := runOnBuffer_raised hstop (Tail.plus_extends hf hw)
    exact ⟨b, (exec_encode hs hb).trans (congrArg _ hstore), happ⟩
  · have hr : s.RunsPrims (.encode (ts ++ x :: xs)) (headPrims s.block.cfg ts ++ []) :=
      runsPrims_encode hs hb (.inr ⟨ts, xs, x, rfl, hv, h0, h1, List.append_nil _⟩)
    exact hr.overflow hl hp hover

/-- An ENCODE of valid tokens that answers OK has appended exactly the entries its primitives ask for. -/
theorem execEncode_ok_appended {ts : List Token} (hs : s.isReady) (hv : validTokens ts)
    (h : exec (.encode ts) s = .next t) (hlog : t.env.log = s.env.log ++ [.response .ok .none]) :
    Appended s.block.buf t.block.buf (wave s.block.cfg (allPrims s.block.cfg ts)) := by
  obtain ⟨u, hu, rfl⟩ := execEncode_ok hs h hlog
  rw [encodeBody_valid s.block.cfg hv] at hu
  exact store_appended (appendAll_done hu)

/-! ### How many entries that is -/

theorem mark_entries_length (c : Cfg) (d : Word) : ((Prim.mark d).entries c).length = markCount c d := burst_length _ _

theorem space_entries_length (c : Cfg) (d : Word) : ((Prim.space d).entries c).length = 1 := rfl

theorem wave_singleton (c : Cfg) (p : Prim) : wave c [p] = p.entries c := by
  rw [wave_cons, wave_nil, List.append_nil]

theorem markThenSpace_length (c : Cfg) (m d : Word) : (wave c [.mark m, .space d]).length = pairCount c m := by
  rw [wave_cons, List.length_append, mark_entries_length, wave_singleton, space_entries_length, markCount, pairCount]

theorem spaceThenMark_length (c : Cfg) (d m : Word) : (wave c [.space d, .mark m]).length = pairCount c m := by
  rw [wave_cons, List.length_append, space_entries_length, wave_singleton, mark_entries_length, Nat.add_comm, markCount,
    pairCount]

/-- The entries of NEC's AGC burst (R164 step 1). -/
theorem necLeader_length {c : Cfg} (hc : c.variant = .nec) : (wave c (leaderPrims c)).length =
    if c.dur.d0 ≠ 0 ∨ c.dur.d1 ≠ 0 then pairCount c c.dur.d0 else 0 := by
  by_cases h : c.dur.d0 ≠ 0 ∨ c.dur.d1 ≠ 0
  · rw [leaderPrims, if_pos ⟨hc, h⟩, if_pos h, markThenSpace_length]
  · rw [leaderPrims, if_neg fun hand => h hand.2, if_neg h, wave_nil, List.length_nil]

/-- The entries of NEC's trailing mark and space (R164 step 3). -/
theorem necTrailer_length {c : Cfg} (hc : c.variant = .nec) : (wave c (trailerPrims c)).length =
    if c.dur.d6 ≠ 0 then markCount c c.dur.d6 + (if c.dur.d7 ≠ 0 then 1 else 0) else 0 := by
  by_cases h6 : c.dur.d6 ≠ 0
  · rw [trailerPrims, if_pos ⟨hc, h6⟩, if_pos h6, wave_cons, List.length_append, mark_entries_length]
    split
    · rw [wave_singleton, space_entries_length]
    · rw [wave_nil, List.length_nil]
  · rw [trailerPrims, if_neg fun hand => h6 hand.2, if_neg h6, wave_nil, List.length_nil]

/-- Only NEC has entries before and after the tokens. -/
theorem leader_trailer_nil {c : Cfg} (hc : c.variant ≠ .nec) : leaderPrims c = [] ∧ trailerPrims c = [] :=
  ⟨if_neg fun h => hc h.1, if_neg fun h => hc h.1⟩

/-- The tokens' entries, counted by the ones and the zeros. -/
theorem wave_tokens_length (c : Cfg) {ts : List Token} (hv : validTokens ts) :
    (wave c (ts.flatMap (tokenPrims c))).length =
      ts.count 0x31 * (wave c (tokenPrims c 0x31)).length + ts.count 0x30 * (wave c (tokenPrims c 0x30)).length := by
  induction ts with
  | nil => simp [wave_nil]
  | cons x xs ih =>
    obtain ⟨hx, hxs⟩ := List.forall_mem_cons.1 hv
    rw [List.flatMap_cons, wave_append, List.length_append, ih hxs]
    obtain rfl | rfl := hx
    · rw [List.count_cons_self, List.count_cons_of_ne (by decide)]; ring
    · rw [List.count_cons_self, List.count_cons_of_ne (by decide)]; ring

/-- The entries of a whole encode, counted by R171. -/
theorem wave_allPrims_length (c : Cfg) {ts : List Token} (hv : validTokens ts) :
    (wave c (allPrims c ts)).length = encodeCount c (ts.count 0x31) (ts.count 0x30) := by
  have hparts : (wave c (allPrims c ts)).length = (wave c (leaderPrims c)).length +
      (wave c (ts.flatMap (tokenPrims c))).length + (wave c (trailerPrims c)).length := by
    rw [allPrims, headPrims, wave_append, wave_append, List.length_append, List.length_append]
  rw [hparts, wave_tokens_length c hv]
  cases hc : c.variant with
  | nec =>
    simp [necLeader_length hc, necTrailer_length hc, encodeCount, tokenPrims, hc, markThenSpace_length, Nat.add_assoc]
  | rc5 =>
    obtain ⟨hleader, htrailer⟩ := leader_trailer_nil (c := c) (by simp [hc])
    simp [hleader, htrailer, encodeCount, tokenPrims, hc, wave_nil, markThenSpace_length, spaceThenMark_length]
  | raw =>
    obtain ⟨hleader, htrailer⟩ := leader_trailer_nil (c := c) (by simp [hc])
    simp [hleader, htrailer, encodeCount, tokenPrims, hc, wave_nil, wave_singleton, mark_entries_length,
      space_entries_length]

/-- Settles O34: the appended entries are counted. -/
theorem encodeEntryCounts : Obligations.EncodeEntryCounts := by
  intro ts s t hs hv h hlog
  obtain ⟨hlen, -, -⟩ := execEncode_ok_appended hs hv h hlog
  rw [hlen, wave_allPrims_length s.block.cfg hv]

/-! ### How long one RC-5 bit lasts -/

theorem realized_append (es fs : List Entry) : realized (es ++ fs) = realized es + realized fs := by
  simp [realized]

/-- One RC-5 bit is one space and one mark of its duration, in the order of its value (R165). -/
theorem allPrims_rc5_bit {c : Cfg} {x : Token} {d : Word} (hc : c.variant = .rc5)
    (hx : (x = 0x31 ∧ d = c.dur.d0) ∨ (x = 0x30 ∧ d = c.dur.d1)) :
    allPrims c [x] = [.space d, .mark d] ∨ allPrims c [x] = [.mark d, .space d] := by
  obtain ⟨rfl, rfl⟩ | ⟨rfl, rfl⟩ := hx
  · left; simp [allPrims, headPrims, leaderPrims, trailerPrims, tokenPrims, hc]
  · right; simp [allPrims, headPrims, leaderPrims, trailerPrims, tokenPrims, hc]

/-- Settles O36: a space and a mark take and last the same in either order. -/
theorem rc5BitsTakeEqualTime : Obligations.Rc5BitsTakeEqualTime := by
  intro x d s t hs hl hc hx h hlog
  have hv : validTokens [x] := List.forall_mem_singleton.2 (by tauto)
  refine ⟨_, execEncode_ok_appended hs hv h hlog, ?_⟩
  have hspace : realized ((Prim.space d).entries s.block.cfg) = d.toNat := Nat.add_zero d.toNat
  have hmark : realized ((Prim.mark d).entries s.block.cfg) =
      s.block.cfg.periods d * (s.block.cfg.onTime + s.block.cfg.offTime) := realized_burst hl _
  obtain hps | hps := allPrims_rc5_bit hc hx <;>
    rw [hps, wave_cons, wave_cons, wave_nil, List.append_nil, List.length_append, realized_append,
      mark_entries_length, space_entries_length, hspace, hmark, markCount]
  · exact ⟨Nat.add_comm _ _, Nat.add_comm _ _⟩
  · exact ⟨rfl, rfl⟩

/-! ### What an encode depends on -/

/-- One operation on two buffers that agree on what can be read leaves buffers that agree so, and the same response. -/
theorem runOnBuffer_alike {op : Tail → Attempt} (hop : ∀ u, (op u).GrowsFrom u) (h : s.block.buf.Alike t.block.buf) :
    (s.runOnBuffer op).block.buf.Alike (t.runOnBuffer op).block.buf ∧
      ∃ o, (s.runOnBuffer op).env.log = s.env.log ++ [o] ∧ (t.runOnBuffer op).env.log = t.env.log ++ [o] := by
  obtain ⟨⟨es, hx⟩, -⟩ := hop s.block.buf.tail
  rw [State.runOnBuffer, State.runOnBuffer, ← h.tail]
  exact ⟨h.store hx, _, rfl, rfl⟩

/-- An ENCODE beyond the bound is refused (R167). -/
theorem exec_encode_tooLong {ts : List Token} (hs : s.isReady) (hb : exceeds s.params.maxTokens ts.length = true) :
    exec (.encode ts) s = .next (s.respond .invalidArgument .none) := by
  rw [exec, execEncode, whenIdle_idle hs.1, whenConfigured_valid hs.2, if_pos hb]

/-- Settles O35, by whether the tokens exceed the bound the two states share. -/
theorem encodeIsDeterministic : Obligations.EncodeIsDeterministic := by
  intro ts s s' t t' hs hs' hcfg hlen hentry hparams h h'
  have halike : s.block.buf.Alike s'.block.buf := ⟨hlen, hentry⟩
  cases hb : exceeds s.params.maxTokens ts.length with
  | true =>
    obtain rfl := Host.Outcome.next.inj ((exec_encode_tooLong hs hb).symm.trans h)
    obtain rfl := Host.Outcome.next.inj ((exec_encode_tooLong hs' (hparams ▸ hb)).symm.trans h')
    exact ⟨halike.entries, _, rfl, rfl⟩
  | false =>
    obtain rfl := Host.Outcome.next.inj ((exec_encode hs hb).symm.trans h)
    obtain rfl := Host.Outcome.next.inj ((exec_encode hs' (hparams ▸ hb)).symm.trans h')
    rw [← hcfg]
    obtain ⟨hbuf, hout⟩ := runOnBuffer_alike (encodeBody_grows s.block.cfg ts) halike
    exact ⟨hbuf.entries, hout⟩

end Sys2Proof.Machine
end

section
/-! PROOFS. The bit packer (43_bit_packer.md): how many bits of a byte a bit-width mask asks for (R200), what the packed payload
consists of (R205), and the two commands that pack (R206, R234). -/

namespace Sys2Proof.Machine

variable {s : State} {bs : List Byte} {w : Word}

/-! ### The width -/

/-- Settles O37: the width is the least exponent whose power of two reaches the mask. -/
theorem bitsPerByteIsTheLeastPower : Obligations.BitsPerByteIsTheLeastPower := by
  refine fun w => ⟨fun hw => ?_, fun _ => ⟨?_, fun k => (pow_lt_iff w k).2⟩⟩
  · rw [bitsPerByte_eq_clog, Nat.clog_of_right_le_one hw]
  · exact Nat.not_lt.1 (mt (pow_lt_iff w _).1 (Nat.lt_irrefl _))

/-! ### The tokens -/

theorem validTokens_lsbFirst (n : Nat) (b : Byte) : validTokens (lsbFirst n b) := by
  refine List.forall_mem_map.2 fun k _ => ?_
  rw [bitToken]
  cases b.getLsbD k
  · exact .inl rfl
  · exact .inr rfl

theorem validTokens_msbFirst (n : Nat) (b : Byte) : validTokens (msbFirst n b) :=
  fun x hx => validTokens_lsbFirst n b x (List.mem_reverse.1 hx)

/-- Every packed token is a bit of one of the bytes, in either order. -/
theorem validTokens_packBody (bs : List Byte) (w : Word) (v : Bool) : validTokens (packBody bs w v) := by
  intro x hx
  rw [packBody_eq] at hx
  obtain ⟨b, -, hxb⟩ := List.mem_flatMap.1 hx
  cases v
  · exact validTokens_msbFirst _ b x hxb
  · exact validTokens_lsbFirst _ b x hxb

/-- Settles O39, from the bits of the bytes. -/
theorem packedTokensAreValid : Obligations.PackedTokensAreValid :=
  fun bs w v => ⟨packBody_length bs w v, validTokens_packBody bs w v⟩

/-! ### The commands that pack -/

theorem packTooLong_eq_false (hdata : exceeds s.params.maxDataBytes bs.length = false)
    (htoks : exceeds s.params.maxTokens (bs.length * bitsPerByte w) = false) : packTooLong s.params bs w = false :=
  Bool.or_eq_false_iff.2 ⟨hdata, htoks⟩

/-- A PACK within the bounds answers the packed payload (R206). -/
theorem exec_pack_within (v : Bool) (hidle : s.isIdle) (h : packTooLong s.params bs w = false) :
    exec (.pack bs w v) s = .next (s.respond .ok (.tokens (packBody bs w v))) := by
  rw [exec, execPack, whenIdle_idle hidle, h, if_neg Bool.false_ne_true]

/-- Settles O38: the packed payload is its closed form. -/
theorem packAnswersTheTokens : Obligations.PackAnswersTheTokens := by
  refine fun bs w v s => ⟨exec_outside_idle _, fun hidle hdata htoks => ?_⟩
  rw [exec_pack_within v hidle (packTooLong_eq_false hdata htoks), respond_eq_emit, packBody_eq]

/-- Acceptance puts nothing out, and leaves of the surroundings everything as it was. -/
theorem emit_accept_nil (s : State) (ts : List Token) (r : Word) : s.emit (s.block.accept ts r) [] =
    { s with block := s.block.accept ts r } := by
  rw [State.emit, List.append_nil]

/-- Settles O41: within the bounds and with a repeat count the packed payload is latched, which is its closed form. -/
theorem transmitBytesIsAccepted : Obligations.TransmitBytesIsAccepted := by
  intro bs w v r s hs hr hdata htoks
  rw [exec_transmitBytes_within v r hs (packTooLong_eq_false hdata htoks), if_neg hr, emit_accept_nil, packBody_eq,
    Block.accept, Buffer.clear]

end Sys2Proof.Machine
end

section
/-! PROOFS. The transmission controller's answers (44_transmission.md): the rows of R223 to R232, each with what it makes of
the block and what it puts out, and from them that every exit releases what was opened (R237). -/

namespace Sys2Proof.Machine

variable {s t : State} {b c : Block} {d : Draw} {out : List Output}

/-! ### What a phase does with an answer, row by row -/

/-- The rows of R223 to R232: what the block in a phase that waits for an answer makes of the draw `d`, and puts out. -/
inductive Block.Answered (b : Block) (d : Draw) : Block → List Output → Prop
  | initOk (hp : b.ctrl.phase = .tInit) (hd : d.ok = true) :
    b.Answered d { b with ctrl := { b.ctrl with session := true, phase := .tLine } } [.call .initBackend .ok]
  | initErr (hp : b.ctrl.phase = .tInit) (hd : d.ok = false) :
    b.Answered d (b.failTo .backendInitError .idle) [.call .initBackend .err, .response .backendInitError .none]
  | lineOk (hp : b.ctrl.phase = .tLine) (hd : d.ok = true) :
    b.Answered d (b.goTo .tEncode) [.call (.configureLine b.cfg.lineId true) .ok]
  | lineErr (hp : b.ctrl.phase = .tLine) (hd : d.ok = false) :
    b.Answered d (b.failTo .backendInitError .tTerm) [.call (.configureLine b.cfg.lineId true) .err]
  | clearOk (hp : b.ctrl.phase = .tClear) (hd : d.ok = true) :
    b.Answered d (b.goTo .tStage) [.call .clearStaged .ok]
  | clearErr (hp : b.ctrl.phase = .tClear) (hd : d.ok = false) :
    b.Answered d (b.failTo .backendTransmitError .tTerm) [.call .clearStaged .err]
  | stageOk (hp : b.ctrl.phase = .tStage) (hd : d.ok = true) :
    b.Answered d (b.goTo .tCreate) [.call (.stage b.buf.entries) (.okCount d.count)]
  | stageErr (hp : b.ctrl.phase = .tStage) (hd : d.ok = false) :
    b.Answered d (b.failTo .backendTransmitError .tTerm) [.call (.stage b.buf.entries) .err]
  | createOk (hp : b.ctrl.phase = .tCreate) (hd : d.ok = true) :
    b.Answered d { b with ctrl := { b.ctrl with handle := d.handle, handleHeld := true, phase := .tStart } }
      [.call .createHandle (.okHandle d.handle)]
  | createErr (hp : b.ctrl.phase = .tCreate) (hd : d.ok = false) :
    b.Answered d (b.failTo .backendTransmitError .tTerm) [.call .createHandle .err]
  | startOk (hp : b.ctrl.phase = .tStart) (hd : d.ok = true) :
    b.Answered d (b.goTo .tPoll) [.call (.start b.ctrl.handle) .ok]
  | startErr (hp : b.ctrl.phase = .tStart) (hd : d.ok = false) :
    b.Answered d (b.failTo .backendTransmitError .tDelete) [.call (.start b.ctrl.handle) .err]
  | pollBusy (hp : b.ctrl.phase = .tPoll) (hd : d.busy = true) :
    b.Answered d b [.call (.isBusy b.ctrl.handle) (.busy true)]
  | pollIdle (hp : b.ctrl.phase = .tPoll) (hd : d.busy = false) :
    b.Answered d (b.goTo .tDelete) [.call (.isBusy b.ctrl.handle) (.busy false)]
  | delete (hp : b.ctrl.phase = .tDelete) :
    b.Answered d { b with ctrl := { b.ctrl with handleHeld := false, phase := .tTerm } }
      [.call (.deleteHandle b.ctrl.handle) .done]
  | term (hp : b.ctrl.phase = .tTerm) :
    b.Answered d { b with ctrl := { b.ctrl with session := false, phase := .idle } }
      [.call .terminate .done, .response b.ctrl.pend .none]

/-- Going on to the phase the block is in changes nothing. -/
theorem goTo_self {p : Phase} (h : b.ctrl.phase = p) : b.goTo p = b := by
  subst h; rfl

/-- The phases put out the rows' outputs and leave the rows' blocks. -/
theorem Block.Answered.phaseStep_eq (h : b.Answered d c out) : phaseStep d b = (c, out) := by
  obtain ⟨ok, count, handle, busy⟩ := d
  cases h
  case delete hp | term hp => rw [phaseStep, hp]; rfl
  case pollBusy hp hd =>
    obtain rfl : busy = true := hd
    rw [phaseStep, hp]
    exact congrArg (·, _) (goTo_self hp)
  case pollIdle hp hd =>
    obtain rfl : busy = false := hd
    rw [phaseStep, hp]; rfl
  all_goals
    rename_i hp hd
    change ok = _ at hd
    subst hd
    rw [phaseStep, hp]; rfl

theorem Block.Answered.not_tEncode (h : b.Answered d c out) : b.ctrl.phase ≠ .tEncode := by
  cases h <;> simp [*]

/-- A row for each value of the part of the draw a phase looks at. -/
theorem exists_answered_of_bool {x : Bool} {c c' : Block} {out out' : List Output} (htrue : x = true → b.Answered d c out)
    (hfalse : x = false → b.Answered d c' out') : ∃ c out, b.Answered d c out := by
  cases x with
  | true => exact ⟨_, _, htrue rfl⟩
  | false => exact ⟨_, _, hfalse rfl⟩

/-- Every phase that waits for an answer has a row for the draw. -/
theorem exists_answered (d : Draw) (hidle : b.ctrl.phase ≠ .idle) (henc : b.ctrl.phase ≠ .tEncode) :
    ∃ c out, b.Answered d c out := by
  cases hp : b.ctrl.phase with
  | idle => exact absurd hp hidle
  | tEncode => exact absurd hp henc
  | tInit => exact exists_answered_of_bool (.initOk hp) (.initErr hp)
  | tLine => exact exists_answered_of_bool (.lineOk hp) (.lineErr hp)
  | tClear => exact exists_answered_of_bool (.clearOk hp) (.clearErr hp)
  | tStage => exact exists_answered_of_bool (.stageOk hp) (.stageErr hp)
  | tCreate => exact exists_answered_of_bool (.createOk hp) (.createErr hp)
  | tStart => exact exists_answered_of_bool (.startOk hp) (.startErr hp)
  | tPoll => exact exists_answered_of_bool (.pollBusy hp) (.pollIdle hp)
  | tDelete => exact ⟨_, _, .delete hp⟩
  | tTerm => exact ⟨_, _, .term hp⟩

/-! ### The ledger -/

/-- From block `b` to block `c` with the outputs `out`, what is opened is what is closed and what the block holds more. -/
structure Block.KeepsLedger (b c : Block) (out : List Output) : Prop where
  sessions : out.countP Output.opensSession + b.ctrl.session.toNat =
    out.countP Output.closesSession + c.ctrl.session.toNat
  handles : out.countP Output.opensHandle + b.ctrl.handleHeld.toNat =
    out.countP Output.closesHandle + c.ctrl.handleHeld.toNat

theorem State.LedgerBalanced.emit (h : s.LedgerBalanced) (hk : s.block.KeepsLedger c out) :
    (s.emit c out).LedgerBalanced := by
  obtain ⟨hs, hh⟩ := h
  have hsessions := hk.sessions
  have hhandles := hk.handles
  constructor <;> rw [emit_log, emit_block, List.countP_append, List.countP_append] <;> omega

/-- With nothing put out, the session and the handle held stay. -/
theorem keepsLedger_nil (hs : c.ctrl.session = b.ctrl.session) (hh : c.ctrl.handleHeld = b.ctrl.handleHeld) :
    b.KeepsLedger c [] := ⟨by rw [hs]; rfl, by rw [hh]; rfl⟩

/-- A response opens and closes nothing. -/
theorem keepsLedger_response {st : Status} {v : Value} (h : c.ctrl = b.ctrl) :
    b.KeepsLedger c [.response st v] := ⟨by rw [h]; rfl, by rw [h]; rfl⟩

theorem exec_ledgerBalanced {i : Instr} (hl : s.LedgerBalanced) (h : exec i s = .next t) : t.LedgerBalanced := by
  rcases exec_cases h with ⟨st, v, rfl, -⟩ | ⟨-, -, ⟨op, -, rfl⟩, -⟩ | ⟨-, -, rfl⟩ | ⟨-, a, c, -, -, rfl⟩ |
    ⟨-, toks, rep, -, rfl, -⟩
  case inr.inr.inr.inr => exact hl.emit (keepsLedger_nil rfl rfl)
  all_goals exact hl.emit (keepsLedger_response rfl)

theorem phaseEncode_keepsLedger (b : Block) : b.KeepsLedger (phaseEncode b) [] := by
  rcases phaseEncode_cases b with ⟨-, h⟩ | ⟨-, h⟩ <;> rw [h] <;> exact keepsLedger_nil rfl rfl

/-- Each row opens what its phase does not hold yet, or closes what it holds, or neither. -/
theorem Block.Answered.keepsLedger (h : b.Answered d c out) (hs : b.ctrl.session = b.ctrl.phase.holdsSession)
    (hh : b.ctrl.handleHeld = b.ctrl.phase.holdsHandle) : b.KeepsLedger c out := by
  cases h with
  | initOk hp | term hp =>
    rw [hp] at hs
    exact ⟨by rw [hs]; rfl, rfl⟩
  | createOk hp | delete hp =>
    rw [hp] at hh
    exact ⟨rfl, by rw [hh]; rfl⟩
  | _ => exact ⟨rfl, rfl⟩

theorem phaseStep_keepsLedger {p : Params} (d : Draw) (hg : b.Good p) (henc : b.ctrl.phase ≠ .tEncode) :
    b.KeepsLedger (phaseStep d b).1 (phaseStep d b).2 := by
  by_cases hidle : b.ctrl.phase = .idle
  · rw [phaseStep, hidle]
    exact keepsLedger_nil rfl rfl
  · obtain ⟨c, out, hrow⟩ := exists_answered d hidle henc
    rw [hrow.phaseStep_eq]
    exact hrow.keepsLedger hg.ctrl.session hg.ctrl.handle

/-- Settles O53, by the cases of what a step can do. -/
theorem everyStepKeepsTheLedger : Obligations.EveryStepKeepsTheLedger := by
  intro s t hinv hl hn h
  have hg := inv_iff.1 hinv
  rcases step_cases h with ⟨c, rest, -, ⟨i, -, he⟩ | ⟨-, rfl⟩⟩ | ⟨rest, hr, -⟩ | ⟨-, rest, rfl⟩ | ⟨-, -, rest, rfl⟩ |
    ⟨-, henc, d, rest, rfl⟩
  · exact exec_ledgerBalanced (s := s.withInbox rest) hl he
  · exact State.LedgerBalanced.emit (s := s.withInbox rest) hl (keepsLedger_response rfl)
  · exact absurd (by rw [hr]; rfl) hn
  · exact hl
  · exact State.LedgerBalanced.emit (s := s.withInbox rest) hl (phaseEncode_keepsLedger s.block)
  · exact State.LedgerBalanced.emit (s := s.withInbox rest) hl (phaseStep_keepsLedger d hg henc)

end Sys2Proof.Machine
end

section
/-! PROOFS. The steps of the transmission controller (44_transmission.md): the acceptance, one step for each answer, waiting and
polling; T_ENCODE, to its end or to its first error; and whole transmissions as chains of these steps (R240). -/

namespace Sys2Proof.Machine

variable {s t : State} {b c : Block} {d : Draw} {out : List Output} {rest : List Event}

/-! ### The acceptance -/

/-- Settles O40. -/
theorem transmitIsAccepted : Obligations.TransmitIsAccepted := by
  intro ts r s hs hr ht
  rw [exec_transmit_within r hs ht, if_neg hr, emit_accept_nil, Block.accept, Buffer.clear]

/-! ### One step for each answer -/

/-- An answer to the pending request is taken, and the block does what the row says. -/
theorem Block.Answered.step_eq (h : s.block.Answered d c out) (hi : s.env.inbox = .answer d :: rest) :
    step s = .next ((s.withInbox rest).emit c out) := by
  rw [step_of_answer hi, if_neg h.not_tEncode, State.answerStep, withInbox_block, h.phaseStep_eq]

/-- Settles O43, row by row. -/
theorem openingPhases : Obligations.OpeningPhases := fun _ _ _ hi =>
  ⟨fun hp hd => (Block.Answered.initOk hp hd).step_eq hi, fun hp hd => (Block.Answered.initErr hp hd).step_eq hi,
    fun hp hd => (Block.Answered.lineOk hp hd).step_eq hi, fun hp hd => (Block.Answered.lineErr hp hd).step_eq hi⟩

theorem entries_length (b : Buffer) : b.entries.length = b.len.val := by simp [Buffer.entries]

theorem entries_getElem (b : Buffer) (k : Nat) (h : k < b.entries.length) : b.entries[k] = b.entry k := by
  simp [Buffer.entries]

/-- Settles O44, row by row. -/
theorem handOffPhases : Obligations.HandOffPhases := by
  intro s d rest hi
  refine ⟨fun hp => ?_, fun hp => ⟨_, entries_length s.block.buf, entries_getElem s.block.buf, ?_⟩, fun hp => ?_,
    fun hp => ?_⟩ <;> cases hd : d.ok
  · exact (Block.Answered.clearErr hp hd).step_eq hi
  · exact (Block.Answered.clearOk hp hd).step_eq hi
  · exact (Block.Answered.stageErr hp hd).step_eq hi
  · exact (Block.Answered.stageOk hp hd).step_eq hi
  · exact (Block.Answered.createErr hp hd).step_eq hi
  · exact (Block.Answered.createOk hp hd).step_eq hi
  · exact (Block.Answered.startErr hp hd).step_eq hi
  · exact (Block.Answered.startOk hp hd).step_eq hi

/-- Settles O45, row by row. -/
theorem closingPhases : Obligations.ClosingPhases := by
  intro s d rest hi
  refine ⟨fun hp => ?_, fun hp => (Block.Answered.delete hp).step_eq hi, fun hp => (Block.Answered.term hp).step_eq hi⟩
  cases hd : d.busy with
  | true => rw [(Block.Answered.pollBusy hp hd).step_eq hi, if_pos rfl, ← hp]
  | false => exact (Block.Answered.pollIdle hp hd).step_eq hi

/-! ### Nothing arrives any more -/

/-- Settles O51, by induction on the number of steps. -/
theorem noAnswerLeavesTheBlockWaiting : Obligations.NoAnswerLeavesTheBlockWaiting := by
  intro s henc hi hst n
  have hwait : step s = .next s := by rw [step_of_empty hi, State.quietStep, if_neg henc, hst]
  induction n with
  | zero => rfl
  | succ n ih => rw [runSteps_succ hwait, ih]

/-- The backend's standing answer is taken as any other. -/
theorem Block.Answered.step_standing (h : s.block.Answered d c out) (hi : s.env.inbox = [])
    (hst : s.env.standing = some d) : step s = .next (s.emit c out) := by
  rw [step_of_empty hi, State.quietStep, if_neg h.not_tEncode, hst]
  dsimp only
  rw [State.answerStep, h.phaseStep_eq]

/-- Each of `n` polls answered busy puts out its call and leaves the block. -/
theorem runSteps_busy (hp : s.block.ctrl.phase = .tPoll) (hi : s.env.inbox = []) (hst : s.env.standing = some d)
    (hd : d.busy = true) (n : Nat) : runSteps n s =
      .next (s.emit s.block (List.replicate n (.call (.isBusy s.block.ctrl.handle) (.busy true)))) := by
  induction n generalizing s with
  | zero => exact congrArg _ (emit_block_nil s).symm
  | succ n ih =>
    rw [runSteps_succ ((Block.Answered.pollBusy hp hd).step_standing hi hst), ih (s := s.emit s.block _) hp hi hst,
      emit_emit]
    rfl

/-- Settles O50. -/
theorem pollingHasNoBound : Obligations.PollingHasNoBound :=
  fun _ _ hp hi hst hd n => ⟨_, runSteps_busy hp hi hst hd n, rfl, rfl⟩

/-! ### T_ENCODE -/

/-- The internal step takes of the inbox a turn or nothing. -/
theorem step_of_encodesNext (h : s.encodesNext) : ∃ rest, step s = .next (s.withInbox rest).encodeStep := by
  obtain ⟨hp, hi | ⟨d, rest, hi⟩ | ⟨rest, hi⟩⟩ := h
  · exact ⟨s.env.inbox, by rw [step_of_empty hi, State.quietStep, if_pos hp, withInbox_self]⟩
  · exact ⟨s.env.inbox, by rw [step_of_answer hi, if_pos hp, withInbox_self]⟩
  · exact ⟨rest, by rw [step_of_turn hi, if_pos hp]⟩

/-- Where T_ENCODE runs, it makes of the block what its definition says, and puts nothing out. -/
theorem exists_step_phaseEncode (h : s.encodesNext) :
    ∃ t, step s = .next t ∧ t.env.log = s.env.log ∧ t.block = phaseEncode s.block := by
  obtain ⟨rest, hs⟩ := step_of_encodesNext h
  exact ⟨_, hs, List.append_nil _, rfl⟩

theorem phaseEncode_done {u : Tail} (h : b.encodeAll = .done u) :
    phaseEncode b = { b with buf := b.buf.store u }.goTo .tClear := by
  rw [phaseEncode, h]

theorem phaseEncode_raised {e : Status} {u : Tail} (h : b.encodeAll = .raised e u) :
    phaseEncode b = { b with buf := b.buf.store u }.failTo e .tTerm := by
  rw [phaseEncode, h]

/-- The repeats over valid tokens are one run of as many copies of the waveform (R239). -/
theorem encodeAll_valid (h : validTokens b.ctrl.tokens) : b.encodeAll =
    appendAll (List.replicate b.ctrl.repeatCount.toNat (wave b.cfg (allPrims b.cfg b.ctrl.tokens))).flatten b.buf.tail :=
  encodeRepeats_valid b.cfg h _ _

theorem copies_valid {es : List Entry} (n : Nat) (h : ∀ e ∈ es, e.valid) :
    ∀ e ∈ (List.replicate n es).flatten, e.valid := by
  intro e he
  obtain ⟨l, hl, hel⟩ := List.mem_flatten.1 he
  exact h e (List.eq_of_mem_replicate hl ▸ hel)

theorem copies_length (n : Nat) (es : List Entry) : (List.replicate n es).flatten.length = n * es.length := by simp

/-- Valid tokens whose copies are emittable and fit are encoded to the end, and exactly the copies appended (R225, R239). -/
theorem encodeAll_fits (hl : b.cfg.carrierLegal = true) (hv : validTokens b.ctrl.tokens)
    (hp : ∀ p ∈ allPrims b.cfg b.ctrl.tokens, p.emittable b.cfg)
    (hf : b.buf.len.val + b.ctrl.repeatCount.toNat * (wave b.cfg (allPrims b.cfg b.ctrl.tokens)).length ≤ 12000) :
    ∃ u, b.encodeAll = .done u ∧ Appended b.buf (b.buf.store u)
      (List.replicate b.ctrl.repeatCount.toNat (wave b.cfg (allPrims b.cfg b.ctrl.tokens))).flatten := by
  rw [← copies_length] at hf
  have hw := copies_valid b.ctrl.repeatCount.toNat (wave_valid hl hp)
  exact ⟨_, (encodeAll_valid hv).trans (appendAll_fits hw hf), store_appended (Tail.plus_extends hf hw)⟩

/-- Settles O46. -/
theorem encodePhaseWritesIdenticalCopies : Obligations.EncodePhaseWritesIdenticalCopies := by
  intro s hs hl hv hp hf
  obtain ⟨u, hu, happ⟩ := encodeAll_fits hl hv hp hf
  obtain ⟨t, ht, hlog, hb⟩ := exists_step_phaseEncode hs
  exact ⟨_, t, ht, hlog, hb.trans (phaseEncode_done hu), happ⟩

section Aborts

variable {e : Status} {u : Tail} {es : List Entry} {ps qs : List Prim} {p : Prim}

/-- What an operation on the buffer appended since it began is what its tail holds. -/
theorem extends_added (h : b.buf.tail.Extends u es) : u.added.reverse = es := by
  rw [h.2.1, Buffer.tail, List.append_nil, List.reverse_reverse]

/-- A raise of T_ENCODE's repeats is one of three statuses, at a full buffer if it is `CapacityExceeded`, and ends the phase
(R225, R272). -/
theorem encodeAborts_of_raised (hs : s.encodesNext) (h : s.block.encodeAll = .raised e u) :
    (e = .invalidBitError ∨ e = .invalidEntry ∨ e = .capacityExceeded) ∧ s.encodeAborts e u.added.reverse := by
  obtain ⟨es, hx⟩ := encodeAll_extends s.block
  rw [h, tail_raised] at hx
  have hstatus := (encodeRepeats_grows s.block.cfg s.block.ctrl.tokens s.block.ctrl.repeatCount.toNat
    s.block.buf.tail).2 e u h
  obtain ⟨t, ht, hlog, hb⟩ := exists_step_phaseEncode hs
  refine ⟨by tauto, _, t, ht, hlog, hb.trans (phaseEncode_raised h), extends_added hx ▸ store_appended hx, ?_⟩
  rintro rfl
  obtain h | ⟨-, hfull⟩ | h := hstatus
  · cases h
  · exact hfull
  · cases h

/-- A raise that leaves the entries `es` appended aborts with them. -/
theorem encodeAborts_of_raised_plus {hf : s.block.buf.tail.len.val + es.length ≤ bufCap} (hs : s.encodesNext)
    (h : s.block.encodeAll = .raised e (s.block.buf.tail.plus es hf)) : s.encodeAborts e es := by
  have habort := (encodeAborts_of_raised hs h).2
  have hadded : (s.block.buf.tail.plus es hf).added.reverse = es := by simp [Tail.plus, Buffer.tail]
  rwa [hadded] at habort

/-- With at least one repeat, the first one's encode comes first. -/
theorem encodeAll_first (hr : b.ctrl.repeatCount ≠ 0) :
    ∃ n, b.encodeAll = encodeRepeats b.cfg b.ctrl.tokens (n + 1) b.buf.tail := by
  have hpos : b.ctrl.repeatCount.toNat ≠ 0 := fun h => hr (BitVec.eq_of_toNat_eq h)
  obtain ⟨n, hn⟩ := Nat.exists_eq_succ_of_ne_zero hpos
  exact ⟨n, by rw [Block.encodeAll, hn]⟩

/-- Where the run of the called primitives stops in the first repeat, T_ENCODE stops. -/
theorem encodeAborts_of_calls {hf : s.block.buf.tail.len.val + es.length ≤ bufCap} (hs : s.encodesNext)
    (hr : s.block.ctrl.repeatCount ≠ 0) (hc : Calls s.block.cfg s.block.ctrl.tokens ps)
    (h : appendAll (wave s.block.cfg ps) s.block.buf.tail = .raised e (s.block.buf.tail.plus es hf)) :
    s.encodeAborts e es := by
  obtain ⟨n, hn⟩ := encodeAll_first hr
  obtain ⟨k, hk⟩ := encodeRepeats_calls hc n
  exact encodeAborts_of_raised_plus hs (by rw [hn, hk, h, andThen_raised])

/-- An Invalid token stops the first repeat. -/
theorem encodeAborts_invalidToken {ts xs : List Token} {x : Token} (hs : s.encodesNext)
    (hl : s.block.cfg.carrierLegal = true) (hr : s.block.ctrl.repeatCount ≠ 0)
    (htoks : s.block.ctrl.tokens = ts ++ x :: xs) (hv : validTokens ts) (h0 : x ≠ 0x30) (h1 : x ≠ 0x31)
    (hp : ∀ p ∈ headPrims s.block.cfg ts, p.emittable s.block.cfg)
    (hf : s.block.buf.len.val + (wave s.block.cfg (headPrims s.block.cfg ts)).length ≤ 12000) :
    s.encodeAborts .invalidBitError (wave s.block.cfg (headPrims s.block.cfg ts)) := by
  have hx : cls x = .invalid := cls_invalid.2 (not_or.2 ⟨h0, h1⟩)
  obtain ⟨n, hn⟩ := encodeAll_first hr
  refine encodeAborts_of_raised_plus (hf := hf) hs ?_
  rw [hn, encodeRepeats, htoks, encodeBody_invalid s.block.cfg hv hx, appendAll_fits (wave_valid hl hp) hf, andThen_done,
    andThen_raised]

/-- A mark with `off = 0` stops the first repeat after its first sub-pulse (C4). -/
theorem encodeAborts_continuesWithZero (hs : s.encodesNext) (hl : s.block.cfg.carrierLegal = true)
    (hr : s.block.ctrl.repeatCount ≠ 0) (hc : Calls s.block.cfg s.block.ctrl.tokens (ps ++ p :: qs))
    (hp : ∀ q ∈ ps, q.emittable s.block.cfg) (hz : p.continuesWithZero s.block.cfg)
    (hf : s.block.buf.len.val + (wave s.block.cfg ps).length < 12000) :
    s.encodeAborts .invalidEntry
      (wave s.block.cfg ps ++ [s.block.cfg.markEntry (BitVec.ofNat 32 s.block.cfg.onTime)]) := by
  have hroom : s.block.buf.tail.len.val +
      (wave s.block.cfg ps ++ [s.block.cfg.markEntry (BitVec.ofNat 32 s.block.cfg.onTime)]).length ≤ bufCap := by
    rw [List.length_append]; exact hf
  exact encodeAborts_of_calls hs hr hc (wave_continuesWithZero qs hl hp hz hroom)

/-- Settles O47: any raise, then each cause, in the first repeat or in the copies of valid tokens. -/
theorem encodePhaseAborts : Obligations.EncodePhaseAborts := by
  refine fun s hs => ⟨fun e u => encodeAborts_of_raised hs, fun hl hr => ⟨fun ts xs x => encodeAborts_invalidToken hs hl hr,
    fun ps qs p hc hp => ⟨fun hz hf => ?_, encodeAborts_continuesWithZero hs hl hr hc hp, fun hz hf => ?_⟩,
    fun ps qs hc hp hover => ?_, fun hv hp hover => ?_⟩⟩
  · exact encodeAborts_of_calls hs hr hc (wave_startsWithZero qs hl hp hz hf)
  · exact encodeAborts_of_calls hs hr hc (wave_continuesWithZero_full qs hl hp hz hf)
  · obtain ⟨_, ha⟩ := wave_overflow (t := s.block.buf.tail) qs hl hp hover
    exact encodeAborts_of_calls hs hr hc ha
  · rw [← copies_length] at hover
    obtain ⟨_, ha⟩ := appendAll_overflow (t := s.block.buf.tail)
      (copies_valid s.block.ctrl.repeatCount.toNat (wave_valid hl hp)) hover
    exact encodeAborts_of_raised_plus hs ((encodeAll_valid hv).trans ha)

end Aborts

end Sys2Proof.Machine
end

section
/-! PROOFS. Whole transmissions (44_transmission.md R240): runs of the controller as chains of its steps, one failing row after
another, and success. -/

namespace Sys2Proof.Machine

variable {s : State} {b c : Block} {d : Draw} {out out' : List Output} {rest : List Event} {n : Nat}

/-! ### Runs -/

/-- After `n` steps the block is `b`, the events `rest` are still to come and the outputs `out` were added; everything else is as
in `s`. -/
def State.Runs (s : State) (n : Nat) (b : Block) (rest : List Event) (out : List Output) : Prop :=
  runSteps n s = .next ((s.withInbox rest).emit b out)

theorem runs_zero (h : s.env.inbox = rest) : s.Runs 0 s.block rest [] := by
  subst h
  exact congrArg _ (emit_block_nil s).symm

/-- One step more. -/
theorem State.Runs.next {rest' : List Event} (h : s.Runs n b rest out)
    (hs : step ((s.withInbox rest).emit b out) = .next (((s.withInbox rest').emit b out).emit c out')) :
    s.Runs (n + 1) c rest' (out ++ out') := by
  rw [State.Runs, runSteps_add n 1 h, runSteps_succ hs, emit_emit]
  rfl

/-- One answer more. -/
theorem State.Runs.answer (h : s.Runs n b (.answer d :: rest) out) (hrow : b.Answered d c out') :
    s.Runs (n + 1) c rest (out ++ out') :=
  h.next (Block.Answered.step_eq (s := (s.withInbox _).emit b out) hrow rfl)

/-- T_ENCODE comes before an answer that stands first. -/
theorem State.Runs.encode (h : s.Runs n b (.answer d :: rest) out) (hp : b.ctrl.phase = .tEncode) :
    s.Runs (n + 1) (phaseEncode b) (.answer d :: rest) out := by
  have hs := h.next (c := phaseEncode b) (out' := []) (by rw [step_of_answer rfl, emit_block, if_pos hp]; rfl)
  rwa [List.append_nil] at hs

/-! ### The opening and the hand-off -/

/-- The block once T_INIT and T_LINE were answered Ok. -/
def Block.opened (b : Block) : Block := { b with ctrl := { b.ctrl with session := true, phase := .tEncode } }

/-- The block once T_ENCODE has gone through, in a phase of the hand-off. -/
def Block.handingOff (b : Block) (p : Phase) : Block :=
  { b with buf := b.buf.store b.encodeAll.tail, ctrl := { b.ctrl with session := true, phase := p } }

/-- The outputs of T_INIT and T_LINE on Ok (R240). -/
def Block.openingCalls (b : Block) : List Output := [.call .initBackend .ok, .call (.configureLine b.cfg.lineId true) .ok]

variable {dI dL dC dS dH dP : Draw}

theorem State.Runs.opened (h : s.Runs n b (.answer dI :: .answer dL :: rest) out) (hp : b.ctrl.phase = .tInit)
    (hI : dI.ok = true) (hL : dL.ok = true) : s.Runs (n + 2) b.opened rest (out ++ b.openingCalls) := by
  have hrun := (h.answer (.initOk hp hI)).answer (.lineOk rfl hL)
  rwa [List.append_assoc] at hrun

/-- The opening touches nothing T_ENCODE reads. -/
theorem encodeAll_opened (b : Block) : b.opened.encodeAll = b.encodeAll := rfl

theorem phaseEncode_opened_of_ok (h : b.encodeAll.status = .ok) : phaseEncode b.opened = b.handingOff .tClear := by
  rcases phaseEncode_cases b.opened with ⟨-, hb⟩ | ⟨he, -⟩
  · exact hb
  · rw [encodeAll_opened, h] at he
    simp at he

theorem phaseEncode_opened_of_not_ok (h : b.encodeAll.status ≠ .ok) :
    phaseEncode b.opened = { b.opened with buf := b.buf.store b.encodeAll.tail }.failTo b.encodeAll.status .tTerm := by
  rcases phaseEncode_cases b.opened with ⟨hok, -⟩ | ⟨-, hb⟩
  · exact absurd hok h
  · exact hb

/-- Through T_INIT, T_LINE and T_ENCODE to T_CLEAR, with the answer `d` to its request to come. -/
theorem State.Runs.toClear (h : s.Runs n b (.answer dI :: .answer dL :: .answer d :: rest) out)
    (hp : b.ctrl.phase = .tInit) (hI : dI.ok = true) (hL : dL.ok = true) (henc : b.encodeAll.status = .ok) :
    s.Runs (n + 3) (b.handingOff .tClear) (.answer d :: rest) (out ++ b.openingCalls) := by
  rw [← phaseEncode_opened_of_ok henc]
  exact (h.opened hp hI hL).encode rfl

/-- Settles O49: each row as the chain of its steps. -/
theorem failedTransmissions : Obligations.FailedTransmissions := by
  intro s dI dL dC dS dH dP dD dT hp _
  refine ⟨fun hI hi => ?_, fun hI hL hi => ?_, fun hI hL henc hi => ?_, fun hI hL henc =>
    ⟨fun hC hi => ?_, fun hC hS hi => ?_, fun hC hS hH hi => ?_, fun hC hS hH hP hi => ?_⟩⟩
  · exact ⟨_, (runs_zero hi).answer (.initErr hp hI), rfl, id, rfl⟩
  · exact ⟨_, (((runs_zero hi).answer (.initOk hp hI)).answer (.lineErr rfl hL)).answer (.term rfl), rfl, rfl, rfl⟩
  · have hencoded := ((runs_zero hi).opened hp hI hL).encode rfl
    rw [phaseEncode_opened_of_not_ok henc] at hencoded
    exact ⟨_, hencoded.answer (.term rfl), rfl, rfl, rfl⟩
  · have hclear := (runs_zero hi).toClear hp hI hL henc
    exact ⟨_, (hclear.answer (.clearErr rfl hC)).answer (.term rfl), rfl, rfl, rfl⟩
  · have hstage := ((runs_zero hi).toClear hp hI hL henc).answer (.clearOk rfl hC)
    exact ⟨_, (hstage.answer (.stageErr rfl hS)).answer (.term rfl), rfl, rfl, rfl⟩
  · have hcreate := (((runs_zero hi).toClear hp hI hL henc).answer (.clearOk rfl hC)).answer (.stageOk rfl hS)
    exact ⟨_, (hcreate.answer (.createErr rfl hH)).answer (.term rfl), rfl, rfl, rfl⟩
  · have hstart := ((((runs_zero hi).toClear hp hI hL henc).answer (.clearOk rfl hC)).answer (.stageOk rfl hS)).answer
      (.createOk rfl hH)
    exact ⟨_, ((hstart.answer (.startErr rfl hP)).answer (.delete rfl)).answer (.term rfl), rfl, rfl, rfl, rfl⟩

/-! ### Success -/

/-- A legal TRANSMIT that comes next is accepted. -/
theorem runs_accept {c : Command} (hi : s.env.inbox = .command c :: rest) (hs : s.isReady) (hw : c.word = 0x40)
    (hr : c.args.rep ≠ 0) (ht : exceeds s.params.maxTokens c.args.toks.length = false) :
    s.Runs 1 (s.block.accept c.args.toks c.args.rep) rest [] := by
  have hd : decode c = .ok (.transmit c.args.toks c.args.rep) := decode_eq_ok_iff.2 ⟨.transmit, hw, rfl⟩
  refine runSteps_succ ?_
  rw [step_of_command hi, serveCommand_of_decode_ok hd, exec_transmit_within (s := s.withInbox rest) _ hs ht, if_neg hr]
  rfl

/-- While the backend answers busy the block polls, and nothing else changes. -/
theorem State.Runs.polls {busy : List Draw} (h : s.Runs n b (busy.map .answer ++ rest) out)
    (hp : b.ctrl.phase = .tPoll) (hbusy : ∀ d ∈ busy, d.busy = true) :
    s.Runs (n + busy.length) b rest
      (out ++ List.replicate busy.length (.call (.isBusy b.ctrl.handle) (.busy true))) := by
  induction busy generalizing n out with
  | nil => simpa using h
  | cons d ds ih =>
    obtain ⟨hd, hds⟩ := List.forall_mem_cons.1 hbusy
    have hrun := ih (h.answer (.pollBusy hp hd)) hds
    rw [List.append_assoc, Nat.add_right_comm] at hrun
    exact hrun

/-- The block while the handle `h` plays what T_ENCODE left. -/
def Block.playing (b : Block) (h : Handle) : Block :=
  { b.handingOff .tPoll with ctrl := { (b.handingOff .tPoll).ctrl with handle := h, handleHeld := true } }

/-- The outputs of T_CLEAR to T_START on Ok, with the answers' count and handle (R240). -/
def Block.handOffCalls (b : Block) (count : Nat) (h : Handle) : List Output :=
  [.call .clearStaged .ok, .call (.stage (b.playing h).buf.entries) (.okCount count), .call .createHandle (.okHandle h),
    .call (.start h) .ok]

/-- From T_INIT to T_POLL, each answer Ok. -/
theorem State.Runs.toPoll (h : s.Runs n b (.answer dI :: .answer dL :: .answer dC :: .answer dS :: .answer dH ::
    .answer dP :: rest) out) (hp : b.ctrl.phase = .tInit) (hI : dI.ok = true) (hL : dL.ok = true)
    (henc : b.encodeAll.status = .ok) (hC : dC.ok = true) (hS : dS.ok = true) (hH : dH.ok = true) (hP : dP.ok = true) :
    s.Runs (n + 7) (b.playing dH.handle) rest (out ++ b.openingCalls ++ b.handOffCalls dS.count dH.handle) := by
  have hstart := (((h.toClear hp hI hL henc).answer (.clearOk rfl hC)).answer (.stageOk rfl hS)).answer (.createOk rfl hH)
  have hpoll := hstart.answer (.startOk rfl hP)
  rw [List.append_assoc, List.append_assoc, List.append_assoc] at hpoll
  exact hpoll

/-- The block once it has released what a transmission held. -/
def Block.released (b : Block) : Block :=
  { b with ctrl := { b.ctrl with handleHeld := false, session := false, phase := .idle } }

/-- The outputs from the poll answered idle to the response (R240). -/
def Block.closingOutputs (b : Block) : List Output :=
  [.call (.isBusy b.ctrl.handle) (.busy false), .call (.deleteHandle b.ctrl.handle) .done, .call .terminate .done,
    .response b.ctrl.pend .none]

/-- From T_POLL back to IDLE, once the backend is idle. -/
theorem State.Runs.toIdle {dB dD dT : Draw} (h : s.Runs n b (.answer dB :: .answer dD :: .answer dT :: rest) out)
    (hp : b.ctrl.phase = .tPoll) (hB : dB.busy = false) :
    s.Runs (n + 3) b.released rest (out ++ b.closingOutputs) := by
  have hend := ((h.answer (.pollIdle hp hB)).answer (.delete rfl)).answer (.term rfl)
  rw [List.append_assoc, List.append_assoc] at hend
  exact hend

/-- What is appended to an empty buffer is all it holds. -/
theorem entries_of_appended {b b' : Buffer} {es : List Entry} (h : Appended b b' es) (hb : b.len.val = 0) :
    b'.entries = es := by
  obtain ⟨hlen, hnew, -⟩ := h
  rw [hb, Nat.zero_add] at hlen
  refine List.ext_getElem ((entries_length b').trans hlen) fun k hk hk' => ?_
  rw [entries_getElem, ← hnew k hk', hb, Nat.zero_add]

/-- Settles O48: acceptance, opening and hand-off, polls, closing. -/
theorem successfulTransmission : Obligations.SuccessfulTransmission := by
  intro s c dI dL dC dS dH dP dB dD dT busy rest hs hl hw hr ht hv hp hfit hI hL hC hS hH hP hbusy hB hi
  obtain ⟨u, hu, happ⟩ := encodeAll_fits (b := s.block.accept c.args.toks c.args.rep) hl hv hp
    ((Nat.zero_add _).le.trans hfit)
  have henc : (s.block.accept c.args.toks c.args.rep).encodeAll.status = .ok := by rw [hu, status_done]
  obtain rfl : (s.block.accept c.args.toks c.args.rep).encodeAll.tail = u := by rw [hu, tail_done]
  have haccept := runs_accept (rest := .answer dI :: .answer dL :: .answer dC :: .answer dS :: .answer dH :: .answer dP ::
    (busy.map .answer ++ .answer dB :: .answer dD :: .answer dT :: rest)) (by rw [hi]; simp) hs hw hr ht
  have hend := ((haccept.toPoll rfl hI hL henc hC hS hH hP).polls rfl hbusy).toIdle rfl hB
  have hsteps : 1 + 7 + busy.length + 3 = 11 + busy.length := by omega
  rw [hsteps] at hend
  refine ⟨_, hend, ⟨rfl, hs.2⟩, rfl, rfl, rfl, entries_of_appended happ rfl, ?_⟩
  rw [emit_log, ← List.append_assoc, ← List.append_assoc]
  rfl

end Sys2Proof.Machine
end

section
/-! PROOFS. The exceptions (60_exceptions.md): the numbers of the statuses (R260), and the refusals that change nothing, for an
illegal command (R270), outside IDLE (R269), without a configuration (R267) and for a bad argument (R268). -/

namespace Sys2Proof.Machine

variable {s : State}

/-! ### The status codes -/

theorem status_code_le_ten (st : Status) : st.code.toNat ≤ 10 := by
  cases st <;> decide

/-- Settles O6. -/
theorem statusCodesAsNumbered : Obligations.StatusCodesAsNumbered :=
  ⟨rfl, rfl, rfl, rfl, rfl, rfl, rfl, rfl, rfl, rfl, rfl, status_code_le_ten⟩

/-! ### Illegal commands, and commands outside IDLE -/

/-- A word with a reserved bit set or an unassigned opcode does not decode (R92). -/
theorem decode_illegal {c : Command} (h : c.word.extractLsb' 8 24 ≠ 0 ∨ c.word.extractLsb' 0 8 ∉
      ([0x01, 0x02, 0x03, 0x04, 0x10, 0x11, 0x20, 0x21, 0x30, 0x40, 0x41] : List (BitVec 8))) :
    ∃ e, decode c = .error e := by
  cases hd : decode c with
  | error e => exact ⟨e, rfl⟩
  | ok i =>
    obtain ⟨hrsv, hopc⟩ := (legalWordsAreTheElevenOpcodes c).1 ⟨i, hd⟩
    exact (h.elim (· hrsv) (· hopc)).elim

/-- Settles O9: the command is taken and does not decode; the phase is not looked at. -/
theorem illegalCommandsAreAnswered : Obligations.IllegalCommandsAreAnswered := by
  intro s c rest hi hillegal
  obtain ⟨e, he⟩ := decode_illegal hillegal
  rw [step_of_command hi, serveCommand_of_decode_error he, respond_eq_emit, withInbox_block]

/-- Settles O10. -/
theorem legalCommandsOutsideIdleAreBusy : Obligations.LegalCommandsOutsideIdleAreBusy :=
  fun i _ => exec_outside_idle i

/-! ### Without a configuration -/

/-- A command of R267 in IDLE, whatever it would do when configured. -/
theorem whenIdle_whenConfigured_invalid (hidle : s.isIdle) (h : s.block.cfgValid = false) (act : State → State) :
    whenIdle s (fun s => whenConfigured s act) = .next (s.emit s.block [.response .notConfigured .none]) := by
  rw [whenIdle_idle hidle, whenConfigured, h, if_neg Bool.false_ne_true, respond_eq_emit]

/-- Settles O11: each of the five commands starts with the two checks. -/
theorem unconfiguredCommandsAreRefused : Obligations.UnconfiguredCommandsAreRefused := by
  intro s hidle hcfg i hi
  rcases hi with ⟨d, rfl⟩ | ⟨d, rfl⟩ | ⟨ts, rfl⟩ | ⟨ts, r, rfl⟩ | ⟨bs, w, v, r, rfl⟩ <;>
    exact whenIdle_whenConfigured_invalid hidle hcfg _

/-! ### Bad arguments -/

theorem exceeds_eq_true_iff {bound : Option Nat} {k : Nat} : exceeds bound k = true ↔ ∃ n, bound = some n ∧ n < k := by
  cases bound <;> simp [exceeds]

/-- A payload is too long when either bound is exceeded (R206, R234). -/
theorem packTooLong_eq_true_iff {p : Params} {bs : List Byte} {w : Word} : packTooLong p bs w = true ↔
    ∃ n, (p.maxDataBytes = some n ∧ n < bs.length) ∨ (p.maxTokens = some n ∧ n < bs.length * bitsPerByte w) := by
  rw [packTooLong, Bool.or_eq_true, exceeds_eq_true_iff, exceeds_eq_true_iff, exists_or]

/-- A PACK beyond a bound is refused (R206). -/
theorem exec_pack_tooLong {bs : List Byte} {w : Word} (v : Bool) (hidle : s.isIdle)
    (h : packTooLong s.params bs w = true) : exec (.pack bs w v) s = .next (s.respond .invalidArgument .none) := by
  rw [exec, execPack, whenIdle_idle hidle, if_pos h]

/-- A TRANSMIT with a repeat count of 0 or beyond the bound is refused (R222). -/
theorem exec_transmit_refused {ts : List Token} {r : Word} (hs : s.isReady)
    (h : r = 0 ∨ exceeds s.params.maxTokens ts.length = true) :
    exec (.transmit ts r) s = .next (s.respond .invalidArgument .none) := by
  rw [exec, execTransmit, whenIdle_idle hs.1, whenConfigured_valid hs.2, if_pos h]

/-- So is a TRANSMIT_BYTES, with the bounds of the packer (R234). -/
theorem exec_transmitBytes_refused {bs : List Byte} {w : Word} (v : Bool) {r : Word} (hs : s.isReady)
    (h : r = 0 ∨ packTooLong s.params bs w = true) :
    exec (.transmitBytes bs w v r) s = .next (s.respond .invalidArgument .none) := by
  rw [exec, execTransmitBytes, whenIdle_idle hs.1, whenConfigured_valid hs.2, if_pos h]

/-- Settles O12, command by command. -/
theorem badArgumentsAreRefused : Obligations.BadArgumentsAreRefused := by
  refine fun s hidle => ⟨fun k hk => ?bufRead, fun bs w v hlong => ?pack, fun hcfg =>
    ⟨fun ts n hn hlt => ?encode, fun ts r hbad => ?transmit, fun bs w v r hbad => ?transmitBytes⟩⟩
  case bufRead => exact (bufReadAnswersTheEntry k s).2.2 hidle hk
  case pack => exact exec_pack_tooLong v hidle (packTooLong_eq_true_iff.2 hlong)
  case encode => exact exec_encode_tooLong ⟨hidle, hcfg⟩ (exceeds_eq_true_iff.2 ⟨n, hn, hlt⟩)
  case transmit => exact exec_transmit_refused ⟨hidle, hcfg⟩ (hbad.imp_right exceeds_eq_true_iff.2)
  case transmitBytes => exact exec_transmitBytes_refused v ⟨hidle, hcfg⟩ (hbad.imp_right packTooLong_eq_true_iff.2)

end Sys2Proof.Machine
end

section
/-! PROOFS. Reset (R290, R291): what the reset event makes of the block, and the answers that come when no request is pending. -/

namespace Sys2Proof.Machine

variable {s : State} {rest : List Event} {d : Draw}

/-- In IDLE no request is pending, so an answer is ignored (R291). -/
theorem answerStep_idle (h : s.isIdle) (d : Draw) : s.answerStep d = s := by
  have hp : phaseStep d s.block = (s.block, []) := by rw [phaseStep, h]
  rw [State.answerStep, hp, emit_block_nil]

/-- An answer that arrives in IDLE is taken and has no effect. -/
theorem step_of_answer_idle (hidle : s.isIdle) (hi : s.env.inbox = .answer d :: rest) :
    step s = .next (s.withInbox rest) := by
  have henc : s.block.ctrl.phase ≠ .tEncode := by
    rw [show s.block.ctrl.phase = .idle from hidle]
    decide
  rw [step_of_answer hi, if_neg henc, answerStep_idle (s := s.withInbox rest) hidle]

/-- Settles O55: the reset event emits the reset block and the record of the pending request, whatever the phase; an answer
without a pending request changes nothing. -/
theorem resetEventLeavesTheResetState : Obligations.ResetEventLeavesTheResetState := by
  refine ⟨fun s rest hi => ⟨(s.withInbox rest).applyReset, step_of_reset hi, ?registers⟩,
    fun s d rest hi => step_of_lateAnswer hi, fun s d rest hidle hi => step_of_answer_idle hidle hi⟩
  case registers =>
    rw [State.applyReset]
    exact ⟨emit_block .., emit_params .., emit_inbox .., emit_log .., rfl, rfl, rfl, rfl, rfl, rfl⟩

end Sys2Proof.Machine
end
